-- ==== Sys2Proof/Word.lean ====
section
/-! DEFINITION. The bit-vector types of the P3 codec engine: bytes of memory (20_memory.md R70) and the 32-bit words
of the register block (10_state.md R32). -/

namespace Sys2Proof

/-- One byte of memory or of an artifact: the spec's `u8` (00_scope.md R8, R9). -/
abbrev Byte := BitVec 8

/-- One register of the register block: the spec's `u32` (10_state.md R32). -/
abbrev Word := BitVec 32

end Sys2Proof
end

