-- ==== Sys2Proof/Config.lean ====
section
/-! DEFINITION. What a platform fixes when it builds the engine, the constants of 00_scope.md R6, and the free values:
constants without a body, one for each value the spec leaves open. -/

namespace Sys2Proof.Config

/-- `HDR_LEN`: the byte length of the container header (00_scope.md R6, 30_encoding.md R110). -/
def hdrLen : Nat := 272

/-- `NAME_FIELD`: the byte length of `original_name` (00_scope.md R6). -/
def nameField : Nat := 256

/-- `LZW_CAP`: the most entries an LZW dictionary holds (00_scope.md R6, 43_lzw.md R240). -/
def lzwCap : Nat := 4096

/-- `RUN_MAX`: the longest run one RLE pair carries (44_rle.md R270). -/
def runMax : Nat := 2 ^ 32 - 1

/-- `ENGINE_STRIDE`: the distance between two engines' register blocks (00_scope.md R6). -/
def engineStride : Nat := 0x100

/-- `ENC_FLAG`: the `flags` word of an encrypted artifact (00_scope.md R6, 30_encoding.md R111). -/
def encFlag : Word := 0x00000001

/-- A range of addresses `[start, start + len)`. -/
structure Region where
  start : Nat
  len : Nat
deriving DecidableEq, Repr, Inhabited

/-- The parameters of 00_scope.md R6, as a platform fixes them. They stand in the machine's state, where no step
changes them, so that every statement about all states holds for every platform (log entry 1). -/
structure Platform where
  /-- `MAGIC`, the container sentinel. -/
  magic : Word
  /-- `ADDR_W`, the width of a memory address in bits. -/
  addrW : Nat
  /-- `BASE`, the bus address of engine 0's register block. -/
  base : Nat
  /-- The addresses with `mem_valid(a) = false`, as ranges: the addresses no platform memory backs. -/
  unbacked : List Region
deriving DecidableEq, Repr

/-- The value of `MAGIC`, which the spec leaves OPEN (00_scope.md R6, D3). -/
opaque magic : Word

/-- The value of `BASE`, which the spec leaves OPEN (00_scope.md R6, D6). -/
opaque base : Nat

/-- `NUM_ENGINES - 1`, which the spec leaves OPEN (00_scope.md R6, D29). -/
opaque extraEngines : Nat

/-- The platform right after reset: the OPEN parameters stay open, the others take the spec's defaults
(00_scope.md R6; log entry 1). -/
def platform : Platform := { magic := magic, addrW := 64, base := base, unbacked := [] }

/-! ## Free values

Each takes the number of the draw, so that every use is a value of its own. -/

/-- FREE VALUE. The byte at an address that nothing has written since power-up: the memory's content at power-up is
unspecified (70_reset_and_hazards.md R392; log entry 2). -/
opaque powerUpByte : Nat → Byte

/-- FREE VALUE. The byte at an address of a destination region left at any value, by draw and address
(40_engine_common.md R157, 20_memory.md R79, 70_reset_and_hazards.md R391; log entries 5, 6). -/
opaque freeByte : Nat → Nat → Byte

/-- FREE VALUE. What a host read of a running command's destination returns, by draw (20_memory.md R79; log entry 7). -/
opaque freeHostRead : Nat → Byte

/-- FREE VALUE. OUT_LEN after a raced command, low and high half (20_memory.md R79; log entry 6). -/
opaque freeOutLen : Nat → Word × Word

/-- FREE VALUE. The status code of a raced command, one of the eight codes of 60_exceptions.md R360
(20_memory.md R79; log entry 6). -/
opaque freeErr : Nat → BitVec 3

/-- FREE VALUE. HDR_SIZE after a raced HDR_RD, low and high half (20_memory.md R79; log entry 6). -/
opaque freeHdrSize : Nat → Word × Word

/-- FREE VALUE. HDR_FLAGS after a raced HDR_RD (20_memory.md R79; log entry 6). -/
opaque freeHdrFlags : Nat → Word

/-- FREE VALUE. Byte j of word i of the round-key store after a reset of a machine that runs, by draw, i and j
(10_state.md R53; log entry 3). -/
opaque freeRoundKeyByte : Nat → Nat → Nat → Byte

end Sys2Proof.Config
end

