-- ==== Sys2Proof/Machine/State.lean ====
section
/-! DEFINITION. The machine's state as plain data: the register file, the phase and the round-key store of every engine
(10_state.md), the shared memory (20_memory.md R70), the platform's parameters, and the model's own fields for the
order of events and for values the spec leaves open. -/

namespace Sys2Proof.Machine

/-- The status codes of 60_exceptions.md R360, in the order of their numbers 0 to 7. Codes 8 to 15 are never
produced, so STATUS.ERR can hold nothing else. -/
inductive Status where
  | ok
  | corruptInput
  | sizeMismatch
  | paddingInvalid
  | unsupportedAlgorithm
  | ioFailure
  | missingKey
  | limitExceeded
deriving DecidableEq, Repr, Inhabited

/-- The phase of an engine (10_state.md R49). There is no other. -/
inductive Phase where
  | idle
  | running
deriving DecidableEq, Repr, Inhabited

/-- A 64-bit value held in a LO and a HI register (30_encoding.md R102). -/
structure Reg64 where
  lo : Word
  hi : Word
deriving DecidableEq, Repr, Inhabited

/-- The operand registers (10_state.md R40): what the host writes and START latches. -/
structure OperandRegs where
  /-- CMD (R35). -/
  cmd : Word
  /-- SRC_ADDR (R36). -/
  srcAddr : Reg64
  /-- SRC_LEN (R37). -/
  srcLen : Reg64
  /-- DST_ADDR (R38). -/
  dstAddr : Reg64
  /-- DST_CAP (R39). -/
  dstCap : Reg64
  /-- NAME_ADDR (R41). -/
  nameAddr : Reg64
  /-- NAME_LEN (R41). -/
  nameLen : Word
  /-- HFLAGS_IN (R42). -/
  hflags : Word
  /-- HSIZE_IN (R42). -/
  hsize : Reg64
  /-- KEY0 to KEY7 (R46). -/
  keys : Vector Word 8
deriving DecidableEq, Repr

/-- A word of the AES core: four bytes (45_aes.md R290). A column of the 4×4 state is one too (R296). -/
structure AesWord where
  b0 : Byte
  b1 : Byte
  b2 : Byte
  b3 : Byte
deriving DecidableEq, Repr, Inhabited

/-- The round-key store: 60 words (10_state.md R48). -/
abbrev RoundKeys := Vector AesWord 60

/-- One engine: its register block and its internal state (10_state.md R32, R48, R49). -/
structure Engine where
  /-- CTRL.IRQ_EN (R33). -/
  irqEn : Bool
  /-- The phase; STATUS.BUSY is 1 exactly when it is `running` (R34, R49). -/
  phase : Phase
  /-- STATUS.DONE (R34). -/
  done : Bool
  /-- STATUS.ERR (R34). -/
  err : Status
  /-- The operand registers (R40). -/
  regs : OperandRegs
  /-- OUT_LEN (R43). -/
  outLen : Reg64
  /-- HDR_SIZE (R44). -/
  hdrSize : Reg64
  /-- HDR_FLAGS (R44). -/
  hdrFlags : Word
  /-- KEY_STATUS.KEY_VALID (R45). -/
  keyValid : Bool
  /-- The round-key store RK (R48). -/
  rk : RoundKeys
  /-- The operand values held since START acceptance (R40, R49; 40_engine_common.md R151). -/
  latched : OperandRegs
  /-- The model's own: another agent has raced on the running command's buffers (20_memory.md R79; log entry 6). -/
  raced : Bool
deriving DecidableEq, Repr

/-- The bytes written so far, by address, addresses strictly rising (log entry 2). -/
abbrev Memory := List Host.Cell

/-- A region left at any value by the draw of number `draw`: its bytes are `Config.freeByte draw` of their
addresses until they are written (40_engine_common.md R157). -/
structure OpenRegion where
  start : Nat
  len : Nat
  draw : Nat
deriving DecidableEq, Repr

/-- The atomic events of the interleaving (60_exceptions.md R367, 20_memory.md R78): host register accesses, host
memory accesses, execution steps and resets. -/
inductive Event where
  /-- The host writes a register at a bus address: address, width in bytes, value (10_state.md R32). -/
  | regWrite (addr : Nat) (width : Nat) (value : Word)
  /-- The host reads a register at a bus address: address, width in bytes (10_state.md R32). -/
  | regRead (addr : Nat) (width : Nat)
  /-- The host writes a byte of memory (20_memory.md R70). -/
  | memWrite (addr : Nat) (value : Byte)
  /-- The host reads a byte of memory (20_memory.md R70). -/
  | memRead (addr : Nat)
  /-- Engine `e` takes its execution step (40_engine_common.md R154). -/
  | run (e : Nat)
  /-- The platform resets engine `e` (70_reset_and_hazards.md R390). -/
  | reset (e : Nat)
deriving DecidableEq, Repr

/-- What the last host read returned. -/
inductive HostData where
  /-- The host has read nothing yet. -/
  | none
  /-- The value of a register read. -/
  | word (value : Word)
  /-- The value of a memory read. -/
  | byte (value : Byte)
deriving DecidableEq, Repr

/-- The whole machine: the platform, its engines, their shared memory, and the coming events. -/
structure State where
  /-- The parameters of 00_scope.md R6; no step changes them. -/
  platform : Config.Platform
  /-- The engines, numbered from 0 (60_exceptions.md R372). -/
  engines : List Engine
  /-- The bytes of memory that something has written (20_memory.md R70). -/
  mem : Memory
  /-- The model's own: regions left at any value, the latest first (log entry 5). -/
  openRegions : List OpenRegion
  /-- The model's own: how many free values have been drawn. -/
  draws : Nat
  /-- The model's own: the engine whose execution step `exec` runs. -/
  active : Nat
  /-- The model's own: the coming events, in the order they happen (log entry 8). -/
  agenda : List Event
  /-- The model's own: what the last host read returned. -/
  hostData : HostData
deriving DecidableEq, Repr

/-- Why a step stops. No command raises one (60_exceptions.md R376). -/
inductive Fault where
  /-- Raised by a host memory access outside `[0, 2^ADDR_W)` or to an address that no platform memory backs
  (20_memory.md R70). Safe: the spec gives such an access no effect (log entry 12). -/
  | hostMemoryAbsent (addr : Nat)
deriving DecidableEq, Repr

/-- What the model turns away. -/
inductive Refusal where
  /-- Raised by `exec` for a command without a meaning. Safe; no arm of this model raises it. -/
  | notModelled (mnemonic : String)
  /-- Raised by a host register access that is not 32 bits wide at an offset that is a multiple of 4. Safe: the spec
  has the model refuse it (10_state.md R32; 93_implementation_defined.md row 5). -/
  | registerAccess (addr : Nat) (width : Nat)
  /-- Raised by a host register access at a bus address in no engine's register block. Safe: it is no access to this
  hardware (10_state.md R32; log entry 11). -/
  | noRegisterBlock (addr : Nat)
  /-- Raised by an execution step or a reset of an engine that the platform does not have. Safe: no such event can
  happen (60_exceptions.md R372; log entry 13). -/
  | noSuchEngine (e : Nat)
deriving DecidableEq, Repr

/-- The zero of a 64-bit register pair. -/
def Reg64.zero : Reg64 := { lo := 0, hi := 0 }

/-- The operand registers right after reset (10_state.md R53). -/
def OperandRegs.reset : OperandRegs :=
  { cmd := 0
    srcAddr := Reg64.zero
    srcLen := Reg64.zero
    dstAddr := Reg64.zero
    dstCap := Reg64.zero
    nameAddr := Reg64.zero
    nameLen := 0
    hflags := 0
    hsize := Reg64.zero
    keys := Vector.replicate 8 0 }

/-- An engine right after reset (10_state.md R53). The round-key store, which R53 leaves unspecified, is zero here
(DESIGN CHOICE, log entry 3), and so are the latched operands (DESIGN CHOICE, log entry 4). -/
def Engine.reset : Engine :=
  { irqEn := false
    phase := .idle
    done := false
    err := .ok
    regs := OperandRegs.reset
    outLen := Reg64.zero
    hdrSize := Reg64.zero
    hdrFlags := 0
    keyValid := false
    rk := Vector.replicate 60 { b0 := 0, b1 := 0, b2 := 0, b3 := 0 }
    latched := OperandRegs.reset
    raced := false }

/-- The machine right after reset: every engine as 10_state.md R53 says, memory with nothing listed, no event
pending. -/
def State.reset : State :=
  { platform := Config.platform
    engines := Engine.reset :: List.replicate Config.extraEngines Engine.reset
    mem := []
    openRegions := []
    draws := 0
    active := 0
    agenda := []
    hostData := .none }

end Sys2Proof.Machine
end

