-- ==== Sys2Proof/Machine/AesCore.lean ====
section
/-! DEFINITION. The AES-256 core: field, S-boxes, key schedule, block transforms, padding and ECB mode (45_aes.md R290 to
R301). -/

namespace Sys2Proof.Machine

/-! ## The field GF(2^8) (45_aes.md R291) -/

/-- `xtime(a)`, which is `a • 0x02` (45_aes.md R291). -/
def xtime (a : Byte) : Byte := (a <<< 1) ^^^ (if a.getLsbD 7 then 0x1b else 0x00)

/-- `a • b` as a sum of xtimes of `b`, one for each set bit of `a` (45_aes.md R291). -/
def gmul (a b : Byte) : Byte :=
  (List.range 8).foldl (fun acc i => xtime acc ^^^ (if a.getLsbD (7 - i) then b else 0)) 0

/-! ## S-boxes (45_aes.md R292, R293) -/

/-- The rows of the S-box, one number of sixteen bytes for each high nibble (45_aes.md R292). -/
def sboxRows : List Nat :=
  [0x637c777bf26b6fc53001672bfed7ab76,
   0xca82c97dfa5947f0add4a2af9ca472c0,
   0xb7fd9326363ff7cc34a5e5f171d83115,
   0x04c723c31896059a071280e2eb27b275,
   0x09832c1a1b6e5aa0523bd6b329e32f84,
   0x53d100ed20fcb15b6acbbe394a4c58cf,
   0xd0efaafb434d338545f9027f503c9fa8,
   0x51a3408f929d38f5bcb6da2110fff3d2,
   0xcd0c13ec5f974417c4a77e3d645d1973,
   0x60814fdc222a908846eeb814de5e0bdb,
   0xe0323a0a4906245cc2d3ac629195e479,
   0xe7c8376d8dd54ea96c56f4ea657aae08,
   0xba78252e1ca6b4c6e8dd741f4bbd8b8a,
   0x703eb5664803f60e613557b986c11d9e,
   0xe1f8981169d98e949b1e87e9ce5528df,
   0x8ca1890dbfe6426841992d0fb054bb16]

/-- The rows of the inverse S-box (45_aes.md R293). -/
def invSboxRows : List Nat :=
  [0x52096ad53036a538bf40a39e81f3d7fb,
   0x7ce339829b2fff87348e4344c4dee9cb,
   0x547b9432a6c2233dee4c950b42fac34e,
   0x082ea16628d924b2765ba2496d8bd125,
   0x72f8f66486689816d4a45ccc5d65b692,
   0x6c704850fdedb9da5e154657a78d9d84,
   0x90d8ab008cbcd30af7e45805b8b34506,
   0xd02c1e8fca3f0f02c1afbd0301138a6b,
   0x3a9111414f67dcea97f2cfcef0b4e673,
   0x96ac7422e7ad3585e2f937e81c75df6e,
   0x47f11a711d29c5896fb7620eaa18be1b,
   0xfc563e4bc6d279209adbc0fe78cd5af4,
   0x1fdda8338807c731b11210592780ec5f,
   0x60517fa919b54a0d2de57a9f93c99cef,
   0xa0e03b4dae2af5b0c8ebbb3c83539961,
   0x172b047eba77d626e169146355210c7d]

/-- The byte of a table at row = high nibble, column = low nibble (45_aes.md R292). -/
def tableByte (rows : List Nat) (x : Byte) : Byte :=
  BitVec.ofNat 8 (rows.getD (x.toNat / 16) 0 >>> (8 * (15 - x.toNat % 16)))

/-- `SBOX[x]` (45_aes.md R292). -/
def sbox (x : Byte) : Byte := tableByte sboxRows x

/-- `INV_SBOX[y]` (45_aes.md R293). -/
def invSbox (y : Byte) : Byte := tableByte invSboxRows y

/-! ## Words and the key schedule (45_aes.md R290, R294, R295) -/

/-- Bytewise exclusive or of two words (45_aes.md R295). -/
def AesWord.xor (a b : AesWord) : AesWord :=
  { b0 := a.b0 ^^^ b.b0, b1 := a.b1 ^^^ b.b1, b2 := a.b2 ^^^ b.b2, b3 := a.b3 ^^^ b.b3 }

/-- A function on each byte of a word. -/
def AesWord.map (f : Byte → Byte) (a : AesWord) : AesWord := { b0 := f a.b0, b1 := f a.b1, b2 := f a.b2, b3 := f a.b3 }

/-- `RotWord` (45_aes.md R295). -/
def rotWord (a : AesWord) : AesWord := { b0 := a.b1, b1 := a.b2, b2 := a.b3, b3 := a.b0 }

/-- `SubWord` (45_aes.md R295). -/
def subWord (a : AesWord) : AesWord := a.map sbox

/-- `RC[j]` for j ≥ 1 (45_aes.md R294). -/
def roundConst : Nat → Byte
  | 0 => 0x00
  | 1 => 0x01
  | j + 2 => xtime (roundConst (j + 1))

/-- `Rcon[j]` (45_aes.md R294). -/
def rcon (j : Nat) : AesWord := { b0 := roundConst j, b1 := 0, b2 := 0, b3 := 0 }

/-- The word of four bytes of a byte string (45_aes.md R290). -/
def wordAt (bs : List Byte) (i : Nat) : AesWord :=
  { b0 := bs.getD i 0, b1 := bs.getD (i + 1) 0, b2 := bs.getD (i + 2) 0, b3 := bs.getD (i + 3) 0 }

/-- `w[i]` from the words before it, i ≥ 8 (45_aes.md R295). -/
def nextWord (w : List AesWord) (i : Nat) : AesWord :=
  let t := w.getD (i - 1) default
  let t' :=
    if i % 8 = 0 then (subWord (rotWord t)).xor (rcon (i / 8))
    else if i % 8 = 4 then subWord t
    else t
  (w.getD (i - 8) default).xor t'

/-- The first 8 + n words of the expansion (45_aes.md R295). -/
def expandWords (key : List Byte) : Nat → List AesWord
  | 0 => (List.range 8).map (fun i => wordAt key (4 * i))
  | n + 1 => expandWords key n ++ [nextWord (expandWords key n) (8 + n)]

/-- The expansion has as many words as it has run for. -/
theorem expandWords_length (key : List Byte) (n : Nat) : (expandWords key n).length = 8 + n := by
  induction n with
  | zero => simp [expandWords]
  | succ n ih => simp [expandWords, ih]; omega

/-- `KeyExpansion(key[0..31])`: 60 words (45_aes.md R295). -/
def keyExpansion (key : List Byte) : RoundKeys :=
  ⟨(expandWords key 52).toArray, by simp [expandWords_length]⟩

/-! ## The block transform (45_aes.md R296 to R299) -/

/-- The 4×4 state as its four columns: `s[r][c]` is byte r of column c (45_aes.md R296). -/
structure AesBlock where
  c0 : AesWord
  c1 : AesWord
  c2 : AesWord
  c3 : AesWord
deriving DecidableEq, Repr, Inhabited

/-- `load`: `s[r][c] = in[r + 4c]` (45_aes.md R296). -/
def loadBlock (bs : List Byte) : AesBlock :=
  { c0 := wordAt bs 0, c1 := wordAt bs 4, c2 := wordAt bs 8, c3 := wordAt bs 12 }

/-- The bytes of a word. -/
def AesWord.bytes (a : AesWord) : List Byte := [a.b0, a.b1, a.b2, a.b3]

/-- `store`: `out[r + 4c] = s[r][c]` (45_aes.md R296). -/
def storeBlock (s : AesBlock) : List Byte := s.c0.bytes ++ s.c1.bytes ++ s.c2.bytes ++ s.c3.bytes

/-- A function on each column of the state. -/
def AesBlock.map (f : AesWord → AesWord) (s : AesBlock) : AesBlock :=
  { c0 := f s.c0, c1 := f s.c1, c2 := f s.c2, c3 := f s.c3 }

/-- SubBytes (45_aes.md R297). -/
def subBytes (s : AesBlock) : AesBlock := s.map (AesWord.map sbox)

/-- InvSubBytes (45_aes.md R298). -/
def invSubBytes (s : AesBlock) : AesBlock := s.map (AesWord.map invSbox)

/-- ShiftRows: `s'[r][c] = s[r][(c + r) mod 4]` (45_aes.md R297). -/
def shiftRows (s : AesBlock) : AesBlock :=
  { c0 := { b0 := s.c0.b0, b1 := s.c1.b1, b2 := s.c2.b2, b3 := s.c3.b3 }
    c1 := { b0 := s.c1.b0, b1 := s.c2.b1, b2 := s.c3.b2, b3 := s.c0.b3 }
    c2 := { b0 := s.c2.b0, b1 := s.c3.b1, b2 := s.c0.b2, b3 := s.c1.b3 }
    c3 := { b0 := s.c3.b0, b1 := s.c0.b1, b2 := s.c1.b2, b3 := s.c2.b3 } }

/-- InvShiftRows: `s'[r][c] = s[r][(c - r) mod 4]` (45_aes.md R298). -/
def invShiftRows (s : AesBlock) : AesBlock :=
  { c0 := { b0 := s.c0.b0, b1 := s.c3.b1, b2 := s.c2.b2, b3 := s.c1.b3 }
    c1 := { b0 := s.c1.b0, b1 := s.c0.b1, b2 := s.c3.b2, b3 := s.c2.b3 }
    c2 := { b0 := s.c2.b0, b1 := s.c1.b1, b2 := s.c0.b2, b3 := s.c3.b3 }
    c3 := { b0 := s.c3.b0, b1 := s.c2.b1, b2 := s.c1.b2, b3 := s.c0.b3 } }

/-- One row of a column matrix: `k0•a0 ⊕ k1•a1 ⊕ k2•a2 ⊕ k3•a3` (45_aes.md R297, R298). -/
def mixRow (k0 k1 k2 k3 : Byte) (a : AesWord) : Byte :=
  gmul k0 a.b0 ^^^ gmul k1 a.b1 ^^^ gmul k2 a.b2 ^^^ gmul k3 a.b3

/-- MixColumns on one column (45_aes.md R297). -/
def mixColumn (a : AesWord) : AesWord :=
  { b0 := mixRow 0x02 0x03 0x01 0x01 a
    b1 := mixRow 0x01 0x02 0x03 0x01 a
    b2 := mixRow 0x01 0x01 0x02 0x03 a
    b3 := mixRow 0x03 0x01 0x01 0x02 a }

/-- InvMixColumns on one column (45_aes.md R298). -/
def invMixColumn (a : AesWord) : AesWord :=
  { b0 := mixRow 0x0e 0x0b 0x0d 0x09 a
    b1 := mixRow 0x09 0x0e 0x0b 0x0d a
    b2 := mixRow 0x0d 0x09 0x0e 0x0b a
    b3 := mixRow 0x0b 0x0d 0x09 0x0e a }

/-- MixColumns (45_aes.md R297). -/
def mixColumns (s : AesBlock) : AesBlock := s.map mixColumn

/-- InvMixColumns (45_aes.md R298). -/
def invMixColumns (s : AesBlock) : AesBlock := s.map invMixColumn

/-- AddRoundKey(r): `s[j][c] ⊕ w[4r + c][j]` (45_aes.md R297). -/
def addRoundKey (w : RoundKeys) (r : Nat) (s : AesBlock) : AesBlock :=
  { c0 := s.c0.xor (w.toList.getD (4 * r) default)
    c1 := s.c1.xor (w.toList.getD (4 * r + 1) default)
    c2 := s.c2.xor (w.toList.getD (4 * r + 2) default)
    c3 := s.c3.xor (w.toList.getD (4 * r + 3) default) }

/-- Rounds 1 to n of the cipher (45_aes.md R299). -/
def cipherRounds (w : RoundKeys) : Nat → AesBlock → AesBlock
  | 0, s => s
  | n + 1, s => addRoundKey w (n + 1) (mixColumns (shiftRows (subBytes (cipherRounds w n s))))

/-- Rounds n down to 1 of the inverse cipher (45_aes.md R299). -/
def invCipherRounds (w : RoundKeys) : Nat → AesBlock → AesBlock
  | 0, s => s
  | n + 1, s => invCipherRounds w n (invMixColumns (addRoundKey w (n + 1) (invSubBytes (invShiftRows s))))

/-- `Cipher` on a loaded state (45_aes.md R299). -/
def cipherBlock (w : RoundKeys) (s : AesBlock) : AesBlock :=
  addRoundKey w 14 (shiftRows (subBytes (cipherRounds w 13 (addRoundKey w 0 s))))

/-- `InvCipher` on a loaded state (45_aes.md R299). -/
def invCipherBlock (w : RoundKeys) (s : AesBlock) : AesBlock :=
  addRoundKey w 0 (invSubBytes (invShiftRows (invCipherRounds w 13 (addRoundKey w 14 s))))

/-- `Cipher(w, b)` (45_aes.md R299). -/
def cipher (w : RoundKeys) (b : List Byte) : List Byte := storeBlock (cipherBlock w (loadBlock b))

/-- `InvCipher(w, b)` (45_aes.md R299). -/
def invCipher (w : RoundKeys) (b : List Byte) : List Byte := storeBlock (invCipherBlock w (loadBlock b))

/-! ## Padding and mode (45_aes.md R300, R301) -/

/-- `Pad(p)` (45_aes.md R300). -/
def pkcs7Pad (p : List Byte) : List Byte :=
  p ++ List.replicate (16 - p.length % 16) (BitVec.ofNat 8 (16 - p.length % 16))

/-- `Unpad(q)`, for a string of one block or more (45_aes.md R300). -/
def pkcs7Unpad (q : List Byte) : Except Status (List Byte) :=
  let v := q.getD (q.length - 1) 0
  if v = 0 ∨ 16 < v.toNat then .error .paddingInvalid
  else if q.drop (q.length - v.toNat) ≠ List.replicate v.toNat v then .error .paddingInvalid
  else .ok (q.take (q.length - v.toNat))

/-- A function on each of the first n blocks of 16 bytes, in order, with no chaining (45_aes.md R301). -/
def ecbBlocks (f : List Byte → List Byte) : Nat → List Byte → List Byte
  | 0, _ => []
  | n + 1, d => f (d.take 16) ++ ecbBlocks f n (d.drop 16)

/-- `EcbEnc(w, d)` for a string of whole blocks (45_aes.md R301). -/
def ecbEnc (w : RoundKeys) (d : List Byte) : List Byte := ecbBlocks (cipher w) (d.length / 16) d

/-- `EcbDec(w, d)` for a string of whole blocks (45_aes.md R301). -/
def ecbDec (w : RoundKeys) (d : List Byte) : List Byte := ecbBlocks (invCipher w) (d.length / 16) d

end Sys2Proof.Machine
end

