-- ==== Sys2Proof/Machine/Bytes.lean ====
section
/-! DEFINITION. Byte strings and their little-endian fields (00_scope.md R9, 20_memory.md R71). -/

namespace Sys2Proof.Machine

/-- `le16`, `le32`, `le64` for n = 2, 4, 8: the n-byte little-endian encoding of `v` (00_scope.md R9). -/
def leBytes : Nat → Nat → List Byte
  | 0, _ => []
  | n + 1, v => BitVec.ofNat 8 v :: leBytes n (v / 256)

/-- The little-endian value of a byte string (00_scope.md R9). -/
def leNat : List Byte → Nat
  | [] => 0
  | b :: bs => b.toNat + 256 * leNat bs

/-- `a[i..i+n)` (00_scope.md R9). -/
def slice (a : List Byte) (i n : Nat) : List Byte := (a.drop i).take n

/-- `rd16(a, i)` (00_scope.md R9). -/
def rd16 (a : List Byte) (i : Nat) : Nat := leNat (slice a i 2)

/-- `rd32(a, i)` (00_scope.md R9). -/
def rd32 (a : List Byte) (i : Nat) : Nat := leNat (slice a i 4)

/-- `rd64(a, i)` (00_scope.md R9). -/
def rd64 (a : List Byte) (i : Nat) : Nat := leNat (slice a i 8)

end Sys2Proof.Machine
end

