-- ==== Sys2Proof/Machine/Flags.lean ====
section
/-! DEFINITION. The flags of an engine as the words the host reads: STATUS, CTRL, KEY_STATUS, and the interrupt output
(10_state.md R33, R34, R45, R51, R52). -/

namespace Sys2Proof.Machine

/-- The number of a status code (60_exceptions.md R360). -/
def Status.code : Status → BitVec 4
  | .ok => 0
  | .corruptInput => 1
  | .sizeMismatch => 2
  | .paddingInvalid => 3
  | .unsupportedAlgorithm => 4
  | .ioFailure => 5
  | .missingKey => 6
  | .limitExceeded => 7

/-- The status code of a number 0 to 7: the codes a command can end with (60_exceptions.md R360). -/
def Status.ofCode (c : BitVec 3) : Status :=
  if c = 0 then .ok
  else if c = 1 then .corruptInput
  else if c = 2 then .sizeMismatch
  else if c = 3 then .paddingInvalid
  else if c = 4 then .unsupportedAlgorithm
  else if c = 5 then .ioFailure
  else if c = 6 then .missingKey
  else .limitExceeded

/-- STATUS.BUSY is 1 exactly when the phase is RUNNING (10_state.md R34, R49). -/
def Engine.busy (e : Engine) : Bool := e.phase == .running

/-- The interrupt output `IRQ = STATUS.DONE ∧ CTRL.IRQ_EN` (10_state.md R52, 60_exceptions.md R366). -/
def Engine.irq (e : Engine) : Bool := e.done && e.irqEn

/-- One flag in bit `i` of a register whose other bits are 0. -/
def flagBit (i : Nat) (b : Bool) : Word := (BitVec.setWidth 32 (BitVec.ofBool b)) <<< i

/-- STATUS as the host reads it: BUSY in bit 0, DONE in bit 1, ERR in bits 11:8, the rest 0 (10_state.md R34). -/
def Engine.statusWord (e : Engine) : Word :=
  flagBit 0 e.busy ||| flagBit 1 e.done ||| ((BitVec.setWidth 32 e.err.code) <<< 8)

/-- CTRL as the host reads it: START reads 0, IRQ_EN in bit 1, the rest 0 (10_state.md R33). -/
def Engine.ctrlWord (e : Engine) : Word := flagBit 1 e.irqEn

/-- KEY_STATUS as the host reads it: KEY_VALID in bit 0, the rest 0 (10_state.md R45). -/
def Engine.keyStatusWord (e : Engine) : Word := flagBit 0 e.keyValid

end Sys2Proof.Machine
end

