-- ==== Sys2Proof/Syntax.lean ====
section
/-! DEFINITION. The commands of the engine: one constructor for each row of spec/opcode_table.json
(30_encoding.md R101). A command has no operand fields: every operand is a register (R100, R102). -/

namespace Sys2Proof

/-- The 14 commands of 30_encoding.md R101. -/
inductive Instr where
  /-- `NOP` (40_engine_common.md R159). -/
  | nop
  /-- `HDR_WR`: write a container header (41_container.md R183). -/
  | hdrWr
  /-- `HDR_RD`: parse a container header (41_container.md R184). -/
  | hdrRd
  /-- `HUF_ENC`: Huffman encoder (42_huffman.md R205). -/
  | hufEnc
  /-- `HUF_DEC`: Huffman decoder (42_huffman.md R206). -/
  | hufDec
  /-- `LZW_ENC`: LZW encoder (43_lzw.md R243). -/
  | lzwEnc
  /-- `LZW_DEC`: LZW decoder (43_lzw.md R244). -/
  | lzwDec
  /-- `RLE_ENC`: RLE encoder (44_rle.md R271). -/
  | rleEnc
  /-- `RLE_DEC`: RLE decoder (44_rle.md R272). -/
  | rleDec
  /-- `AES_KEYEXP`: key schedule (45_aes.md R303). -/
  | aesKeyexp
  /-- `AES_ENC`: artifact encryption (45_aes.md R304). -/
  | aesEnc
  /-- `AES_DEC`: artifact decryption (45_aes.md R305). -/
  | aesDec
  /-- `AES_RAW_ENC`: raw ECB encryption (45_aes.md R306). -/
  | aesRawEnc
  /-- `AES_RAW_DEC`: raw ECB decryption (45_aes.md R307). -/
  | aesRawDec
deriving DecidableEq, Repr, Inhabited

/-- A command word split into its two fields (30_encoding.md R100): the opcode in bits 7:0, the reserved field in
bits 31:8. -/
structure CmdWord where
  op : BitVec 8
  rsv : BitVec 24
deriving DecidableEq, Repr

end Sys2Proof
end

