-- ==== Sys2Proof/WellFormed.lean ====
section
/-! DEFINITION. The checks of the spec on a command word (30_encoding.md R100, R104) and on a platform's parameters
(00_scope.md R6). -/

namespace Sys2Proof

/-- The assigned opcodes of 30_encoding.md R101. -/
def assignedOpcodes : List (BitVec 8) :=
  [0x00, 0x01, 0x02, 0x10, 0x11, 0x20, 0x21, 0x30, 0x31, 0x40, 0x41, 0x42, 0x43, 0x44]

/-- A command word is valid when its reserved field is 0 and its opcode is assigned (30_encoding.md R100). -/
def CmdWord.wf (c : CmdWord) : Bool := c.rsv == 0 && assignedOpcodes.contains c.op

/-- A platform is well formed when 1 ≤ ADDR_W ≤ 64 (00_scope.md R6). -/
def Config.Platform.wf (p : Config.Platform) : Bool := decide (1 ≤ p.addrW) && decide (p.addrW ≤ 64)

end Sys2Proof
end

