-- ==== Sys2Proof/Decode.lean ====
section
/-! DEFINITION. The decoder of the CMD register (30_encoding.md R100, R101, R104), total on every word, and the encoder
after it. -/

namespace Sys2Proof

/-- Why a command word names no command (30_encoding.md R104). Both are UnsupportedAlgorithm at execution. -/
inductive DecodeError where
  /-- Bits 31:8 are not 0. -/
  | reservedBits (rsv : BitVec 24)
  /-- The opcode is not assigned. -/
  | unassignedOpcode (op : BitVec 8)
  /-- Not the four bytes of one command word (30_encoding.md R103). -/
  | notOneWord (nbytes : Nat)
deriving DecidableEq, Repr

/-- The fields of a command word (30_encoding.md R100). -/
def splitWord (w : Word) : CmdWord := { op := w.extractLsb' 0 8, rsv := w.extractLsb' 8 24 }

/-- The command of an opcode (30_encoding.md R101). -/
def decodeOpcode (op : BitVec 8) : Except DecodeError Instr :=
  if op = 0x00 then .ok .nop
  else if op = 0x01 then .ok .hdrWr
  else if op = 0x02 then .ok .hdrRd
  else if op = 0x10 then .ok .hufEnc
  else if op = 0x11 then .ok .hufDec
  else if op = 0x20 then .ok .lzwEnc
  else if op = 0x21 then .ok .lzwDec
  else if op = 0x30 then .ok .rleEnc
  else if op = 0x31 then .ok .rleDec
  else if op = 0x40 then .ok .aesKeyexp
  else if op = 0x41 then .ok .aesEnc
  else if op = 0x42 then .ok .aesDec
  else if op = 0x43 then .ok .aesRawEnc
  else if op = 0x44 then .ok .aesRawDec
  else .error (.unassignedOpcode op)

/-- The decoder of the CMD word: the reserved field must be 0, then the opcode selects (30_encoding.md R100, R104). -/
def decode (w : Word) : Except DecodeError Instr :=
  let c := splitWord w
  if c.rsv = 0 then decodeOpcode c.op else .error (.reservedBits c.rsv)

/-- The word of four bytes as the register bus carries it: bits 7:0 at the lowest address (10_state.md R32). -/
def wordOfBytes (b0 b1 b2 b3 : Byte) : Word := b3 ++ b2 ++ b1 ++ b0

/-- The decoder on bytes of the register bus: exactly one 32-bit word (30_encoding.md R103). -/
def decodeBytes : List Byte → Except DecodeError Instr
  | [b0, b1, b2, b3] => decode (wordOfBytes b0 b1 b2 b3)
  | bytes => .error (.notOneWord bytes.length)

/-- The four bytes of a word as the register bus carries them (10_state.md R32). -/
def bytesOfWord (w : Word) : List Byte :=
  [w.extractLsb' 0 8, w.extractLsb' 8 8, w.extractLsb' 16 8, w.extractLsb' 24 8]

/-- What the decoder reads from the bits `w` of a row of the opcode table: the low `nbits` bits, laid out as the
register bus carries them. -/
def decodeTableWord (nbits w : Nat) : Option Instr :=
  match decodeBytes (bytesOfWord (BitVec.ofNat 32 (w % 2 ^ nbits))) with
  | .ok i => some i
  | .error _ => none

/-- The opcode of a command (30_encoding.md R101). -/
def Instr.opcode : Instr → BitVec 8
  | .nop => 0x00
  | .hdrWr => 0x01
  | .hdrRd => 0x02
  | .hufEnc => 0x10
  | .hufDec => 0x11
  | .lzwEnc => 0x20
  | .lzwDec => 0x21
  | .rleEnc => 0x30
  | .rleDec => 0x31
  | .aesKeyexp => 0x40
  | .aesEnc => 0x41
  | .aesDec => 0x42
  | .aesRawEnc => 0x43
  | .aesRawDec => 0x44

/-- A command is well formed when its word is (30_encoding.md R100). A command has no operand field, so every command
is (`Sys2Proof.Laws.WordRoundTrip` says so for each). -/
def Instr.wf (i : Instr) : Bool := CmdWord.wf { op := i.opcode, rsv := 0 }

/-- The encoder: the command word of a command, its opcode with a reserved field of 0 (30_encoding.md R101). -/
def encode (i : Instr) : Word := (0 : BitVec 24) ++ i.opcode

end Sys2Proof
end

