-- ==== Sys2Proof/Machine/Operands.lean ====
section
/-! DEFINITION. Operand assembly (30_encoding.md R102), the buffers each command uses (40_engine_common.md R160) and
the predicates on buffers (20_memory.md R76). -/

namespace Sys2Proof.Machine

/-- `X = X_HI · 2^32 + X_LO` (30_encoding.md R102). -/
def Reg64.value (r : Reg64) : Nat := r.hi.toNat * 2 ^ 32 + r.lo.toNat

/-- The register pair of a value below 2^64 (30_encoding.md R102). -/
def Reg64.ofNat (v : Nat) : Reg64 := { lo := BitVec.ofNat 32 v, hi := BitVec.ofNat 32 (v / 2 ^ 32) }

/-- The source buffer `[src, src + slen)` (00_scope.md R12). -/
def OperandRegs.source (r : OperandRegs) : Config.Region := { start := r.srcAddr.value, len := r.srcLen.value }

/-- The name buffer `[name, name + min(nlen, 255))` (10_state.md R41, 40_engine_common.md R160). -/
def OperandRegs.name (r : OperandRegs) : Config.Region := { start := r.nameAddr.value, len := min r.nameLen.toNat 255 }

/-- The destination region `[dst, dst + cap)` (00_scope.md R12). -/
def OperandRegs.dest (r : OperandRegs) : Config.Region := { start := r.dstAddr.value, len := r.dstCap.value }

/-- Key byte `4i + j` is `KEYi[8j+7:8j]` (10_state.md R46). -/
def OperandRegs.keyByte (r : OperandRegs) (n : Nat) : Byte := ((r.keys.toList).getD (n / 4) 0).extractLsb' (8 * (n % 4)) 8

/-- The key bytes `key[0..31]` (45_aes.md R290). -/
def OperandRegs.keyBytes (r : OperandRegs) : List Byte := (List.range 32).map r.keyByte

/-! ## The table of 40_engine_common.md R160 -/

/-- Which commands use the source buffer (40_engine_common.md R160). -/
def usesSource : Instr → Bool
  | .nop | .hdrWr | .aesKeyexp => false
  | .hdrRd | .hufEnc | .hufDec | .lzwEnc | .lzwDec | .rleEnc | .rleDec => true
  | .aesEnc | .aesDec | .aesRawEnc | .aesRawDec => true

/-- Which commands use the name buffer (40_engine_common.md R160). -/
def usesName : Instr → Bool
  | .hdrWr | .hufEnc | .lzwEnc | .rleEnc | .aesEnc => true
  | .nop | .hdrRd | .hufDec | .lzwDec | .rleDec | .aesKeyexp | .aesDec | .aesRawEnc | .aesRawDec => false

/-- Which commands use the destination region (40_engine_common.md R160). -/
def usesDest : Instr → Bool
  | .nop | .aesKeyexp => false
  | .hdrWr | .hdrRd | .hufEnc | .hufDec | .lzwEnc | .lzwDec | .rleEnc | .rleDec => true
  | .aesEnc | .aesDec | .aesRawEnc | .aesRawDec => true

/-- Which commands need a valid key (40_engine_common.md R155 step 2). -/
def needsKey : Instr → Bool
  | .aesEnc | .aesDec | .aesRawEnc | .aesRawDec => true
  | .nop | .hdrWr | .hdrRd | .hufEnc | .hufDec | .lzwEnc | .lzwDec | .rleEnc | .rleDec | .aesKeyexp => false

/-! ## The predicates of 20_memory.md R76 -/

/-- `Overlap(a, n, b, m)` (20_memory.md R76). -/
def overlaps (x y : Config.Region) : Bool :=
  decide (0 < x.len) && decide (0 < y.len) && decide (x.start < y.start + y.len) && decide (y.start < x.start + x.len)

/-- Whether address `a` lies in a buffer. -/
def covers (x : Config.Region) (a : Nat) : Bool := decide (x.start ≤ a) && decide (a < x.start + x.len)

/-- `mem_valid(a)` (00_scope.md R6). -/
def memValid (p : Config.Platform) (a : Nat) : Bool := p.unbacked.all (fun r => !covers r a)

/-- `RangeOK(a, n)` (20_memory.md R76): in the address space, and every byte backed. A zero-length buffer is always
RangeOK, whatever its address, as the text of R76 says (log entry 10). That no byte is unbacked is said by
overlap, so that a long buffer needs no walk over its bytes; `Obligations.RangeCheckIsByteWise` is the byte-wise form. -/
def rangeOK (p : Config.Platform) (x : Config.Region) : Bool :=
  x.len == 0 || (decide (x.start + x.len ≤ 2 ^ p.addrW) && p.unbacked.all (fun r => !overlaps x r))

/-! ## Footprints, for the races of 20_memory.md R79 -/

/-- The buffers a command reads (20_memory.md R77). -/
def readBuffers (i : Instr) (r : OperandRegs) : List Config.Region :=
  (if usesSource i then [r.source] else []) ++ (if usesName i then [r.name] else [])

/-- The region a command writes (20_memory.md R77). -/
def writeBuffers (i : Instr) (r : OperandRegs) : List Config.Region := if usesDest i then [r.dest] else []

/-- The command of a word of operands, if its word is valid (30_encoding.md R100). -/
def OperandRegs.command (r : OperandRegs) : Option Instr :=
  match decode r.cmd with
  | .ok i => some i
  | .error _ => none

/-- The buffers that the latched command of these operands reads; an invalid word uses none (30_encoding.md R104). -/
def OperandRegs.reads (r : OperandRegs) : List Config.Region :=
  match r.command with
  | some i => readBuffers i r
  | none => []

/-- The region that the latched command of these operands writes. -/
def OperandRegs.writes (r : OperandRegs) : List Config.Region :=
  match r.command with
  | some i => writeBuffers i r
  | none => []

/-- Two commands conflict when the destination region of one overlaps a source, name or destination buffer of the
other (20_memory.md R84, 60_exceptions.md R372). -/
def conflict (r q : OperandRegs) : Bool :=
  r.writes.any (fun x => (q.reads ++ q.writes).any (overlaps x)) ||
    q.writes.any (fun x => r.reads.any (overlaps x))

end Sys2Proof.Machine
end

