-- ==== Sys2Proof/Machine/Ops.lean ====
section
/-! DEFINITION. The named operations over memory and engines, and the parts of a command's life that every command
shares: the pre-checks (40_engine_common.md R155), completion with or without an error (R156, R157), which is what this
machine has in place of taking an exception (60_exceptions.md R365), and START acceptance (R151). -/

namespace Sys2Proof.Machine

/-! ## Memory (20_memory.md R70) -/

/-- The byte written last at an address, if something has written there. -/
def Memory.get? : Memory → Nat → Option Byte
  | [], _ => none
  | (k, b) :: m, a => if k = a then some b else Memory.get? m a

/-- The canonical form: addresses strictly rising (log entry 2). -/
def Memory.wf : Memory → Bool
  | [] => true
  | c :: m => m.all (fun d => decide (c.1 < d.1)) && Memory.wf m

/-- The cells of a byte string placed at an address. -/
def Memory.cells : Nat → List Byte → Memory
  | _, [] => []
  | a, b :: bs => (a, b) :: Memory.cells (a + 1) bs

/-- `MemWrite(a, n, bs)` with n the length of bs (00_scope.md R10). -/
def Memory.write (m : Memory) (a : Nat) (bs : List Byte) : Memory :=
  if bs = [] then m
  else m.filter (fun c => decide (c.1 < a)) ++ Memory.cells a bs ++ m.filter (fun c => decide (a + bs.length ≤ c.1))

/-- Forget what was written in a region, so that its bytes read as unlisted addresses do. -/
def Memory.forget (m : Memory) (r : Config.Region) : Memory := m.filter (fun c => !covers r c.1)

/-- What an address that is not listed reads as: the free byte of the latest open region that covers it, else the
free byte of power-up (40_engine_common.md R157, 70_reset_and_hazards.md R392; log entries 2, 5). -/
def State.unlistedByte (s : State) (a : Nat) : Byte :=
  match s.openRegions.find? (fun r => covers { start := r.start, len := r.len } a) with
  | some r => Config.freeByte r.draw a
  | none => Config.powerUpByte a

/-- One byte of memory (20_memory.md R70). -/
def State.readByte (s : State) (a : Nat) : Byte :=
  match Memory.get? s.mem a with
  | some b => b
  | none => s.unlistedByte a

/-- `MemRead(a, n)` (00_scope.md R10). -/
def State.readBytes (s : State) (a n : Nat) : List Byte := (List.range n).map (fun k => s.readByte (a + k))

/-- `MemWrite(a, n, bs)` (00_scope.md R10). -/
def State.writeBytes (s : State) (a : Nat) (bs : List Byte) : State := { s with mem := s.mem.write a bs }

/-- Every byte of a region becomes any value: a fresh draw of free bytes (40_engine_common.md R157, 20_memory.md R79,
70_reset_and_hazards.md R391; log entry 5). -/
def State.openRegion (s : State) (r : Config.Region) : State :=
  { s with
    mem := s.mem.forget r
    openRegions := if r.len = 0 then s.openRegions else { start := r.start, len := r.len, draw := s.draws } :: s.openRegions
    draws := s.draws + 1 }

/-! ## Engines -/

/-- Change one engine and no other (60_exceptions.md R372). -/
def State.mapEngine (s : State) (e : Nat) (f : Engine → Engine) : State := { s with engines := s.engines.modify e f }

/-- The engine whose execution step runs. Where `active` names no engine, which no step allows, it is an engine right
after reset (log entry 13). -/
def State.acting (s : State) : Engine := s.engines.getD s.active Engine.reset

/-- Change the engine whose execution step runs. -/
def State.mapActing (s : State) (f : Engine → Engine) : State := s.mapEngine s.active f

/-- The operands latched at START (00_scope.md R12, 10_state.md R40). -/
def State.ops (s : State) : OperandRegs := s.acting.latched

/-- `in = MemRead(src, slen)` (00_scope.md R12). -/
def State.source (s : State) : List Byte := s.readBytes s.ops.source.start s.ops.source.len

/-- `slen` (00_scope.md R12). -/
def State.slen (s : State) : Nat := s.ops.srcLen.value

/-- `dst` (00_scope.md R12). -/
def State.dst (s : State) : Nat := s.ops.dstAddr.value

/-- `cap` (00_scope.md R12). -/
def State.cap (s : State) : Nat := s.ops.dstCap.value

/-! ## Completion (40_engine_common.md R156) -/

/-- The completion of 40_engine_common.md R156, with the OUT_LEN it posts. -/
def Engine.complete (e : Engine) (err : Status) (outLen : Reg64) : Engine :=
  { e with err := err, outLen := outLen, phase := .idle, done := true, raced := false }

/-- `raise E` before the command has accessed memory: the errors of the pre-checks and of an invalid command word.
Memory is unchanged and OUT_LEN is 0 (40_engine_common.md R155, R156, R157). -/
def State.raise (s : State) (err : Status) : State := s.mapActing (fun e => e.complete err Reg64.zero)

/-- `raise E` in a command's own pseudocode: completion with the error, and every byte of `[dst, dst + cap)` is any
value (40_engine_common.md R156, R157). -/
def State.raiseInBody (s : State) (err : Status) : State := (s.openRegion s.ops.dest).raise err

/-- The registers a successful command changes besides STATUS and OUT_LEN. -/
inductive RegUpdate where
  /-- Every command but the two below. -/
  | none
  /-- HDR_RD: HDR_SIZE and HDR_FLAGS (41_container.md R184). -/
  | header (size : Reg64) (flags : Word)
  /-- AES_KEYEXP: RK, and KEY_VALID becomes 1 (45_aes.md R303). -/
  | roundKeys (rk : RoundKeys)
deriving DecidableEq, Repr

/-- What a command's pseudocode ends with on success: the bytes of its `MemWrite` at `dst`, whose number is the
argument of `finish`, and its register updates (00_scope.md R11). -/
structure Output where
  bytes : List Byte
  update : RegUpdate
deriving DecidableEq, Repr

/-- A part of a command's pseudocode that may raise, and the rest, which runs only if it does not (00_scope.md R11). -/
def andThen {α β : Type} (part : Except Status α) (rest : α → Except Status β) : Except Status β :=
  match part with
  | .error err => .error err
  | .ok a => rest a

/-- The output of a command that writes bytes and no register of its own. -/
def Output.ofBytes (bs : List Byte) : Output := { bytes := bs, update := .none }

/-- Apply a successful command's register updates (41_container.md R184, 45_aes.md R303). -/
def Engine.update (e : Engine) : RegUpdate → Engine
  | .none => e
  | .header size flags => { e with hdrSize := size, hdrFlags := flags }
  | .roundKeys rk => { e with rk := rk, keyValid := true }

/-- `finish(out_len)`: the output is written at `dst`, then completion with OK (00_scope.md R11,
40_engine_common.md R156). -/
def State.finish (s : State) (o : Output) : State :=
  (s.writeBytes s.dst o.bytes).mapActing (fun e => (e.update o.update).complete .ok (Reg64.ofNat o.bytes.length))

/-- The completion of a command whose buffers another agent raced on: every byte of the destination, OUT_LEN, ERR,
and for HDR_RD HDR_SIZE and HDR_FLAGS, are any value (20_memory.md R79; log entry 6). -/
def State.finishRaced (s : State) (i : Instr) : State :=
  let d := s.draws
  let size := Config.freeHdrSize d
  let out := Config.freeOutLen d
  (s.openRegion s.ops.dest).mapActing (fun e =>
    (e.update (if i = .hdrRd then .header { lo := size.1, hi := size.2 } (Config.freeHdrFlags d) else .none)).complete
      (Status.ofCode (Config.freeErr d)) { lo := out.1, hi := out.2 })

/-! ## The execution step of a valid command (40_engine_common.md R154) -/

/-- The pre-checks of 40_engine_common.md R155, steps 2 to 4 in their order: the status the first failing check
raises, if one fails. -/
def State.preCheck (s : State) (i : Instr) : Option Status :=
  let r := s.ops
  if needsKey i && !s.acting.keyValid then some .missingKey
  else if usesSource i && !rangeOK s.platform r.source then some .ioFailure
  else if usesName i && !rangeOK s.platform r.name then some .ioFailure
  else if usesDest i && !rangeOK s.platform r.dest then some .ioFailure
  else if usesSource i && usesDest i && overlaps r.source r.dest then some .ioFailure
  else if usesName i && usesDest i && overlaps r.name r.dest then some .ioFailure
  else none

/-- Run a command: the results of a raced command are any value; otherwise the pre-checks, then the command's
pseudocode on memory as it stands, then completion (40_engine_common.md R154 to R157, 20_memory.md R79). A command
without a destination region has no buffer to race on. -/
def runCommand (i : Instr) (body : State → Except Status Output) (s : State) : Host.Outcome State Fault Refusal :=
  if usesDest i && s.acting.raced then .next (s.finishRaced i)
  else
    match s.preCheck i with
    | some err => .next (s.raise err)
    | none =>
      match body s with
      | .error err => .next (s.raiseInBody err)
      | .ok o => .next (s.finish o)

/-- An invalid command word: UnsupportedAlgorithm, with no memory access and no other effect (40_engine_common.md R153,
30_encoding.md R104). -/
def execInvalid (s : State) : Host.Outcome State Fault Refusal := .next (s.raise .unsupportedAlgorithm)

/-- The capacity check that ends every encoder: an output longer than the destination is IoFailure
(60_exceptions.md R363). -/
def fitOutput (cap : Nat) (out : List Byte) : Except Status Output :=
  if cap < out.length then .error .ioFailure else .ok (Output.ofBytes out)

/-! ## START acceptance (40_engine_common.md R151) -/

/-- The engine part of START acceptance: IRQ_EN is stored, the operands are latched, DONE, ERR and OUT_LEN are
cleared, and the phase becomes RUNNING (40_engine_common.md R151). -/
def Engine.start (e : Engine) (irqEn : Bool) (raced : Bool) : Engine :=
  { e with
    irqEn := irqEn
    latched := e.regs
    done := false
    err := .ok
    outLen := Reg64.zero
    phase := .running
    raced := raced }

/-- Mark every RUNNING engine whose latched operands meet a condition as raced (20_memory.md R79; log entry 6). -/
def State.markRaced (s : State) (p : OperandRegs → Bool) : State :=
  { s with engines := s.engines.map (fun e => if e.busy && p e.latched then { e with raced := true } else e) }

/-- START acceptance by engine `e` (40_engine_common.md R151). Memory is not accessed. Where the new command and a
running command of another engine conflict, both are raced (20_memory.md R84, 60_exceptions.md R372). -/
def State.acceptStart (s : State) (e : Nat) (irqEn : Bool) : State :=
  let regs := (s.engines.getD e Engine.reset).regs
  let raced := s.engines.any (fun f => f.busy && conflict regs f.latched)
  (s.markRaced (conflict regs)).mapEngine e (fun f => f.start irqEn raced)

end Sys2Proof.Machine
end

