-- ==== Sys2Proof/Machine/Container.lean ====
section
/-! DEFINITION. The container header: serializer, parser, and the commands HDR_WR and HDR_RD (41_container.md,
30_encoding.md R110). -/

namespace Sys2Proof.Machine

/-- `NameField(name, nlen)`: the first min(nlen, 255) bytes of the name buffer unchanged, then 0x00 up to 256 bytes
(41_container.md R180). -/
def State.nameField (s : State) : List Byte :=
  s.readBytes s.ops.name.start s.ops.name.len ++ List.replicate (Config.nameField - s.ops.name.len) 0x00

/-- `MkHeader(size, nf, fl)` (41_container.md R181, 30_encoding.md R110). -/
def mkHeader (magic : Word) (size : Nat) (nf : List Byte) (fl : Word) : List Byte :=
  leBytes 4 magic.toNat ++ leBytes 8 size ++ nf ++ leBytes 4 fl.toNat

/-- The header an encoder writes in front of its body (41_container.md R181). -/
def State.artifactHeader (s : State) (fl : Word) : List Byte := mkHeader s.platform.magic s.slen s.nameField fl

/-- What a header parse returns (41_container.md R182). -/
structure Header where
  orig : Nat
  name : List Byte
  flags : Nat
deriving DecidableEq, Repr

/-- `ParseHeader(in, L)`: only the length and the magic are checked (41_container.md R182). -/
def parseHeader (magic : Word) (input : List Byte) (len : Nat) : Except Status Header :=
  if len < Config.hdrLen then .error .corruptInput
  else if rd32 input 0 ≠ magic.toNat then .error .corruptInput
  else .ok { orig := rd64 input 4, name := slice input 12 Config.nameField, flags := rd32 input 268 }

/-- How every decoder begins: the source buffer, the header parse, then the capacity check
(60_exceptions.md R363). The rest gets the declared size and the whole source. -/
def State.withArtifact (s : State) (rest : Nat → List Byte → Except Status Output) : Except Status Output :=
  andThen (parseHeader s.platform.magic s.source s.slen)
    (fun h => if s.cap < h.orig then .error .ioFailure else rest h.orig s.source)

/-- How a decoder ends: an output of another length than declared is SizeMismatch (60_exceptions.md R360). -/
def exactSize (orig : Nat) (out : List Byte) : Except Status Output :=
  if out.length ≠ orig then .error .sizeMismatch else .ok (Output.ofBytes out)

/-- The pseudocode of HDR_WR (41_container.md R183). -/
def hdrWrBody (s : State) : Except Status Output :=
  if s.cap < Config.hdrLen then .error .ioFailure
  else .ok (Output.ofBytes (mkHeader s.platform.magic s.ops.hsize.value s.nameField s.ops.hflags))

/-- The pseudocode of HDR_RD: only the header bytes are read; HDR_SIZE and HDR_FLAGS are written on success
(41_container.md R184, 30_encoding.md R118). -/
def hdrRdBody (s : State) : Except Status Output :=
  andThen (parseHeader s.platform.magic (s.readBytes s.ops.source.start (min s.slen Config.hdrLen)) s.slen)
    (fun h =>
      if s.cap < Config.nameField then .error .ioFailure
      else .ok { bytes := h.name, update := .header (Reg64.ofNat h.orig) (BitVec.ofNat 32 h.flags) })

/-- HDR_WR (41_container.md R183). -/
def execHdrWr (s : State) : Host.Outcome State Fault Refusal := runCommand .hdrWr hdrWrBody s

/-- HDR_RD (41_container.md R184). -/
def execHdrRd (s : State) : Host.Outcome State Fault Refusal := runCommand .hdrRd hdrRdBody s

end Sys2Proof.Machine
end

