-- ==== Sys2Proof/Machine/Aes.lean ====
section
/-! DEFINITION. The AES family: AES_KEYEXP, AES_ENC, AES_DEC, AES_RAW_ENC, AES_RAW_DEC (45_aes.md R303 to R307). -/

namespace Sys2Proof.Machine

/-- The pseudocode of AES_KEYEXP: the expansion of the latched key bytes, and KEY_VALID (45_aes.md R303). -/
def aesKeyexpBody (s : State) : Except Status Output :=
  .ok { bytes := [], update := .roundKeys (keyExpansion s.ops.keyBytes) }

/-- The pseudocode of AES_ENC (45_aes.md R304). -/
def aesEncBody (s : State) : Except Status Output :=
  fitOutput s.cap (s.artifactHeader Config.encFlag ++ ecbEnc s.acting.rk (pkcs7Pad s.source))

/-- The pseudocode of AES_DEC (45_aes.md R305). -/
def aesDecBody (s : State) : Except Status Output :=
  s.withArtifact (fun orig input =>
    let c := input.drop Config.hdrLen
    if c.length % 16 ≠ 0 then .error .corruptInput
    else if c.length = 0 then .error .paddingInvalid
    else andThen (pkcs7Unpad (ecbDec s.acting.rk c)) (exactSize orig))

/-- The checks of the raw block commands, then their output (45_aes.md R306, R307). -/
def rawBlocks (s : State) (f : List Byte → List Byte) : Except Status Output :=
  if s.slen % 16 ≠ 0 then .error .corruptInput
  else if s.cap < s.slen then .error .ioFailure
  else .ok (Output.ofBytes (f s.source))

/-- The pseudocode of AES_RAW_ENC (45_aes.md R306). -/
def aesRawEncBody (s : State) : Except Status Output := rawBlocks s (ecbEnc s.acting.rk)

/-- The pseudocode of AES_RAW_DEC (45_aes.md R307). -/
def aesRawDecBody (s : State) : Except Status Output := rawBlocks s (ecbDec s.acting.rk)

/-- AES_KEYEXP (45_aes.md R303). -/
def execAesKeyexp (s : State) : Host.Outcome State Fault Refusal := runCommand .aesKeyexp aesKeyexpBody s

/-- AES_ENC (45_aes.md R304). -/
def execAesEnc (s : State) : Host.Outcome State Fault Refusal := runCommand .aesEnc aesEncBody s

/-- AES_DEC (45_aes.md R305). -/
def execAesDec (s : State) : Host.Outcome State Fault Refusal := runCommand .aesDec aesDecBody s

/-- AES_RAW_ENC (45_aes.md R306). -/
def execAesRawEnc (s : State) : Host.Outcome State Fault Refusal := runCommand .aesRawEnc aesRawEncBody s

/-- AES_RAW_DEC (45_aes.md R307). -/
def execAesRawDec (s : State) : Host.Outcome State Fault Refusal := runCommand .aesRawDec aesRawDecBody s

end Sys2Proof.Machine
end

