-- ==== Sys2Proof/Machine/Engine.lean ====
section
/-! DEFINITION. The engine family: NOP (40_engine_common.md R159). -/

namespace Sys2Proof.Machine

/-- NOP: `finish(0)`; no buffer, no register of its own (40_engine_common.md R159). -/
def execNop (s : State) : Host.Outcome State Fault Refusal := runCommand .nop (fun _ => .ok (Output.ofBytes [])) s

end Sys2Proof.Machine
end

