-- ==== Sys2Proof/Machine/Huffman.lean ====
section
/-! DEFINITION. The Huffman encoder and decoder (42_huffman.md) and their bitstream (30_encoding.md R113). A bit string
is a list of Bool, `true` for 1. -/

namespace Sys2Proof.Machine

/-! ## Bitstream packing (30_encoding.md R113) -/

/-- The byte of eight bits, the first the most significant (30_encoding.md R113). -/
def byteOfBits (f : Nat → Bool) : Byte :=
  BitVec.ofNat 8 ((List.range 8).foldl (fun acc j => 2 * acc + (f j).toNat) 0)

/-- `pack(B)`: MSB first, the last byte padded with 0 bits (30_encoding.md R113). -/
def packBits (bits : List Bool) : List Byte :=
  (List.range ((bits.length + 7) / 8)).map (fun i => byteOfBits (fun j => bits.getD (8 * i + j) false))

/-- `bit(S, k)` (30_encoding.md R113). -/
def streamBit (stream : List Byte) (k : Nat) : Bool := (stream.getD (k / 8) 0).getLsbD (7 - k % 8)

/-! ## The code (42_huffman.md R200 to R203) -/

/-- A symbol and its frequency, as an artifact stores them (30_encoding.md R112). -/
structure SymFreq where
  sym : Byte
  freq : Nat
deriving DecidableEq, Repr

/-- `Alphabet(in)`: the symbols of non-zero frequency, in ascending order (42_huffman.md R200). -/
def alphabet (input : List Byte) : List SymFreq :=
  (List.range 256).filterMap (fun n =>
    let f := input.count (BitVec.ofNat 8 n)
    if f = 0 then none else some { sym := BitVec.ofNat 8 n, freq := f })

/-- The shape of a Huffman tree: every internal node has two children (42_huffman.md R201). -/
inductive HuffTree where
  | leaf (sym : Byte)
  | node (left right : HuffTree)
deriving DecidableEq, Repr

/-- A node of the priority queue (42_huffman.md R201). -/
structure QueueNode where
  freq : Nat
  seq : Nat
  tree : HuffTree
deriving DecidableEq, Repr

/-- The lexicographic order of (freq, seq) (42_huffman.md R201). -/
def QueueNode.before (a b : QueueNode) : Bool :=
  decide (a.freq < b.freq) || (a.freq == b.freq && decide (a.seq < b.seq))

/-- The node with the least (freq, seq) of a queue that is not empty, and the other nodes (42_huffman.md R201). -/
def popLeast : QueueNode → List QueueNode → QueueNode × List QueueNode
  | a, [] => (a, [])
  | a, b :: q =>
    if a.before b then
      let r := popLeast a q
      (r.1, b :: r.2)
    else
      let r := popLeast b q
      (r.1, a :: r.2)

/-- The loop of `HuffTree(alpha)`: while two nodes are left, replace the two least by their parent, the first popped
on the left, with the next sequence number (42_huffman.md R201). `fuel` counts the rounds; a queue of n nodes takes
n − 1. -/
def mergeQueue : Nat → Nat → QueueNode → List QueueNode → HuffTree
  | 0, _, a, _ => a.tree
  | _ + 1, _, a, [] => a.tree
  | fuel + 1, next, a, b :: q =>
    let r := popLeast a (b :: q)
    match r.2 with
    | [] => r.1.tree
    | c :: q' =>
      let r2 := popLeast c q'
      mergeQueue fuel (next + 1)
        { freq := r.1.freq + r2.1.freq, seq := next, tree := .node r.1.tree r2.1.tree } r2.2

/-- The leaves of the queue, numbered in the alphabet's stored order (42_huffman.md R201). -/
def leafQueue : Nat → List SymFreq → List QueueNode
  | _, [] => []
  | i, x :: xs => { freq := x.freq, seq := i, tree := .leaf x.sym } :: leafQueue (i + 1) xs

/-- `HuffTree(alpha)` for an alphabet of a first entry and more (42_huffman.md R201). -/
def huffTree (x : SymFreq) (xs : List SymFreq) : HuffTree :=
  mergeQueue (xs.length + 1) (xs.length + 1) { freq := x.freq, seq := 0, tree := .leaf x.sym } (leafQueue 1 xs)

/-- Every leaf of a tree with its path from the root, 0 for left and 1 for right (42_huffman.md R202). -/
def HuffTree.paths : HuffTree → List (Byte × List Bool)
  | .leaf sym => [(sym, [])]
  | .node l r => l.paths.map (fun p => (p.1, false :: p.2)) ++ r.paths.map (fun p => (p.1, true :: p.2))

/-- `HuffCodes(alpha)`: no code, the one code "0", or the paths of the tree (42_huffman.md R202). -/
def huffCodes : List SymFreq → List (Byte × List Bool)
  | [] => []
  | [x] => [(x.sym, [false])]
  | x :: y :: xs => (huffTree x (y :: xs)).paths

/-- The code of a symbol (42_huffman.md R202); a symbol of the input always has one. -/
def codeOf (codes : List (Byte × List Bool)) (b : Byte) : List Bool := (codes.lookup b).getD []

/-- `HuffBits(in)` (42_huffman.md R203). -/
def huffBits (input : List Byte) : List Bool :=
  let codes := huffCodes (alphabet input)
  input.flatMap (codeOf codes)

/-! ## The encoder (42_huffman.md R205) -/

/-- The stored table: symbol and little-endian frequency of each entry (30_encoding.md R112). -/
def tableBytes (alpha : List SymFreq) : List Byte := alpha.flatMap (fun x => x.sym :: leBytes 4 x.freq)

/-- The body of a Huffman artifact: LimitExceeded where a count does not fit its field (42_huffman.md R205). -/
def huffEncode (input : List Byte) : Except Status (List Byte) :=
  let alpha := alphabet input
  if alpha.any (fun x => decide (2 ^ 32 ≤ x.freq)) then .error .limitExceeded
  else
    let bits := huffBits input
    if 2 ^ 32 ≤ bits.length then .error .limitExceeded
    else .ok (leBytes 4 alpha.length ++ tableBytes alpha ++ leBytes 4 bits.length ++ packBits bits)

/-! ## The decoder (42_huffman.md R204, R206) -/

/-- `HuffWalk`: one step for each of the bits; a symbol past the declared size and a last code that is cut off are
CorruptInput (42_huffman.md R204). A child of a leaf does not exist; the walk never asks for one, since every internal
node has two children (R201). -/
def huffWalk (root : HuffTree) (orig : Nat) : HuffTree → List Byte → List Bool → Except Status (List Byte)
  | node, out, [] => if node = root then .ok out else .error .corruptInput
  | .leaf _, _, _ :: _ => .error .corruptInput
  | .node l r, out, b :: bits =>
    match if b then r else l with
    | .leaf sym => if out.length = orig then .error .corruptInput else huffWalk root orig root (out ++ [sym]) bits
    | .node l' r' => huffWalk root orig (.node l' r') out bits

/-- The symbols of the bits `0 … T−1` of a stream under an alphabet: nothing, one symbol T times, or the tree walk
(42_huffman.md R206). -/
def huffSymbols (alpha : List SymFreq) (stream : List Byte) (total orig : Nat) : Except Status (List Byte) :=
  match alpha with
  | [] => if total ≠ 0 then .error .corruptInput else .ok []
  | [x] => if orig < total then .error .corruptInput else .ok (List.replicate total x.sym)
  | x :: y :: xs =>
    huffWalk (huffTree x (y :: xs)) orig (huffTree x (y :: xs)) [] ((List.range total).map (streamBit stream))

/-- The stored table from offset `p` (42_huffman.md R206). -/
def readTable (input : List Byte) (p n : Nat) : List SymFreq :=
  (List.range n).map (fun i => { sym := input.getD (p + 5 * i) 0, freq := rd32 input (p + 5 * i + 1) })

/-- The checks on a stored table, in their order: a repeated symbol, a zero frequency, frequencies that do not sum to
the declared size (42_huffman.md R206). -/
def tableOK (alpha : List SymFreq) (orig : Nat) : Bool :=
  decide (alpha.map (·.sym)).Nodup && alpha.all (fun x => x.freq != 0) && (alpha.map (·.freq)).sum == orig

/-- The decoding of a Huffman artifact of declared size `orig`, from its offset 272 (42_huffman.md R206). -/
def huffDecode (orig : Nat) (input : List Byte) : Except Status (List Byte) :=
  let len := input.length
  let p := Config.hdrLen
  if len < p + 4 then .error .corruptInput
  else
    let n := rd32 input p
    if 256 < n then .error .corruptInput
    else if len < p + 4 + 5 * n then .error .corruptInput
    else
      let alpha := readTable input (p + 4) n
      if !tableOK alpha orig then .error .corruptInput
      else if len < p + 4 + 5 * n + 4 then .error .corruptInput
      else
        let total := rd32 input (p + 4 + 5 * n)
        if len < p + 4 + 5 * n + 4 + (total + 7) / 8 then .error .corruptInput
        else huffSymbols alpha (slice input (p + 4 + 5 * n + 4) ((total + 7) / 8)) total orig

/-! ## The commands -/

/-- The pseudocode of HUF_ENC (42_huffman.md R205). -/
def hufEncBody (s : State) : Except Status Output :=
  andThen (huffEncode s.source) (fun body => fitOutput s.cap (s.artifactHeader 0x00000000 ++ body))

/-- The pseudocode of HUF_DEC (42_huffman.md R206). -/
def hufDecBody (s : State) : Except Status Output :=
  s.withArtifact (fun orig input => andThen (huffDecode orig input) (exactSize orig))

/-- HUF_ENC (42_huffman.md R205). -/
def execHufEnc (s : State) : Host.Outcome State Fault Refusal := runCommand .hufEnc hufEncBody s

/-- HUF_DEC (42_huffman.md R206). -/
def execHufDec (s : State) : Host.Outcome State Fault Refusal := runCommand .hufDec hufDecBody s

end Sys2Proof.Machine
end

