-- ==== Sys2Proof/Machine/Lzw.lean ====
section
/-! DEFINITION. The LZW encoder and decoder (43_lzw.md). -/

namespace Sys2Proof.Machine

/-- A dictionary: entry c is the byte string of code c (43_lzw.md R240). -/
abbrev LzwDict := List (List Byte)

/-- `D0`: the 256 single-byte entries (43_lzw.md R240). -/
def lzwInit : LzwDict := (List.range 256).map (fun n => [BitVec.ofNat 8 n])

/-- Add an entry, unless the dictionary is frozen at 4096 entries (43_lzw.md R240). -/
def LzwDict.add (d : LzwDict) (w : List Byte) : LzwDict := if d.length < Config.lzwCap then d ++ [w] else d

/-- The loop of `LzwEncode`: dictionary, current match and remaining input (43_lzw.md R241). -/
def lzwEncodeFrom : LzwDict → List Byte → List Byte → List Nat
  | d, w, [] => if w = [] then [] else [d.idxOf w]
  | d, w, k :: rest =>
    if d.contains (w ++ [k]) then lzwEncodeFrom d (w ++ [k]) rest
    else d.idxOf w :: lzwEncodeFrom (LzwDict.add d (w ++ [k])) [k] rest

/-- `LzwEncode(in)` (43_lzw.md R241). -/
def lzwEncode (input : List Byte) : List Nat := lzwEncodeFrom lzwInit [] input

/-- The entry a code names on decode: an existing entry; or, for a code equal to the size of a dictionary that is not
full, the synthesized `prev ++ [prev[0]]` (43_lzw.md R242). -/
def lzwEntry (d : LzwDict) (prev : List Byte) (c : Nat) : Option (List Byte) :=
  if c < d.length then some (d.getD c [])
  else if c = d.length ∧ d.length < Config.lzwCap then some (prev ++ prev.take 1)
  else none

/-- The loop of `LzwDecode`: dictionary, previous entry, output so far and remaining codes (43_lzw.md R242). -/
def lzwDecodeFrom (orig : Nat) : LzwDict → List Byte → List Byte → List Nat → Except Status (List Byte)
  | _, _, out, [] => .ok out
  | d, prev, out, c :: codes =>
    match lzwEntry d prev c with
    | none => .error .corruptInput
    | some e =>
      if orig < (out ++ e).length then .error .corruptInput
      else lzwDecodeFrom orig (LzwDict.add d (prev ++ e.take 1)) e (out ++ e) codes

/-- `LzwDecode(codes, orig)` (43_lzw.md R242). -/
def lzwDecode (codes : List Nat) (orig : Nat) : Except Status (List Byte) :=
  match codes with
  | [] => .ok []
  | c0 :: rest =>
    if 256 ≤ c0 then .error .corruptInput
    else
      let prev := lzwInit.getD c0 []
      if orig < prev.length then .error .corruptInput else lzwDecodeFrom orig lzwInit prev prev rest

/-- The body of an LZW artifact: code count and codes (30_encoding.md R114, 43_lzw.md R243). -/
def lzwBody (codes : List Nat) : List Byte := leBytes 4 codes.length ++ codes.flatMap (leBytes 2)

/-- The decoding of an LZW artifact of declared size `orig`, from its offset 272 (43_lzw.md R244). -/
def lzwUnpack (orig : Nat) (input : List Byte) : Except Status (List Byte) :=
  let len := input.length
  if len < 276 then .error .corruptInput
  else
    let m := rd32 input 272
    if len < 276 + 2 * m then .error .corruptInput
    else lzwDecode ((List.range m).map (fun j => rd16 input (276 + 2 * j))) orig

/-- The pseudocode of LZW_ENC (43_lzw.md R243). -/
def lzwEncBody (s : State) : Except Status Output :=
  let codes := lzwEncode s.source
  if 2 ^ 32 ≤ codes.length then .error .limitExceeded
  else fitOutput s.cap (s.artifactHeader 0x00000000 ++ lzwBody codes)

/-- The pseudocode of LZW_DEC (43_lzw.md R244). -/
def lzwDecBody (s : State) : Except Status Output :=
  s.withArtifact (fun orig input => andThen (lzwUnpack orig input) (exactSize orig))

/-- LZW_ENC (43_lzw.md R243). -/
def execLzwEnc (s : State) : Host.Outcome State Fault Refusal := runCommand .lzwEnc lzwEncBody s

/-- LZW_DEC (43_lzw.md R244). -/
def execLzwDec (s : State) : Host.Outcome State Fault Refusal := runCommand .lzwDec lzwDecBody s

end Sys2Proof.Machine
end

