-- ==== Sys2Proof/Machine/Rle.lean ====
section
/-! DEFINITION. The RLE encoder and decoder (44_rle.md). -/

namespace Sys2Proof.Machine

/-- A run: its length and its byte (44_rle.md R270). -/
structure Run where
  len : Nat
  byte : Byte
deriving DecidableEq, Repr

/-- The runs of a byte string whose first `n` bytes, all `b`, have been counted: a run ends at another byte or at
RUN_MAX (44_rle.md R270). -/
def rleRunsFrom (n : Nat) (b : Byte) : List Byte → List Run
  | [] => [{ len := n, byte := b }]
  | x :: xs =>
    if x = b ∧ n < Config.runMax then rleRunsFrom (n + 1) b xs
    else { len := n, byte := b } :: rleRunsFrom 1 x xs

/-- `RleRuns(in)` (44_rle.md R270). -/
def rleRuns : List Byte → List Run
  | [] => []
  | x :: xs => rleRunsFrom 1 x xs

/-- The body of an RLE artifact: run length and byte of each run (30_encoding.md R115). -/
def rleBody (runs : List Run) : List Byte := runs.flatMap (fun r => leBytes 4 r.len ++ [r.byte])

/-- The loop of RLE_DEC over the bytes after the header, with the output so far (44_rle.md R272). -/
def rleDecodeFrom (orig : Nat) : List Byte → List Byte → Except Status (List Byte)
  | out, b0 :: b1 :: b2 :: b3 :: b :: rest =>
    if out.length < orig then
      let r := leNat [b0, b1, b2, b3]
      if r = 0 then .error .corruptInput
      else if orig < out.length + r then .error .corruptInput
      else rleDecodeFrom orig (out ++ List.replicate r b) rest
    else .ok out
  | out, [] => if out.length < orig then .error .sizeMismatch else .ok out
  | out, _ => if out.length < orig then .error .corruptInput else .ok out

/-- The pseudocode of RLE_ENC (44_rle.md R271). -/
def rleEncBody (s : State) : Except Status Output :=
  fitOutput s.cap (s.artifactHeader 0x00000000 ++ rleBody (rleRuns s.source))

/-- The pseudocode of RLE_DEC (44_rle.md R272). -/
def rleDecBody (s : State) : Except Status Output :=
  s.withArtifact (fun orig input =>
    andThen (rleDecodeFrom orig [] (input.drop Config.hdrLen)) (fun out => .ok (Output.ofBytes out)))

/-- RLE_ENC (44_rle.md R271). -/
def execRleEnc (s : State) : Host.Outcome State Fault Refusal := runCommand .rleEnc rleEncBody s

/-- RLE_DEC (44_rle.md R272). -/
def execRleDec (s : State) : Host.Outcome State Fault Refusal := runCommand .rleDec rleDecBody s

end Sys2Proof.Machine
end

