-- ==== Sys2Proof/Machine/Dispatch.lean ====
section
/-! DEFINITION. The execution step of each command by the acting engine (40_engine_common.md R153, R154): one arm per
row of spec/opcode_table.json. -/

namespace Sys2Proof.Machine

def exec (i : Instr) (s : State) : Host.Outcome State Fault Refusal :=
  match i with
  | .nop => Sys2Proof.Machine.execNop s
  | .hdrWr => Sys2Proof.Machine.execHdrWr s
  | .hdrRd => Sys2Proof.Machine.execHdrRd s
  | .hufEnc => Sys2Proof.Machine.execHufEnc s
  | .hufDec => Sys2Proof.Machine.execHufDec s
  | .lzwEnc => Sys2Proof.Machine.execLzwEnc s
  | .lzwDec => Sys2Proof.Machine.execLzwDec s
  | .rleEnc => Sys2Proof.Machine.execRleEnc s
  | .rleDec => Sys2Proof.Machine.execRleDec s
  | .aesKeyexp => Sys2Proof.Machine.execAesKeyexp s
  | .aesEnc => Sys2Proof.Machine.execAesEnc s
  | .aesDec => Sys2Proof.Machine.execAesDec s
  | .aesRawEnc => Sys2Proof.Machine.execAesRawEnc s
  | .aesRawDec => Sys2Proof.Machine.execAesRawDec s

end Sys2Proof.Machine
end

