-- ==== Sys2Proof/Machine/Registers.lean ====
section
/-! DEFINITION. The register block as the host sees it: the map of 10_state.md R32, reads, and writes by phase
(R33, R34, R40, R46, R47). -/

namespace Sys2Proof.Machine

/-- The registers of the block (10_state.md R32). -/
inductive Reg where
  | ctrl
  | status
  | cmd
  | srcAddrLo
  | srcAddrHi
  | srcLenLo
  | srcLenHi
  | dstAddrLo
  | dstAddrHi
  | dstCapLo
  | dstCapHi
  | nameAddrLo
  | nameAddrHi
  | nameLen
  | hflagsIn
  | hsizeInLo
  | hsizeInHi
  | outLenLo
  | outLenHi
  | hdrSizeLo
  | hdrSizeHi
  | hdrFlags
  | keyStatus
  | key (i : Fin 8)
  /-- Offsets 0x00C and 0x080 to 0x0FC (R47). -/
  | reserved
deriving DecidableEq, Repr

/-- The map of 10_state.md R32, one entry for each offset 0, 4, 8, … -/
def regMap : List Reg :=
  [.ctrl, .status, .cmd, .reserved, .srcAddrLo, .srcAddrHi, .srcLenLo, .srcLenHi,
   .dstAddrLo, .dstAddrHi, .dstCapLo, .dstCapHi, .nameAddrLo, .nameAddrHi, .nameLen, .hflagsIn,
   .hsizeInLo, .hsizeInHi, .outLenLo, .outLenHi, .hdrSizeLo, .hdrSizeHi, .hdrFlags, .keyStatus,
   .key 0, .key 1, .key 2, .key 3, .key 4, .key 5, .key 6, .key 7]

/-- The register at an offset that is a multiple of 4; past the map every offset is reserved (10_state.md R32, R47). -/
def regAt (off : Nat) : Reg := regMap.getD (off / 4) .reserved

/-- What the host reads (10_state.md R32): WO registers and reserved offsets read 0 (R46, R47). Reads have no side
effect (20_memory.md R74). -/
def Engine.readReg (e : Engine) : Reg → Word
  | .ctrl => e.ctrlWord
  | .status => e.statusWord
  | .cmd => e.regs.cmd
  | .srcAddrLo => e.regs.srcAddr.lo
  | .srcAddrHi => e.regs.srcAddr.hi
  | .srcLenLo => e.regs.srcLen.lo
  | .srcLenHi => e.regs.srcLen.hi
  | .dstAddrLo => e.regs.dstAddr.lo
  | .dstAddrHi => e.regs.dstAddr.hi
  | .dstCapLo => e.regs.dstCap.lo
  | .dstCapHi => e.regs.dstCap.hi
  | .nameAddrLo => e.regs.nameAddr.lo
  | .nameAddrHi => e.regs.nameAddr.hi
  | .nameLen => e.regs.nameLen
  | .hflagsIn => e.regs.hflags
  | .hsizeInLo => e.regs.hsize.lo
  | .hsizeInHi => e.regs.hsize.hi
  | .outLenLo => e.outLen.lo
  | .outLenHi => e.outLen.hi
  | .hdrSizeLo => e.hdrSize.lo
  | .hdrSizeHi => e.hdrSize.hi
  | .hdrFlags => e.hdrFlags
  | .keyStatus => e.keyStatusWord
  | .key _ => 0
  | .reserved => 0

/-- The operand registers after a write; a register that is no operand register changes none (10_state.md R40). -/
def OperandRegs.write (r : OperandRegs) (reg : Reg) (v : Word) : OperandRegs :=
  match reg with
  | .cmd => { r with cmd := v }
  | .srcAddrLo => { r with srcAddr := { r.srcAddr with lo := v } }
  | .srcAddrHi => { r with srcAddr := { r.srcAddr with hi := v } }
  | .srcLenLo => { r with srcLen := { r.srcLen with lo := v } }
  | .srcLenHi => { r with srcLen := { r.srcLen with hi := v } }
  | .dstAddrLo => { r with dstAddr := { r.dstAddr with lo := v } }
  | .dstAddrHi => { r with dstAddr := { r.dstAddr with hi := v } }
  | .dstCapLo => { r with dstCap := { r.dstCap with lo := v } }
  | .dstCapHi => { r with dstCap := { r.dstCap with hi := v } }
  | .nameAddrLo => { r with nameAddr := { r.nameAddr with lo := v } }
  | .nameAddrHi => { r with nameAddr := { r.nameAddr with hi := v } }
  | .nameLen => { r with nameLen := v }
  | .hflagsIn => { r with hflags := v }
  | .hsizeInLo => { r with hsize := { r.hsize with lo := v } }
  | .hsizeInHi => { r with hsize := { r.hsize with hi := v } }
  | .key i => { r with keys := r.keys.set i v }
  | .ctrl | .status | .outLenLo | .outLenHi | .hdrSizeLo | .hdrSizeHi | .hdrFlags | .keyStatus | .reserved => r

/-- Whether a register is one of KEY0 to KEY7. -/
def Reg.isKey : Reg → Bool
  | .key _ => true
  | .ctrl | .status | .cmd | .srcAddrLo | .srcAddrHi | .srcLenLo | .srcLenHi | .dstAddrLo | .dstAddrHi => false
  | .dstCapLo | .dstCapHi | .nameAddrLo | .nameAddrHi | .nameLen | .hflagsIn | .hsizeInLo | .hsizeInHi => false
  | .outLenLo | .outLenHi | .hdrSizeLo | .hdrSizeHi | .hdrFlags | .keyStatus | .reserved => false

/-- A host write to a register other than CTRL. While the engine is RUNNING it is ignored (10_state.md R40). While
IDLE it stores an operand register (R40), a write of 1 to STATUS bit 1 clears DONE (R34, 40_engine_common.md R158),
a KEY write clears KEY_VALID (R45, R46), and a write to a read-only or reserved register is ignored (R32, R47). -/
def Engine.writeReg (e : Engine) (reg : Reg) (v : Word) : Engine :=
  if e.busy then e
  else
    { e with
      regs := e.regs.write reg v
      done := if reg = .status ∧ v.getLsbD 1 = true then false else e.done
      keyValid := if reg.isKey then false else e.keyValid }

/-- A host write to a register of engine `e`. A write of CTRL stores IRQ_EN in both phases, and with bit 0 set it is a
START, accepted in phase IDLE only (10_state.md R33; 40_engine_common.md R151, R152). -/
def State.writeRegister (s : State) (e : Nat) (reg : Reg) (v : Word) : State :=
  if reg = .ctrl then
    if v.getLsbD 0 && !(s.engines.getD e Engine.reset).busy then s.acceptStart e (v.getLsbD 1)
    else s.mapEngine e (fun f => { f with irqEn := v.getLsbD 1 })
  else s.mapEngine e (fun f => f.writeReg reg v)

/-- The engine and the offset of a bus address, if it lies in a register block (10_state.md R32). -/
def State.blockOf (s : State) (addr : Nat) : Option (Nat × Nat) :=
  if addr < s.platform.base then none
  else
    let d := addr - s.platform.base
    if d / Config.engineStride < s.engines.length then some (d / Config.engineStride, d % Config.engineStride) else none

/-- The bus address of offset `off` in engine `e`'s block (10_state.md R32). -/
def State.regAddr (s : State) (e off : Nat) : Nat := s.platform.base + e * Config.engineStride + off

end Sys2Proof.Machine
end

