-- ==== Sys2Proof/Machine/HostEvents.lean ====
section
/-! DEFINITION. The events of the host and the platform: register accesses (10_state.md R32), memory accesses
(20_memory.md R70, R79) and resets (70_reset_and_hazards.md R390 to R392). -/

namespace Sys2Proof.Machine

/-- A register access, once its address is found to be in a block: refused unless 32 bits wide at an offset that is a
multiple of 4 (10_state.md R32; 93_implementation_defined.md row 5). -/
def State.onRegister (s : State) (addr width : Nat) (k : Nat → Reg → State) : Host.Outcome State Fault Refusal :=
  match s.blockOf addr with
  | none => .refused (.noRegisterBlock addr)
  | some (e, off) =>
    if width = 4 ∧ off % 4 = 0 then .next (k e (regAt off)) else .refused (.registerAccess addr width)

/-- The host writes a register (10_state.md R32). -/
def hostRegWrite (addr width : Nat) (v : Word) (s : State) : Host.Outcome State Fault Refusal :=
  s.onRegister addr width (fun e reg => s.writeRegister e reg v)

/-- The host reads a register; the value is what the model keeps as the host's data (10_state.md R32,
20_memory.md R74). -/
def hostRegRead (addr width : Nat) (s : State) : Host.Outcome State Fault Refusal :=
  s.onRegister addr width (fun e reg => { s with hostData := .word ((s.engines.getD e Engine.reset).readReg reg) })

/-- Whether the platform backs an address of the memory (20_memory.md R70). -/
def State.memBacked (s : State) (a : Nat) : Bool := decide (a < 2 ^ s.platform.addrW) && memValid s.platform a

/-- The host writes a byte of memory. A write to a byte of a running command's source, name or destination buffer
races on that command (20_memory.md R79). -/
def hostMemWrite (a : Nat) (b : Byte) (s : State) : Host.Outcome State Fault Refusal :=
  if s.memBacked a then
    .next ((s.markRaced (fun r => (r.reads ++ r.writes).any (fun x => covers x a))).writeBytes a [b])
  else .fault (.hostMemoryAbsent a)

/-- The host reads a byte of memory. A read of a byte of a running command's destination races on that command and
returns any value; every other read returns the memory's value (20_memory.md R79; log entry 7). -/
def hostMemRead (a : Nat) (s : State) : Host.Outcome State Fault Refusal :=
  if s.memBacked a then
    if s.engines.any (fun e => e.busy && e.latched.writes.any (fun x => covers x a)) then
      .next { s.markRaced (fun r => r.writes.any (fun x => covers x a)) with
        hostData := .byte (Config.freeHostRead s.draws), draws := s.draws + 1 }
    else .next { s with hostData := .byte (s.readByte a) }
  else .fault (.hostMemoryAbsent a)

/-- The unspecified round-key store after a reset, as a draw of free bytes (10_state.md R53; log entry 3). -/
def freeRoundKeys (d : Nat) : RoundKeys :=
  Vector.ofFn (fun i : Fin 60 =>
    { b0 := Config.freeRoundKeyByte d i 0
      b1 := Config.freeRoundKeyByte d i 1
      b2 := Config.freeRoundKeyByte d i 2
      b3 := Config.freeRoundKeyByte d i 3 })

/-- The destination regions of an engine's running command: none for an IDLE engine or a command without one
(70_reset_and_hazards.md R391). -/
def Engine.abandoned (e : Engine) : List Config.Region := if e.busy then e.latched.writes else []

/-- Reset of engine `e` (70_reset_and_hazards.md R390): its state takes the values of 10_state.md R53, a running
command is abandoned and its destination region becomes any value (R391), no other byte of memory and no other engine
changes (R391, R392). -/
def platformReset (e : Nat) (s : State) : Host.Outcome State Fault Refusal :=
  match s.engines[e]? with
  | none => .refused (.noSuchEngine e)
  | some f =>
    let s1 := f.abandoned.foldl (fun t r => t.openRegion r) s
    .next { s1.mapEngine e (fun _ => { Engine.reset with rk := freeRoundKeys s1.draws }) with draws := s1.draws + 1 }

end Sys2Proof.Machine
end

