-- ==== Sys2Proof/Machine/Step.lean ====
section
/-! DEFINITION. One step of the machine: the next atomic event of the interleaving (60_exceptions.md R367). -/

namespace Sys2Proof.Machine

/-- The execution step of engine `e`: its latched command word is decoded, and the command it selects runs; an invalid
word completes with UnsupportedAlgorithm (40_engine_common.md R153, R154). An IDLE engine has no execution step, so
nothing happens (R150; log entry 13). -/
def runEngine (e : Nat) (s : State) : Host.Outcome State Fault Refusal :=
  match s.engines[e]? with
  | none => .refused (.noSuchEngine e)
  | some f =>
    match f.phase with
    | .idle => .next s
    | .running =>
      match decode f.latched.cmd with
      | .ok i => exec i { s with active := e }
      | .error _ => execInvalid { s with active := e }

/-- One event (60_exceptions.md R367). -/
def onEvent (ev : Event) (s : State) : Host.Outcome State Fault Refusal :=
  match ev with
  | .regWrite addr width v => hostRegWrite addr width v s
  | .regRead addr width => hostRegRead addr width s
  | .memWrite a b => hostMemWrite a b s
  | .memRead a => hostMemRead a s
  | .run e => runEngine e s
  | .reset e => platformReset e s

/-- One step: the next event of the agenda. With an empty agenda the RUNNING engine of the lowest number takes its
execution step, which is always enabled (40_engine_common.md R154, R161); with every engine IDLE nothing happens, for an
IDLE engine simply waits (60_exceptions.md R375; log entry 8). -/
def step (s : State) : Host.Outcome State Fault Refusal :=
  match s.agenda with
  | ev :: rest => onEvent ev { s with agenda := rest }
  | [] =>
    match s.engines.findIdx? Engine.busy with
    | some e => runEngine e s
    | none => .next s

/-- The state in which engine 0 is about to take its execution step with the command word `w`: its CMD register holds
the word, a START has been accepted, and its execution step is the next event. This stands for the host's writes of
CMD and CTRL (30_encoding.md R106; log entry 9). A word has no bits above its 32 (30_encoding.md R103). -/
def State.withFetchWord (s : State) (nbits w : Nat) : State :=
  let e := s.engines.headD Engine.reset
  let e' := { e with regs := { e.regs with cmd := BitVec.ofNat 32 (w % 2 ^ nbits) } }
  { s with engines := e'.start e'.irqEn false :: s.engines.tail, agenda := .run 0 :: s.agenda }

end Sys2Proof.Machine
end

