-- ==== Sys2Proof/Safety.lean ====
section
/-! DEFINITION. The terms in which claims about the machine are made: what a command may rely on before it runs, what
its completion leaves, and the invariants of every reachable state. -/

namespace Sys2Proof.Machine

/-! ## Before a command -/

/-- The conditions under which a command gets past the pre-checks (40_engine_common.md R155) and its results are
those of its own rule (no race, 20_memory.md R79): conditions on the state and the operands alone. -/
structure State.Ready (s : State) (i : Instr) : Prop where
  /-- The acting engine exists. -/
  acting : s.active < s.engines.length
  /-- No other agent has raced on the command's buffers (20_memory.md R79). -/
  quiet : s.acting.raced = false
  /-- KEY_VALID, where the command needs it (R155 step 2). -/
  key : needsKey i = true → s.acting.keyValid = true
  /-- The ranges of the buffers the command uses (R155 step 3). -/
  source : usesSource i = true → rangeOK s.platform s.ops.source = true
  name : usesName i = true → rangeOK s.platform s.ops.name = true
  dest : usesDest i = true → rangeOK s.platform s.ops.dest = true
  /-- The overlaps (R155 step 4). -/
  sourceApart : usesSource i = true → usesDest i = true → overlaps s.ops.source s.ops.dest = false
  nameApart : usesName i = true → usesDest i = true → overlaps s.ops.name s.ops.dest = false

/-! ## After a command -/

/-- The completion of 40_engine_common.md R156 on the acting engine, and that its operand registers and IRQ_EN keep
their values (60_exceptions.md R362, R364). -/
structure State.Posted (s t : State) (err : Status) (outLen : Nat) : Prop where
  phase : t.acting.phase = .idle
  done : t.acting.done = true
  err : t.acting.err = err
  outLen : t.acting.outLen.value = outLen
  regs : t.acting.regs = s.acting.regs
  irqEn : t.acting.irqEn = s.acting.irqEn

/-- HDR_SIZE and HDR_FLAGS of the acting engine are unchanged (10_state.md R44). -/
def State.HeaderKept (s t : State) : Prop :=
  t.acting.hdrSize = s.acting.hdrSize ∧ t.acting.hdrFlags = s.acting.hdrFlags

/-- KEY_VALID and RK of the acting engine are unchanged (10_state.md R45, R48). -/
def State.KeyKept (s t : State) : Prop := t.acting.keyValid = s.acting.keyValid ∧ t.acting.rk = s.acting.rk

/-- Nothing outside the acting engine and memory changes: not another engine, not the platform, not the events to come
(60_exceptions.md R372, 40_engine_common.md R156). -/
structure State.OthersKept (s t : State) : Prop where
  platform : t.platform = s.platform
  count : t.engines.length = s.engines.length
  active : t.active = s.active
  others : ∀ k, k ≠ s.active → t.engines[k]? = s.engines[k]?
  agenda : t.agenda = s.agenda
  hostData : t.hostData = s.hostData

/-- Every byte of memory reads as before. -/
def State.MemoryKept (s t : State) : Prop := ∀ a, t.readByte a = s.readByte a

/-- Every byte of memory outside a region reads as before. -/
def State.MemoryKeptOutside (s t : State) (r : Config.Region) : Prop :=
  ∀ a, covers r a = false → t.readByte a = s.readByte a

/-- A byte string now stands at an address, and every other byte of memory reads as before (20_memory.md R77). -/
def State.Wrote (s t : State) (a : Nat) (bs : List Byte) : Prop :=
  t.readBytes a bs.length = bs ∧ s.MemoryKeptOutside t { start := a, len := bs.length }

/-- A successful command that writes `out` at `dst` and changes no register besides STATUS and OUT_LEN. -/
def State.WritesOutput (s t : State) (out : List Byte) : Prop :=
  s.Posted t .ok out.length ∧ s.HeaderKept t ∧ s.KeyKept t ∧ s.OthersKept t ∧ s.Wrote t s.dst out

/-- A command that ends with an error before it has accessed memory: only STATUS and OUT_LEN change
(40_engine_common.md R155 to R157). -/
def State.FailsClean (s t : State) (err : Status) : Prop :=
  s.Posted t err 0 ∧ s.HeaderKept t ∧ s.KeyKept t ∧ s.OthersKept t ∧ s.MemoryKept t

/-- A command that ends with an error of its own pseudocode: only STATUS and OUT_LEN change, and memory only inside
`[dst, dst + cap)` (60_exceptions.md R364). -/
def State.FailsInBody (s t : State) (err : Status) : Prop :=
  s.Posted t err 0 ∧ s.HeaderKept t ∧ s.KeyKept t ∧ s.OthersKept t ∧ s.MemoryKeptOutside t s.ops.dest

/-- The status codes besides OK that a valid command can end with (60_exceptions.md R361). -/
def causes : Instr → List Status
  | .nop => []
  | .hdrWr => [.ioFailure]
  | .hdrRd => [.corruptInput, .ioFailure]
  | .hufEnc => [.ioFailure, .limitExceeded]
  | .hufDec => [.corruptInput, .sizeMismatch, .ioFailure]
  | .lzwEnc => [.ioFailure, .limitExceeded]
  | .lzwDec => [.corruptInput, .sizeMismatch, .ioFailure]
  | .rleEnc => [.ioFailure]
  | .rleDec => [.corruptInput, .sizeMismatch, .ioFailure]
  | .aesKeyexp => []
  | .aesEnc => [.ioFailure, .missingKey]
  | .aesDec => [.corruptInput, .sizeMismatch, .paddingInvalid, .ioFailure, .missingKey]
  | .aesRawEnc => [.corruptInput, .ioFailure, .missingKey]
  | .aesRawDec => [.corruptInput, .ioFailure, .missingKey]

/-- The OUT_LEN a successful command reports (30_encoding.md R119). -/
def State.outputLength (s : State) : Instr → Nat
  | .nop => 0
  | .hdrWr => 272
  | .hdrRd => 256
  | .hufEnc => 280 + 5 * (alphabet s.source).length + ((huffBits s.source).length + 7) / 8
  | .lzwEnc => 276 + 2 * (lzwEncode s.source).length
  | .rleEnc => 272 + 5 * (rleRuns s.source).length
  | .aesKeyexp => 0
  | .aesEnc => 272 + 16 * (s.slen / 16 + 1)
  | .aesRawEnc => s.slen
  | .aesRawDec => s.slen
  | .hufDec => rd64 s.source 4
  | .lzwDec => rd64 s.source 4
  | .rleDec => rd64 s.source 4
  | .aesDec => rd64 s.source 4

/-! ## What the decoders reject, in terms of an artifact's bytes -/

/-- The alphabet size n a Huffman artifact stores (30_encoding.md R112). -/
def storedCount (src : List Byte) : Nat := rd32 src 272

/-- The n entries of the stored table: a symbol and a 4-byte frequency each (30_encoding.md R112). -/
def storedTable (src : List Byte) : List SymFreq :=
  (List.range (storedCount src)).map (fun i => { sym := src.getD (276 + 5 * i) 0, freq := rd32 src (277 + 5 * i) })

/-- The stored number of code bits T (30_encoding.md R112). -/
def storedTotal (src : List Byte) : Nat := rd32 src (276 + 5 * storedCount src)

/-- The T stored code bits, the most significant bit of each byte first (30_encoding.md R112, R113). -/
def storedBits (src : List Byte) : List Bool :=
  (List.range (storedTotal src)).map (fun k => (src.getD (280 + 5 * storedCount src + k / 8) 0).getLsbD (7 - k % 8))

/-- The bits start with the codes of more than `orig` symbols, or they are the codes of some symbols and then a part of
one more code (42_huffman.md R204). -/
def BitsCorrupt (codes : List (Byte × List Bool)) (orig : Nat) (bits : List Bool) : Prop :=
  ∃ (syms : List Byte) (rest : List Bool), (∀ b ∈ syms, b ∈ codes.map (·.1)) ∧ bits = syms.flatMap (codeOf codes) ++ rest ∧
    (orig < syms.length ∨ (rest ≠ [] ∧ ∃ p ∈ codes, rest ≠ p.2 ∧ rest <+: p.2))

/-- The sources that HUF_DEC rejects with CorruptInput after the header (42_huffman.md R204, R206): a field cut off, n
above 256, a repeated symbol, a zero frequency, frequencies that do not sum to the declared size, bits without an alphabet,
more symbols than declared, a last code cut off. -/
def HuffmanCorrupt (orig : Nat) (src : List Byte) : Prop :=
  src.length < 276 ∨ 256 < storedCount src ∨ src.length < 276 + 5 * storedCount src ∨
    ¬ ((storedTable src).map (·.sym)).Nodup ∨ (∃ x ∈ storedTable src, x.freq = 0) ∨
    ((storedTable src).map (·.freq)).sum ≠ orig ∨ src.length < 280 + 5 * storedCount src ∨
    src.length < 280 + 5 * storedCount src + (storedTotal src + 7) / 8 ∨
    (storedCount src = 0 ∧ storedTotal src ≠ 0) ∨ (storedCount src = 1 ∧ orig < storedTotal src) ∨
    (2 ≤ storedCount src ∧ BitsCorrupt (huffCodes (storedTable src)) orig (storedBits src))

/-- Sources that LZW_DEC rejects with CorruptInput after the header (43_lzw.md R242, R244): a field cut off, a first code
of 256 or more, and a code j ≥ 1 above the size 255 + j that the dictionary then has, or of 4096 or more. -/
def LzwCorrupt (src : List Byte) : Prop :=
  src.length < 276 ∨ src.length < 276 + 2 * rd32 src 272 ∨ (0 < rd32 src 272 ∧ 256 ≤ rd16 src 276) ∨
    ∃ j, 1 ≤ j ∧ j < rd32 src 272 ∧ (255 + j < rd16 src (276 + 2 * j) ∨ 4096 ≤ rd16 src (276 + 2 * j))

/-- After the header the source holds these runs, none empty, as RLE pairs, and then `rest` (30_encoding.md R115). -/
def State.HoldsRuns (s : State) (runs : List Run) (rest : List Byte) : Prop :=
  s.source.drop 272 = runs.flatMap (fun r => leBytes 4 r.len ++ [r.byte]) ++ rest ∧
    ∀ r ∈ runs, 0 < r.len ∧ r.len < 2 ^ 32

/-- A bad pad: its value v, the last byte, is 0 or above 16, or one of the last v bytes is not v (45_aes.md R300). -/
def PaddingBad (q : List Byte) : Prop :=
  q.getLastD 0 = 0 ∨ 16 < (q.getLastD 0).toNat ∨
    ∃ k, k < (q.getLastD 0).toNat ∧ q.getD (q.length - 1 - k) 0 ≠ q.getLastD 0

/-! ## Whose step it is -/

/-- The next step is the execution step of engine `k`: its event is next, or the agenda is empty and it is the RUNNING
engine of the lowest number (log entry 8). -/
def State.NextRuns (s : State) (k : Nat) : Prop :=
  (∃ rest, s.agenda = .run k :: rest) ∨ (s.agenda = [] ∧ s.engines.findIdx? Engine.busy = some k)

/-- The next step is a reset of engine `k`. -/
def State.NextResets (s : State) (k : Nat) : Prop := ∃ rest, s.agenda = .reset k :: rest

/-- The next step is a 32-bit host write of `v` at offset `off` of engine `k`'s register block. -/
def State.NextWrites (s : State) (k off : Nat) (v : Word) : Prop := ∃ rest, s.agenda = .regWrite (s.regAddr k off) 4 v :: rest

/-- An address is in no destination region of an engine's running command. -/
def Engine.LeavesAlone (e : Engine) (a : Nat) : Prop := e.busy = true → ∀ x ∈ e.latched.writes, covers x a = false

/-! ## Invariants -/

/-- While RUNNING, DONE, ERR and OUT_LEN are 0 and the operand registers hold what START latched
(10_state.md R34, R40, R49; 40_engine_common.md R151). -/
def Engine.RunHolds (e : Engine) : Prop :=
  e.busy = true → e.done = false ∧ e.err = .ok ∧ e.outLen = Reg64.zero ∧ e.latched = e.regs

/-- KEY_VALID is 1 only when RK holds the expansion of the current KEY0 to KEY7 (10_state.md R45). -/
def Engine.KeyHolds (e : Engine) : Prop := e.keyValid = true → e.rk = keyExpansion e.regs.keyBytes

/-- Memory lists only addresses that exist and that the platform backs (20_memory.md R70, R76). -/
def State.MemoryInRange (s : State) : Prop := ∀ c ∈ s.mem, s.memBacked c.1 = true

/-- A property of every engine. -/
def State.AllEngines (s : State) (p : Engine → Prop) : Prop := ∀ e ∈ s.engines, p e

end Sys2Proof.Machine
end

