-- ==== Sys2Proof/Certificates/Slice0/Obligations.lean ====
section
/-! DEFINITION. The statements about the model, each a Prop for the provers. -/

open Sys2Proof Sys2Proof.Machine

/-! ## Encoding -/

/-- A command word decodes to a command exactly when it is that command's word (30_encoding.md R100, R101): every bit of
the word counts. -/
def Obligations.WordDecodesOnlyAsItsCommand : Prop := ∀ (w : Word) (i : Instr), decode w = .ok i ↔ w = encode i

/-- One word of each family, written out from the opcode map of 30_encoding.md R101, as the register bus carries it
(10_state.md R32). -/
def Obligations.FamilyWordsDecode : Prop :=
  decodeBytes [0x00, 0x00, 0x00, 0x00] = .ok .nop ∧ decodeBytes [0x02, 0x00, 0x00, 0x00] = .ok .hdrRd ∧
  decodeBytes [0x10, 0x00, 0x00, 0x00] = .ok .hufEnc ∧ decodeBytes [0x21, 0x00, 0x00, 0x00] = .ok .lzwDec ∧
  decodeBytes [0x30, 0x00, 0x00, 0x00] = .ok .rleEnc ∧ decodeBytes [0x43, 0x00, 0x00, 0x00] = .ok .aesRawEnc

/-- A word with a non-zero reserved field or an unassigned opcode is executed as a command that touches no memory and
completes with UnsupportedAlgorithm (30_encoding.md R104). -/
def Obligations.InvalidWordCompletesUnsupported : Prop :=
  ∀ (s : State) (e : Nat) (f : Engine) (rest : List Event),
    s.engines[e]? = some f → f.phase = .running → s.agenda = .run e :: rest →
    ((splitWord f.latched.cmd).rsv ≠ 0 ∨ (splitWord f.latched.cmd).op ∉ assignedOpcodes) →
    ∃ t, step s = .next t ∧ ({ s with agenda := rest, active := e } : State).FailsClean t .unsupportedAlgorithm

/-! ## Steps -/

/-- The execution step of a RUNNING engine whose latched word decodes to `i` is `exec i`, with that engine acting
(40_engine_common.md R153, R154), whether its event is next or, with an empty agenda, it is the RUNNING engine of the
lowest number (the model's choice, log entry 8). -/
def Obligations.StepRunsTheDecodedCommand : Prop :=
  ∀ (s : State) (e : Nat) (f : Engine) (i : Instr),
    s.engines[e]? = some f → f.phase = .running → decode f.latched.cmd = .ok i →
    (∀ rest, s.agenda = .run e :: rest → step s = exec i { s with agenda := rest, active := e }) ∧
    (s.agenda = [] → s.engines.findIdx? Engine.busy = some e → step s = exec i { s with active := e })

/-- No status stops the engine: every command, in every state, completes: its engine is IDLE with DONE set, IRQ_EN is
kept, and the interrupt output is IRQ_EN (60_exceptions.md R366, R376). -/
def Obligations.EveryCommandCompletes : Prop :=
  ∀ (i : Instr) (s : State), s.active < s.engines.length →
    ∃ t, exec i s = .next t ∧ t.acting.phase = .idle ∧ t.acting.done = true ∧ t.acting.irqEn = s.acting.irqEn ∧
      t.acting.irq = s.acting.irqEn

/-- Progress: with no other event to come, as many steps as there are engines complete every accepted command: each
engine that was RUNNING is IDLE with DONE set, and an IDLE engine is as it was (40_engine_common.md R156, R161). That the
model then runs the RUNNING engines is its choice (log entry 8). -/
def Obligations.RunningEnginesAllComplete : Prop :=
  ∀ s : State, s.agenda = [] →
    ∃ t : State, Sys2Proof.core.run s.engines.length s = .next t ∧ t.engines.length = s.engines.length ∧
      ∀ (k : Nat) (f : Engine), s.engines[k]? = some f → ∃ g, t.engines[k]? = some g ∧ g.phase = .idle ∧
        (f.phase = .running → g.done = true) ∧ (f.phase = .idle → g = f)

/-! ## The host's register accesses -/

/-- START acceptance (40_engine_common.md R151): IRQ_EN is stored, the operands are latched, DONE, ERR and OUT_LEN are
cleared, the phase becomes RUNNING, whether DONE was 0 or 1; memory is not accessed, nothing else of the engine changes, and
another engine's registers do not. -/
def Obligations.StartLatchesOperands : Prop :=
  ∀ (s : State) (e : Nat) (f : Engine) (v : Word) (rest : List Event),
    s.engines[e]? = some f → f.phase = .idle → s.agenda = .regWrite (s.regAddr e 0x000) 4 v :: rest →
    v.getLsbD 0 = true →
    ∃ t g, step s = .next t ∧ t.engines[e]? = some g ∧
      g.irqEn = v.getLsbD 1 ∧ g.latched = f.regs ∧ g.done = false ∧ g.err = .ok ∧ g.outLen.value = 0 ∧
      g.phase = .running ∧ g.regs = f.regs ∧ g.hdrSize = f.hdrSize ∧ g.hdrFlags = f.hdrFlags ∧
      g.keyValid = f.keyValid ∧ g.rk = f.rk ∧
      (∀ k, k ≠ e → (t.engines[k]?).map (fun h => { h with raced := false }) =
        (s.engines[k]?).map (fun h => { h with raced := false })) ∧
      t.mem = s.mem ∧ t.openRegions = s.openRegions ∧ t.agenda = rest ∧ t.platform = s.platform

/-- A CTRL write that is no accepted START, one while RUNNING or one with bit 0 = 0, starts nothing and changes no operand
and no status: only its bit 1 is stored into IRQ_EN (40_engine_common.md R152, 10_state.md R33), and the interrupt output
follows at once (60_exceptions.md R366). -/
def Obligations.ControlWriteWithoutStart : Prop :=
  ∀ (s : State) (e : Nat) (f : Engine) (v : Word) (rest : List Event),
    s.engines[e]? = some f → s.agenda = .regWrite (s.regAddr e 0x000) 4 v :: rest →
    (f.phase = .running ∨ v.getLsbD 0 = false) →
    ∃ g, step s = .next { s with agenda := rest, engines := s.engines.set e g } ∧
      g = { f with irqEn := v.getLsbD 1 } ∧ g.irq = (f.done && v.getLsbD 1)

/-- A write to STATUS with bit 1 set in phase IDLE clears DONE, and so the interrupt output, and changes nothing else; a
write without that bit, and any write while RUNNING, has no effect (40_engine_common.md R158). -/
def Obligations.AcknowledgeClearsDone : Prop :=
  ∀ (s : State) (e : Nat) (f : Engine) (v : Word) (rest : List Event),
    s.engines[e]? = some f → s.agenda = .regWrite (s.regAddr e 0x004) 4 v :: rest →
    (f.phase = .idle → v.getLsbD 1 = true →
      ∃ t g, step s = .next t ∧ t = { s with agenda := rest, engines := s.engines.set e g } ∧
        g = { f with done := false } ∧ g.irq = false) ∧
    (f.phase = .idle → v.getLsbD 1 = false → step s = .next { s with agenda := rest }) ∧
    (f.phase = .running → step s = .next { s with agenda := rest })

/-- While RUNNING a host write to any register but CTRL has no effect at all (10_state.md R40), and in either phase a write
to a read-only register or a reserved offset has none (10_state.md R32, R47). -/
def Obligations.IgnoredRegisterWrites : Prop :=
  ∀ (s : State) (e off : Nat) (f : Engine) (v : Word) (rest : List Event),
    s.engines[e]? = some f → off < 0x100 → off % 4 = 0 → s.agenda = .regWrite (s.regAddr e off) 4 v :: rest →
    ((f.phase = .running ∧ off ≠ 0x000) ∨ off ∈ [0x00C, 0x048, 0x04C, 0x050, 0x054, 0x058, 0x05C] ∨ 0x080 ≤ off) →
    step s = .next { s with agenda := rest }

/-- An IDLE write to an operand register changes the operand that 10_state.md R32 places at its offset, and no other; a
read then returns the value written, every other register reads as before, and neither the key, KEY_VALID nor RK changes
(10_state.md R35 to R42, 70_reset_and_hazards.md R394). -/
def Obligations.WrittenOperandReadsBack : Prop :=
  ∀ (s : State) (e off : Nat) (f : Engine) (v : Word) (rest : List Event),
    s.engines[e]? = some f → f.phase = .idle →
    off ∈ [0x008, 0x010, 0x014, 0x018, 0x01C, 0x020, 0x024, 0x028, 0x02C, 0x030, 0x034, 0x038, 0x03C, 0x040, 0x044] →
    s.agenda = .regWrite (s.regAddr e off) 4 v :: rest →
    ∃ t g, step s = .next t ∧ t = { s with agenda := rest, engines := s.engines.set e g } ∧
      g.readReg (regAt off) = v ∧
      (∀ o, o < 0x100 → o % 4 = 0 → o ≠ off → g.readReg (regAt o) = f.readReg (regAt o)) ∧
      g.regs.keys = f.regs.keys ∧ g.keyValid = f.keyValid ∧ g.rk = f.rk ∧ g.latched = f.latched ∧
      (off = 0x008 → g.regs = { f.regs with cmd := v }) ∧
      (off = 0x010 → g.regs = { f.regs with srcAddr := { f.regs.srcAddr with lo := v } }) ∧
      (off = 0x014 → g.regs = { f.regs with srcAddr := { f.regs.srcAddr with hi := v } }) ∧
      (off = 0x018 → g.regs = { f.regs with srcLen := { f.regs.srcLen with lo := v } }) ∧
      (off = 0x01C → g.regs = { f.regs with srcLen := { f.regs.srcLen with hi := v } }) ∧
      (off = 0x020 → g.regs = { f.regs with dstAddr := { f.regs.dstAddr with lo := v } }) ∧
      (off = 0x024 → g.regs = { f.regs with dstAddr := { f.regs.dstAddr with hi := v } }) ∧
      (off = 0x028 → g.regs = { f.regs with dstCap := { f.regs.dstCap with lo := v } }) ∧
      (off = 0x02C → g.regs = { f.regs with dstCap := { f.regs.dstCap with hi := v } }) ∧
      (off = 0x030 → g.regs = { f.regs with nameAddr := { f.regs.nameAddr with lo := v } }) ∧
      (off = 0x034 → g.regs = { f.regs with nameAddr := { f.regs.nameAddr with hi := v } }) ∧
      (off = 0x038 → g.regs = { f.regs with nameLen := v }) ∧
      (off = 0x03C → g.regs = { f.regs with hflags := v }) ∧
      (off = 0x040 → g.regs = { f.regs with hsize := { f.regs.hsize with lo := v } }) ∧
      (off = 0x044 → g.regs = { f.regs with hsize := { f.regs.hsize with hi := v } })

/-- An IDLE write to KEYi stores the word and clears KEY_VALID; RK is left as it was, and KEYi reads 0
(10_state.md R46). -/
def Obligations.KeyWriteClearsKeyValid : Prop :=
  ∀ (s : State) (e : Nat) (i : Fin 8) (f : Engine) (v : Word) (rest : List Event),
    s.engines[e]? = some f → f.phase = .idle → s.agenda = .regWrite (s.regAddr e (0x060 + 4 * i.val)) 4 v :: rest →
    ∃ t g, step s = .next t ∧ t = { s with agenda := rest, engines := s.engines.set e g } ∧
      g = { f with regs := { f.regs with keys := f.regs.keys.set i v }, keyValid := false } ∧
      g.readReg (regAt (0x060 + 4 * i.val)) = 0

/-- A register read changes nothing but what the host has read (20_memory.md R74), and returns: CTRL, IRQ_EN alone; STATUS,
BUSY in bit 0, DONE in bit 1, ERR in bits 11:8 and 0 elsewhere; CMD and the operand registers; OUT_LEN, HDR_SIZE and
HDR_FLAGS; KEY_STATUS, KEY_VALID alone; 0 for KEY0 to KEY7 and the reserved offsets (10_state.md R32 to R47). -/
def Obligations.RegisterReadsShowTheState : Prop :=
  ∀ (s : State) (e off : Nat) (f : Engine) (rest : List Event),
    s.engines[e]? = some f → off < 0x100 → off % 4 = 0 → s.agenda = .regRead (s.regAddr e off) 4 :: rest →
    ∃ v : Word, step s = .next { s with agenda := rest, hostData := .word v } ∧
      (off = 0x000 → v = if f.irqEn then 0x00000002 else 0) ∧
      (off = 0x004 → v.getLsbD 0 = decide (f.phase = .running) ∧ v.getLsbD 1 = f.done ∧
        v.extractLsb' 8 4 = f.err.code ∧ v.extractLsb' 2 6 = 0 ∧ v.extractLsb' 12 20 = 0) ∧
      (off = 0x008 → v = f.regs.cmd) ∧ (off = 0x010 → v = f.regs.srcAddr.lo) ∧
      (off = 0x014 → v = f.regs.srcAddr.hi) ∧ (off = 0x018 → v = f.regs.srcLen.lo) ∧
      (off = 0x01C → v = f.regs.srcLen.hi) ∧ (off = 0x020 → v = f.regs.dstAddr.lo) ∧
      (off = 0x024 → v = f.regs.dstAddr.hi) ∧ (off = 0x028 → v = f.regs.dstCap.lo) ∧
      (off = 0x02C → v = f.regs.dstCap.hi) ∧ (off = 0x030 → v = f.regs.nameAddr.lo) ∧
      (off = 0x034 → v = f.regs.nameAddr.hi) ∧ (off = 0x038 → v = f.regs.nameLen) ∧
      (off = 0x03C → v = f.regs.hflags) ∧ (off = 0x040 → v = f.regs.hsize.lo) ∧
      (off = 0x044 → v = f.regs.hsize.hi) ∧
      (off = 0x048 → v = f.outLen.lo) ∧ (off = 0x04C → v = f.outLen.hi) ∧
      (off = 0x050 → v = f.hdrSize.lo) ∧ (off = 0x054 → v = f.hdrSize.hi) ∧ (off = 0x058 → v = f.hdrFlags) ∧
      (off = 0x05C → v = if f.keyValid then 0x00000001 else 0) ∧
      ((0x060 ≤ off ∨ off = 0x00C) → v = 0)

/-- A register access that is not 32 bits wide at an offset that is a multiple of 4 is refused (10_state.md R32). -/
def Obligations.OddRegisterAccessRefused : Prop :=
  ∀ (s : State) (e off width : Nat) (v : Word) (rest : List Event),
    e < s.engines.length → off < 0x100 → (width ≠ 4 ∨ off % 4 ≠ 0) →
    (s.agenda = .regWrite (s.regAddr e off) width v :: rest →
      step s = .refused (.registerAccess (s.regAddr e off) width)) ∧
    (s.agenda = .regRead (s.regAddr e off) width :: rest →
      step s = .refused (.registerAccess (s.regAddr e off) width))

/-! ## The commands: what each does when its checks pass -/

/-- NOP completes with OK and OUT_LEN 0, and changes no memory, no key and no header register
(40_engine_common.md R159). -/
def Obligations.NopCompletes : Prop :=
  ∀ s : State, s.active < s.engines.length →
    ∃ t, exec .nop s = .next t ∧ s.Posted t .ok 0 ∧ s.HeaderKept t ∧ s.KeyKept t ∧ s.OthersKept t ∧ s.MemoryKept t

/-- HDR_WR writes magic, HSIZE_IN, the name field and HFLAGS_IN at `dst`: 272 bytes (41_container.md R180, R181,
R183). -/
def Obligations.HdrWrWritesHeader : Prop :=
  ∀ s : State, s.Ready .hdrWr → 272 ≤ s.cap →
    ∃ t out, exec .hdrWr s = .next t ∧ s.WritesOutput t out ∧ out.length = 272 ∧
      out = leBytes 4 s.platform.magic.toNat ++ leBytes 8 s.ops.hsize.value ++
        (s.readBytes s.ops.nameAddr.value (min s.ops.nameLen.toNat 255) ++
          List.replicate (256 - min s.ops.nameLen.toNat 255) 0x00) ++ leBytes 4 s.ops.hflags.toNat

/-- HDR_RD on a header of the right magic writes its name field at `dst` and returns its size and flags in HDR_SIZE and
HDR_FLAGS (41_container.md R184). -/
def Obligations.HdrRdReturnsHeader : Prop :=
  ∀ s : State, s.Ready .hdrRd → 272 ≤ s.slen → rd32 s.source 0 = s.platform.magic.toNat → 256 ≤ s.cap →
    ∃ t, exec .hdrRd s = .next t ∧ s.Posted t .ok 256 ∧ s.KeyKept t ∧ s.OthersKept t ∧
      (slice s.source 12 256).length = 256 ∧ s.Wrote t s.dst (slice s.source 12 256) ∧
      t.acting.hdrSize.value = rd64 s.source 4 ∧ t.acting.hdrFlags.toNat = rd32 s.source 268

/-- HUF_ENC writes the header and the Huffman body of its source, when every count fits its field and the artifact fits
(42_huffman.md R205). -/
def Obligations.HufEncWritesArtifact : Prop :=
  ∀ (s : State) (out : List Byte), s.Ready .hufEnc → (∀ x ∈ alphabet s.source, x.freq < 2 ^ 32) →
    (huffBits s.source).length < 2 ^ 32 →
    out = mkHeader s.platform.magic s.slen s.nameField 0x00000000 ++ leBytes 4 (alphabet s.source).length ++
      (alphabet s.source).flatMap (fun x => [x.sym] ++ leBytes 4 x.freq) ++
      leBytes 4 (huffBits s.source).length ++ packBits (huffBits s.source) →
    out.length ≤ s.cap → ∃ t, exec .hufEnc s = .next t ∧ s.WritesOutput t out

/-- LZW_ENC writes the header, the code count and the codes of its source (43_lzw.md R243). -/
def Obligations.LzwEncWritesArtifact : Prop :=
  ∀ (s : State) (out : List Byte), s.Ready .lzwEnc → (lzwEncode s.source).length < 2 ^ 32 →
    out = mkHeader s.platform.magic s.slen s.nameField 0x00000000 ++ leBytes 4 (lzwEncode s.source).length ++
      (lzwEncode s.source).flatMap (leBytes 2) →
    out.length ≤ s.cap → ∃ t, exec .lzwEnc s = .next t ∧ s.WritesOutput t out

/-- RLE_ENC writes the header and one pair for each run of its source (44_rle.md R271). -/
def Obligations.RleEncWritesArtifact : Prop :=
  ∀ (s : State) (out : List Byte), s.Ready .rleEnc →
    out = mkHeader s.platform.magic s.slen s.nameField 0x00000000 ++
      (rleRuns s.source).flatMap (fun r => leBytes 4 r.len ++ [r.byte]) →
    out.length ≤ s.cap → ∃ t, exec .rleEnc s = .next t ∧ s.WritesOutput t out

/-- AES_ENC writes the header with flags 0x00000001 and the ECB encryption of the padded source under RK
(45_aes.md R304). -/
def Obligations.AesEncWritesArtifact : Prop :=
  ∀ (s : State) (out : List Byte), s.Ready .aesEnc →
    out = mkHeader s.platform.magic s.slen s.nameField 0x00000001 ++ ecbEnc s.acting.rk (pkcs7Pad s.source) →
    out.length ≤ s.cap → ∃ t, exec .aesEnc s = .next t ∧ s.WritesOutput t out

/-- The three compression decoders and AES_DEC write what their body decodes to, when the header parses, the declared
size fits and is the length of the output (42_huffman.md R206, 43_lzw.md R244, 44_rle.md R272, 45_aes.md R305). For RLE_DEC
that is the runs up to the declared size, whatever follows them (44_rle.md R272), and for AES_DEC the decryption without its
1 to 16 pad bytes (45_aes.md R300). -/
def Obligations.DecodersWriteOutput : Prop :=
  ∀ (s : State) (h : Header) (out : List Byte),
    parseHeader s.platform.magic s.source s.slen = .ok h → h.orig ≤ s.cap → out.length = h.orig →
    (s.Ready .hufDec → huffDecode h.orig s.source = .ok out → ∃ t, exec .hufDec s = .next t ∧ s.WritesOutput t out) ∧
    (s.Ready .lzwDec → lzwUnpack h.orig s.source = .ok out → ∃ t, exec .lzwDec s = .next t ∧ s.WritesOutput t out) ∧
    (s.Ready .rleDec → rleDecodeFrom h.orig [] (s.source.drop 272) = .ok out →
      ∃ t, exec .rleDec s = .next t ∧ s.WritesOutput t out) ∧
    (s.Ready .aesDec → 272 < s.slen → s.slen % 16 = 0 →
      pkcs7Unpad (ecbDec s.acting.rk (s.source.drop 272)) = .ok out →
      ∃ t, exec .aesDec s = .next t ∧ s.WritesOutput t out) ∧
    (s.Ready .rleDec → ∀ runs rest, s.HoldsRuns runs rest → out = runs.flatMap (fun r => List.replicate r.len r.byte) →
      ∃ t, exec .rleDec s = .next t ∧ s.WritesOutput t out) ∧
    (s.Ready .aesDec → 272 < s.slen → s.slen % 16 = 0 →
      (∃ v, 1 ≤ v ∧ v ≤ 16 ∧
        ecbDec s.acting.rk (s.source.drop 272) = out ++ List.replicate v (BitVec.ofNat 8 v)) →
      ∃ t, exec .aesDec s = .next t ∧ s.WritesOutput t out)

/-- Key byte 4i + j is bits 8j + 7 to 8j of KEYi (10_state.md R46). AES_KEYEXP stores the expansion of the latched key
bytes in RK and sets KEY_VALID; it touches no memory (45_aes.md R303). -/
def Obligations.AesKeyexpExpandsKey : Prop :=
  (∀ r : OperandRegs, r.keyBytes.length = 32 ∧
    ∀ (i : Fin 8) (j : Fin 4), r.keyBytes[4 * i.val + j.val]? = some (r.keys[i].extractLsb' (8 * j.val) 8)) ∧
  ∀ s : State, s.active < s.engines.length →
    ∃ t, exec .aesKeyexp s = .next t ∧ s.Posted t .ok 0 ∧ s.HeaderKept t ∧ s.OthersKept t ∧ s.MemoryKept t ∧
      t.acting.keyValid = true ∧ t.acting.rk = keyExpansion s.ops.keyBytes

/-- AES_RAW_ENC and AES_RAW_DEC write the ECB transform of a source of whole blocks, as long as the source
(45_aes.md R306, R307). -/
def Obligations.AesRawTransformsBlocks : Prop :=
  ∀ s : State, s.slen % 16 = 0 → s.slen ≤ s.cap →
    (s.Ready .aesRawEnc → ∃ t, exec .aesRawEnc s = .next t ∧ (ecbEnc s.acting.rk s.source).length = s.slen ∧
      s.WritesOutput t (ecbEnc s.acting.rk s.source)) ∧
    (s.Ready .aesRawDec → ∃ t, exec .aesRawDec s = .next t ∧ (ecbDec s.acting.rk s.source).length = s.slen ∧
      s.WritesOutput t (ecbDec s.acting.rk s.source))

/-! ## The commands: where they fail -/

/-- An AES data command without a valid key fails with MissingKey before anything else is checked, and touches no memory
(40_engine_common.md R155 step 2, 60_exceptions.md R363). -/
def Obligations.AesWithoutKeyIsMissingKey : Prop :=
  ∀ (s : State) (i : Instr), i ∈ [Instr.aesEnc, .aesDec, .aesRawEnc, .aesRawDec] → s.active < s.engines.length →
    s.acting.raced = false → s.acting.keyValid = false → ∃ t, exec i s = .next t ∧ s.FailsClean t .missingKey

/-- A command one of whose buffers fails the range check or overlaps the destination fails with IoFailure and touches no
memory (40_engine_common.md R155 steps 3 and 4). -/
def Obligations.BadBufferIsIoFailure : Prop :=
  ∀ (s : State) (i : Instr), s.active < s.engines.length → s.acting.raced = false →
    (needsKey i = true → s.acting.keyValid = true) →
    ((usesSource i = true ∧ rangeOK s.platform s.ops.source = false) ∨
      (usesName i = true ∧ rangeOK s.platform s.ops.name = false) ∨
      (usesDest i = true ∧ rangeOK s.platform s.ops.dest = false) ∨
      (usesSource i = true ∧ usesDest i = true ∧ overlaps s.ops.source s.ops.dest = true) ∨
      (usesName i = true ∧ usesDest i = true ∧ overlaps s.ops.name s.ops.dest = true)) →
    ∃ t, exec i s = .next t ∧ s.FailsClean t .ioFailure

/-- HDR_RD and every decoder reject a source that is too short for a header, or whose first four bytes are not the
magic, with CorruptInput, whatever the capacity (41_container.md R182, R185; 60_exceptions.md R363). -/
def Obligations.BadHeaderIsCorruptInput : Prop :=
  ∀ (s : State) (i : Instr), i ∈ [Instr.hdrRd, .hufDec, .lzwDec, .rleDec, .aesDec] → s.Ready i →
    (s.slen < 272 ∨ s.readBytes s.ops.srcAddr.value 4 ≠ leBytes 4 s.platform.magic.toNat) →
    ∃ t, exec i s = .next t ∧ s.FailsInBody t .corruptInput

/-- The header commands and the decoders report IoFailure when their output does not fit in DST_CAP: below 272 for HDR_WR,
and, after a header of the right magic, below 256 for HDR_RD and below the declared size for a decoder (10_state.md R39,
60_exceptions.md R363). -/
def Obligations.OutputBeyondCapacityIsIoFailure : Prop :=
  ∀ s : State,
    (s.Ready .hdrWr → s.cap < 272 → ∃ t, exec .hdrWr s = .next t ∧ s.FailsInBody t .ioFailure) ∧
    (272 ≤ s.slen → rd32 s.source 0 = s.platform.magic.toNat →
      (s.Ready .hdrRd → s.cap < 256 → ∃ t, exec .hdrRd s = .next t ∧ s.FailsInBody t .ioFailure) ∧
      (∀ i ∈ [Instr.hufDec, .lzwDec, .rleDec, .aesDec], s.Ready i → s.cap < rd64 s.source 4 →
        ∃ t, exec i s = .next t ∧ s.FailsInBody t .ioFailure))

/-- The encoders report LimitExceeded for a count that does not fit its field, and otherwise IoFailure for an artifact that
does not fit in DST_CAP (42_huffman.md R205, 43_lzw.md R243, 44_rle.md R271, 45_aes.md R304, 60_exceptions.md R363). -/
def Obligations.EncodersReportTheirLimits : Prop :=
  ∀ s : State,
    (s.Ready .hufEnc → ((∃ x ∈ alphabet s.source, 2 ^ 32 ≤ x.freq) ∨ 2 ^ 32 ≤ (huffBits s.source).length) →
      ∃ t, exec .hufEnc s = .next t ∧ s.FailsInBody t .limitExceeded) ∧
    (s.Ready .hufEnc → (∀ x ∈ alphabet s.source, x.freq < 2 ^ 32) → (huffBits s.source).length < 2 ^ 32 →
      s.cap < s.outputLength .hufEnc → ∃ t, exec .hufEnc s = .next t ∧ s.FailsInBody t .ioFailure) ∧
    (s.Ready .lzwEnc → 2 ^ 32 ≤ (lzwEncode s.source).length →
      ∃ t, exec .lzwEnc s = .next t ∧ s.FailsInBody t .limitExceeded) ∧
    (s.Ready .lzwEnc → (lzwEncode s.source).length < 2 ^ 32 → s.cap < s.outputLength .lzwEnc →
      ∃ t, exec .lzwEnc s = .next t ∧ s.FailsInBody t .ioFailure) ∧
    (∀ i ∈ [Instr.rleEnc, .aesEnc], s.Ready i → s.cap < s.outputLength i →
      ∃ t, exec i s = .next t ∧ s.FailsInBody t .ioFailure)

/-- An error that a decoder's body finds is the status its command ends with; an output of another length than declared
is SizeMismatch (42_huffman.md R206, 43_lzw.md R244, 44_rle.md R272). And which artifacts they reject: HUF_DEC reports
CorruptInput exactly for the sources of `HuffmanCorrupt` (R204, R206), LZW_DEC reports it for those of `LzwCorrupt`
(43_lzw.md R242, R244), and RLE_DEC, where the runs read so far are short of the declared size, reports SizeMismatch at the
end of the source, and CorruptInput for a partial pair, a run of length 0 and a run past the declared size (44_rle.md R272). -/
def Obligations.DecoderErrorsAreReported : Prop :=
  ∀ (s : State) (h : Header), parseHeader s.platform.magic s.source s.slen = .ok h → h.orig ≤ s.cap →
    (s.Ready .hufDec →
      (∀ err, huffDecode h.orig s.source = .error err ∨
          (err = .sizeMismatch ∧ ∃ out, huffDecode h.orig s.source = .ok out ∧ out.length ≠ h.orig) →
        ∃ t, exec .hufDec s = .next t ∧ s.FailsInBody t err) ∧
      ∃ t, exec .hufDec s = .next t ∧ (t.acting.err = .corruptInput ↔ HuffmanCorrupt h.orig s.source)) ∧
    (s.Ready .lzwDec →
      (∀ err, lzwUnpack h.orig s.source = .error err ∨
          (err = .sizeMismatch ∧ ∃ out, lzwUnpack h.orig s.source = .ok out ∧ out.length ≠ h.orig) →
        ∃ t, exec .lzwDec s = .next t ∧ s.FailsInBody t err) ∧
      (LzwCorrupt s.source → ∃ t, exec .lzwDec s = .next t ∧ s.FailsInBody t .corruptInput)) ∧
    (s.Ready .rleDec →
      (∀ err, rleDecodeFrom h.orig [] (s.source.drop 272) = .error err →
        ∃ t, exec .rleDec s = .next t ∧ s.FailsInBody t err) ∧
      ∀ runs rest, s.HoldsRuns runs rest → (runs.map (·.len)).sum < h.orig →
        (rest = [] → ∃ t, exec .rleDec s = .next t ∧ s.FailsInBody t .sizeMismatch) ∧
        (0 < rest.length ∧ rest.length < 5 → ∃ t, exec .rleDec s = .next t ∧ s.FailsInBody t .corruptInput) ∧
        (5 ≤ rest.length → rd32 rest 0 = 0 ∨ h.orig < (runs.map (·.len)).sum + rd32 rest 0 →
          ∃ t, exec .rleDec s = .next t ∧ s.FailsInBody t .corruptInput))

/-- The checks of the AES commands on their data, in order: a length that is no multiple of 16, no ciphertext, a bad pad, a
wrong size (45_aes.md R305, R306, R307). A pad is bad when its value, the last byte, is 0 or above 16, or when one of that
many last bytes is another (45_aes.md R300). -/
def Obligations.AesDataErrors : Prop :=
  ∀ s : State,
    (s.slen % 16 ≠ 0 →
      (s.Ready .aesRawEnc → ∃ t, exec .aesRawEnc s = .next t ∧ s.FailsInBody t .corruptInput) ∧
      (s.Ready .aesRawDec → ∃ t, exec .aesRawDec s = .next t ∧ s.FailsInBody t .corruptInput)) ∧
    (s.slen % 16 = 0 → s.cap < s.slen →
      (s.Ready .aesRawEnc → ∃ t, exec .aesRawEnc s = .next t ∧ s.FailsInBody t .ioFailure) ∧
      (s.Ready .aesRawDec → ∃ t, exec .aesRawDec s = .next t ∧ s.FailsInBody t .ioFailure)) ∧
    (s.Ready .aesDec → ∀ h, parseHeader s.platform.magic s.source s.slen = .ok h → h.orig ≤ s.cap →
      (s.slen % 16 ≠ 0 → ∃ t, exec .aesDec s = .next t ∧ s.FailsInBody t .corruptInput) ∧
      (s.slen = 272 → ∃ t, exec .aesDec s = .next t ∧ s.FailsInBody t .paddingInvalid) ∧
      (272 < s.slen → s.slen % 16 = 0 →
        (∀ err, pkcs7Unpad (ecbDec s.acting.rk (s.source.drop 272)) = .error err →
          err = .paddingInvalid ∧ ∃ t, exec .aesDec s = .next t ∧ s.FailsInBody t .paddingInvalid) ∧
        (PaddingBad (ecbDec s.acting.rk (s.source.drop 272)) →
          ∃ t, exec .aesDec s = .next t ∧ s.FailsInBody t .paddingInvalid) ∧
        (∀ pt, pkcs7Unpad (ecbDec s.acting.rk (s.source.drop 272)) = .ok pt → pt.length ≠ h.orig →
          ∃ t, exec .aesDec s = .next t ∧ s.FailsInBody t .sizeMismatch)))

/-- A command that no agent races on raises only the codes of its row in 60_exceptions.md R361. -/
def Obligations.CommandsRaiseOnlyTheirCodes : Prop :=
  ∀ (i : Instr) (s t : State), s.active < s.engines.length → s.acting.raced = false → exec i s = .next t →
    t.acting.err = .ok ∨ t.acting.err ∈ causes i

/-- Errors are precise: an error changes no register but STATUS and OUT_LEN and no memory outside the destination, and an
error of the pre-checks changes no memory at all (60_exceptions.md R364). -/
def Obligations.ErrorsArePrecise : Prop :=
  ∀ (i : Instr) (s t : State), s.active < s.engines.length → s.acting.raced = false → exec i s = .next t →
    t.acting.err ≠ .ok →
    s.FailsInBody t t.acting.err ∧ (¬ s.Ready i → s.MemoryKept t)

/-- The OUT_LEN of every successful command, as 30_encoding.md R119 gives it. -/
def Obligations.OutputLengths : Prop :=
  ∀ (i : Instr) (s t : State), s.Ready i → exec i s = .next t → t.acting.err = .ok →
    t.acting.outLen.value = s.outputLength i

/-! ## Races -/

/-- A raced command still completes (40_engine_common.md R154), and changes nothing but STATUS, OUT_LEN, its destination
region and, for HDR_RD, the header registers: what 20_memory.md R79 names as its results. That it keeps the operand
registers, IRQ_EN, KEY_VALID and RK is the model's reading (DEDUCED, log entry 6): R79 does not name them, memory is confined
by R77, and 60_exceptions.md R362 says which registers completion leaves. -/
def Obligations.RacedCommandStaysConfined : Prop :=
  ∀ (i : Instr) (s : State), usesDest i = true → s.active < s.engines.length → s.acting.raced = true →
    ∃ t, exec i s = .next t ∧ t.acting.phase = .idle ∧ t.acting.done = true ∧ t.acting.regs = s.acting.regs ∧
      t.acting.irqEn = s.acting.irqEn ∧ (i ≠ .hdrRd → s.HeaderKept t) ∧ s.KeyKept t ∧ s.OthersKept t ∧
      s.MemoryKeptOutside t s.ops.dest

/-- Where two running commands conflict, both are raced from the second START on; without a conflict the second START
races on nothing (20_memory.md R84, 60_exceptions.md R372; that it is the START that marks them is the model's choice, log
entry 6). -/
def Obligations.ConflictingStartRacesBoth : Prop :=
  ∀ (s : State) (e k : Nat) (f g : Engine) (v : Word) (rest : List Event),
    s.engines[e]? = some f → f.phase = .idle → s.engines[k]? = some g → g.phase = .running →
    s.agenda = .regWrite (s.regAddr e 0x000) 4 v :: rest → v.getLsbD 0 = true →
    ∃ t f' g', step s = .next t ∧ t.engines[e]? = some f' ∧ t.engines[k]? = some g' ∧
      (conflict f.regs g.latched = true → f'.raced = true ∧ g'.raced = true) ∧
      (conflict f.regs g.latched = false → g'.raced = g.raced) ∧
      ((∀ h ∈ s.engines, h.busy = true → conflict f.regs h.latched = false) → f'.raced = false)

/-- A host write to a byte of a running command's buffers, and a host read of a byte of its destination, race on it; a
write elsewhere does not (20_memory.md R79). That a racing write is stored is the model's reading (DEDUCED, log entry 7). -/
def Obligations.HostAccessRaces : Prop :=
  ∀ (s : State) (k a : Nat) (g : Engine) (rest : List Event),
    s.engines[k]? = some g → g.phase = .running → s.memBacked a = true →
    (∀ b, s.agenda = .memWrite a b :: rest →
      ∃ t g', step s = .next t ∧ t.engines[k]? = some g' ∧ t.readByte a = b ∧
        g'.raced = (g.raced || (g.latched.reads ++ g.latched.writes).any (fun x => covers x a))) ∧
    (s.agenda = .memRead a :: rest →
      ∃ t g', step s = .next t ∧ t.engines[k]? = some g' ∧
        g'.raced = (g.raced || g.latched.writes.any (fun x => covers x a)))

/-! ## The host's memory accesses -/

/-- A byte the host writes is the byte it reads back, where no running command writes there, and no other byte changes
(20_memory.md R70, R74). Where a running command reads the byte, the write is a race, and that the byte is stored all the
same is the model's reading (DEDUCED, log entry 7). -/
def Obligations.HostByteReadsBack : Prop :=
  ∀ (s : State) (a : Nat) (b : Byte) (rest : List Event),
    s.memBacked a = true → (∀ e ∈ s.engines, e.LeavesAlone a) → s.agenda = .memWrite a b :: .memRead a :: rest →
    ∃ t u, step s = .next t ∧ step t = .next u ∧ u.hostData = .byte b ∧ u.agenda = rest ∧
      ∀ x, x ≠ a → u.readByte x = s.readByte x

/-! ## Reset -/

/-- What a reset of one engine leaves (70_reset_and_hazards.md R390 to R392): every register reads 0, the phase is IDLE,
the key is 0 and not valid, and the interrupt output is 0, whatever the engine did before; no other engine changes, and no
byte of memory outside the destination of a command it abandons. That an abandoned NOP, AES_KEYEXP or invalid word has no
destination, so that no byte changes, is the model's reading of R391 (DEDUCED, log entry 16). -/
def Obligations.ResetOfAnEngine : Prop :=
  ∀ (s : State) (e : Nat) (f : Engine) (rest : List Event), s.engines[e]? = some f → s.agenda = .reset e :: rest →
    ∃ t g, step s = .next t ∧ t.engines[e]? = some g ∧ g.phase = .idle ∧ (∀ off, g.readReg (regAt off) = 0) ∧
      g.regs.keys = Vector.replicate 8 0 ∧ g.keyValid = false ∧ g.irq = false ∧
      (∀ k, k ≠ e → t.engines[k]? = s.engines[k]?) ∧ t.platform = s.platform ∧ t.agenda = rest ∧
      (∀ a, f.LeavesAlone a → t.readByte a = s.readByte a)

/-- The machine right after reset (10_state.md R53): at least one engine, and in each every register reads 0, the phase is
IDLE, the key is 0 and not valid, the interrupt output is 0. -/
def Obligations.ResetStateValues : Prop :=
  0 < State.reset.engines.length ∧
  ∀ g ∈ State.reset.engines, g.phase = .idle ∧ (∀ off, g.readReg (regAt off) = 0) ∧
    g.regs.keys = Vector.replicate 8 0 ∧ g.keyValid = false ∧ g.irq = false

/-! ## What only certain events change -/

/-- IDLE becomes RUNNING only by START acceptance, and RUNNING becomes IDLE only by the execution step or a reset
(40_engine_common.md R150). -/
def Obligations.PhaseChangesOnlyByItsEvents : Prop :=
  ∀ (s t : State) (k : Nat) (f g : Engine), step s = .next t → s.engines[k]? = some f → t.engines[k]? = some g →
    (f.phase = .idle → g.phase = .running → ∃ v, s.NextWrites k 0x000 v ∧ v.getLsbD 0 = true) ∧
    (f.phase = .running → g.phase = .idle → s.NextRuns k ∨ s.NextResets k)

/-- HDR_SIZE and HDR_FLAGS change only by an HDR_RD, and then, unless a race made its results any value, only by one that
completes with OK; or by a reset (10_state.md R44). -/
def Obligations.HeaderRegistersChangeOnlyByHdrRd : Prop :=
  ∀ (s t : State) (k : Nat) (f g : Engine), step s = .next t → s.engines[k]? = some f → t.engines[k]? = some g →
    (g.hdrSize ≠ f.hdrSize ∨ g.hdrFlags ≠ f.hdrFlags) →
    s.NextResets k ∨
      (s.NextRuns k ∧ f.phase = .running ∧ decode f.latched.cmd = .ok .hdrRd ∧ (f.raced = false → g.err = .ok))

/-- RK changes only by AES_KEYEXP or a reset, and KEY_VALID becomes 1 only by AES_KEYEXP (10_state.md R45, R48). -/
def Obligations.KeyStoreChangesOnlyByKeyexp : Prop :=
  ∀ (s t : State) (k : Nat) (f g : Engine), step s = .next t → s.engines[k]? = some f → t.engines[k]? = some g →
    (g.rk ≠ f.rk → s.NextResets k ∨ (s.NextRuns k ∧ f.phase = .running ∧ decode f.latched.cmd = .ok .aesKeyexp)) ∧
    (g.keyValid = true → f.keyValid = false →
      s.NextRuns k ∧ f.phase = .running ∧ decode f.latched.cmd = .ok .aesKeyexp)

/-- An operand register changes only by a reset or by a host write to that register of that engine in phase IDLE:
completion does not change them (10_state.md R40, 60_exceptions.md R362). -/
def Obligations.OperandsChangeOnlyByTheHost : Prop :=
  ∀ (s t : State) (k : Nat) (f g : Engine), step s = .next t → s.engines[k]? = some f → t.engines[k]? = some g →
    g.regs ≠ f.regs → s.NextResets k ∨
      (f.phase = .idle ∧ ∃ off v, off < 0x100 ∧ off % 4 = 0 ∧ s.NextWrites k off v ∧ g.regs = f.regs.write (regAt off) v)

/-- A byte of memory changes only by a host write of that byte, or by the execution step or the reset of a RUNNING engine
whose destination region covers it (20_memory.md R77, 70_reset_and_hazards.md R391). That the reset of a RUNNING NOP,
AES_KEYEXP or invalid word, which has no destination, changes no byte is the model's reading of R391 (DEDUCED, log entry
16). -/
def Obligations.MemoryChangesOnlyByItsWriter : Prop :=
  ∀ (s t : State) (a : Nat), step s = .next t → t.readByte a ≠ s.readByte a →
    (∃ b rest, s.agenda = .memWrite a b :: rest) ∨
    ∃ k f, s.engines[k]? = some f ∧ ¬ f.LeavesAlone a ∧ (s.NextRuns k ∨ s.NextResets k)

/-! ## Invariants that every step keeps -/

/-- While RUNNING, DONE is 0 (BUSY and DONE are never 1 together), ERR and OUT_LEN are 0, and the operand registers hold
what START latched (10_state.md R34, R40, R49; 40_engine_common.md R151). -/
def Obligations.RunningEngineHoldsItsCommand : Prop :=
  ∀ s t : State, s.AllEngines Engine.RunHolds → step s = .next t → t.AllEngines Engine.RunHolds

/-- KEY_VALID is 1 only while RK holds the expansion of the current KEY registers (10_state.md R45), where the latched
operands are those of the registers. -/
def Obligations.KeyValidMeansExpanded : Prop :=
  ∀ s t : State, s.AllEngines Engine.RunHolds → s.AllEngines Engine.KeyHolds → step s = .next t →
    t.AllEngines Engine.KeyHolds

/-- The memory keeps its canonical form (the model's own form, log entry 2). -/
def Obligations.MemoryStaysCanonical : Prop := ∀ s t : State, s.mem.wf = true → step s = .next t → t.mem.wf = true

/-- Nothing is ever written to an address that does not exist or that the platform does not back (20_memory.md R70,
R76). -/
def Obligations.MemoryStaysInRange : Prop := ∀ s t : State, s.MemoryInRange → step s = .next t → t.MemoryInRange

/-- The state right after reset meets every invariant (10_state.md R53). -/
def Obligations.ResetMeetsInvariants : Prop :=
  State.reset.AllEngines Engine.RunHolds ∧ State.reset.AllEngines Engine.KeyHolds ∧ State.reset.mem.wf = true ∧ State.reset.MemoryInRange

/-! ## Functions of the rules -/

/-- RangeOK is the spec's predicate: a zero-length buffer always passes (the text of 20_memory.md R76; log entry 10), any
other when it lies in the address space and each of its bytes is backed. -/
def Obligations.RangeCheckIsByteWise : Prop :=
  ∀ (p : Config.Platform) (a n : Nat),
    rangeOK p { start := a, len := n } = true ↔
      n = 0 ∨ (a + n ≤ 2 ^ p.addrW ∧ a < 2 ^ p.addrW ∧ ∀ k, k < n → memValid p (a + k) = true)

/-- The bits of a packed string read back, one by one, and the bits after the last are 0 (30_encoding.md R113). -/
def Obligations.PackedBitsReadBack : Prop :=
  ∀ bits : List Bool, (packBits bits).length = (bits.length + 7) / 8 ∧
    ∀ k, k < 8 * (packBits bits).length →
      streamBit (packBits bits) k = (if h : k < bits.length then bits[k] else false)

/-- The alphabet lists exactly the symbols that occur, with their frequencies, in ascending order (42_huffman.md R200). -/
def Obligations.AlphabetCountsSymbols : Prop :=
  ∀ input : List Byte,
    (∀ (b : Byte) (n : Nat), { sym := b, freq := n } ∈ alphabet input ↔ (0 < n ∧ n = input.count b)) ∧
    (alphabet input).Pairwise (fun x y => x.sym < y.sym)

/-- The codes of a Huffman tree are prefix-free, and of an alphabet of two symbols or more they are one for each entry,
of length 1 to n − 1 (42_huffman.md R202). -/
def Obligations.HuffmanCodesPrefixFree : Prop :=
  ∀ (x y : SymFreq) (xs : List SymFreq),
    (huffCodes (x :: y :: xs)).Pairwise (fun p q => ¬ p.2 <+: q.2 ∧ ¬ q.2 <+: p.2) ∧
    ((huffCodes (x :: y :: xs)).map (·.1)).Perm ((x :: y :: xs).map (·.sym)) ∧
    ∀ p ∈ huffCodes (x :: y :: xs), 1 ≤ p.2.length ∧ p.2.length ≤ xs.length + 1

/-- HUF_DEC of the artifact of a successful HUF_ENC writes the input back, whatever follows the artifact in the source
(42_huffman.md R207). -/
def Obligations.HuffmanRoundTrip : Prop :=
  ∀ (s t u : State) (extra : List Byte), s.Ready .hufEnc → exec .hufEnc s = .next t → t.acting.err = .ok →
    u.Ready .hufDec → u.platform.magic = s.platform.magic →
    u.source = t.readBytes s.dst t.acting.outLen.value ++ extra → s.slen ≤ u.cap →
    ∃ v, exec .hufDec u = .next v ∧ u.WritesOutput v s.source

/-- LZW_DEC of the artifact of a successful LZW_ENC writes the input back (43_lzw.md R245). -/
def Obligations.LzwRoundTrip : Prop :=
  ∀ (s t u : State) (extra : List Byte), s.Ready .lzwEnc → exec .lzwEnc s = .next t → t.acting.err = .ok →
    u.Ready .lzwDec → u.platform.magic = s.platform.magic →
    u.source = t.readBytes s.dst t.acting.outLen.value ++ extra → s.slen ≤ u.cap →
    ∃ v, exec .lzwDec u = .next v ∧ u.WritesOutput v s.source

/-- The runs of an input: they spell the input, each has length 1 to RUN_MAX, and two consecutive runs have different bytes
unless the first has length RUN_MAX (44_rle.md R270). -/
def Obligations.RunsAreMaximal : Prop :=
  ∀ input : List Byte,
    (rleRuns input).flatMap (fun r => List.replicate r.len r.byte) = input ∧
    (∀ r ∈ rleRuns input, 1 ≤ r.len ∧ r.len ≤ 2 ^ 32 - 1) ∧
    (rleRuns input).IsChain (fun r q => r.byte ≠ q.byte ∨ r.len = 2 ^ 32 - 1)

/-- RLE_DEC of the artifact of a successful RLE_ENC writes the input back (44_rle.md R273). -/
def Obligations.RleRoundTrip : Prop :=
  ∀ (s t u : State) (extra : List Byte), s.Ready .rleEnc → exec .rleEnc s = .next t → t.acting.err = .ok →
    u.Ready .rleDec → u.platform.magic = s.platform.magic →
    u.source = t.readBytes s.dst t.acting.outLen.value ++ extra → s.slen ≤ u.cap →
    ∃ v, exec .rleDec u = .next v ∧ u.WritesOutput v s.source

/-- The key schedule: the first eight words are the key's, and each later word follows the recurrence of 45_aes.md R295. -/
def Obligations.KeyScheduleRecurrence : Prop :=
  ∀ key : List Byte, key.length = 32 →
    (∀ i, i < 8 → ((keyExpansion key).toList.getD i default).bytes = slice key (4 * i) 4) ∧
    ∀ i, 8 ≤ i → i < 60 →
      let w := fun j => (keyExpansion key).toList.getD j default
      w i = (w (i - 8)).xor
        (if i % 8 = 0 then (subWord (rotWord (w (i - 1)))).xor (rcon (i / 8))
          else if i % 8 = 4 then subWord (w (i - 1)) else w (i - 1))

/-- The inverse cipher undoes the cipher (45_aes.md R299); AES_DEC of the artifact of a successful AES_ENC under the same RK
writes the plaintext back, and AES_RAW_DEC inverts AES_RAW_ENC (45_aes.md R308). -/
def Obligations.AesRoundTrip : Prop :=
  (∀ (w : RoundKeys) (b : List Byte), b.length = 16 → invCipher w (cipher w b) = b) ∧
  ∀ s t u : State, u.acting.rk = s.acting.rk → t.acting.err = .ok →
    u.source = t.readBytes s.dst t.acting.outLen.value → s.slen ≤ u.cap →
    (s.Ready .aesEnc → exec .aesEnc s = .next t → u.Ready .aesDec → u.platform.magic = s.platform.magic →
      ∃ v, exec .aesDec u = .next v ∧ u.WritesOutput v s.source) ∧
    (s.Ready .aesRawEnc → exec .aesRawEnc s = .next t → u.Ready .aesRawDec →
      ∃ v, exec .aesRawDec u = .next v ∧ u.WritesOutput v s.source)
end

