-- ==== Sys2Proof/Laws/State.lean ====
section
/-! SUPPORT. One lemma per field per update of an engine and of the state, and the effect of an update on the engine list
and on the acting engine. -/

namespace Sys2Proof.Machine

/-! ## Engine updates -/

section EngineUpdates

variable (e : Engine) (err : Status) (n : Reg64) (b c : Bool) (u : RegUpdate)

@[simp] theorem complete_irqEn : (e.complete err n).irqEn = e.irqEn := rfl
@[simp] theorem complete_phase : (e.complete err n).phase = .idle := rfl
@[simp] theorem complete_done : (e.complete err n).done = true := rfl
@[simp] theorem complete_err : (e.complete err n).err = err := rfl
@[simp] theorem complete_regs : (e.complete err n).regs = e.regs := rfl
@[simp] theorem complete_outLen : (e.complete err n).outLen = n := rfl
@[simp] theorem complete_hdrSize : (e.complete err n).hdrSize = e.hdrSize := rfl
@[simp] theorem complete_hdrFlags : (e.complete err n).hdrFlags = e.hdrFlags := rfl
@[simp] theorem complete_keyValid : (e.complete err n).keyValid = e.keyValid := rfl
@[simp] theorem complete_rk : (e.complete err n).rk = e.rk := rfl
@[simp] theorem complete_latched : (e.complete err n).latched = e.latched := rfl
@[simp] theorem complete_raced : (e.complete err n).raced = false := rfl
@[simp] theorem complete_busy : (e.complete err n).busy = false := rfl

@[simp] theorem start_irqEn : (e.start b c).irqEn = b := rfl
@[simp] theorem start_phase : (e.start b c).phase = .running := rfl
@[simp] theorem start_done : (e.start b c).done = false := rfl
@[simp] theorem start_err : (e.start b c).err = .ok := rfl
@[simp] theorem start_regs : (e.start b c).regs = e.regs := rfl
@[simp] theorem start_outLen : (e.start b c).outLen = Reg64.zero := rfl
@[simp] theorem start_hdrSize : (e.start b c).hdrSize = e.hdrSize := rfl
@[simp] theorem start_hdrFlags : (e.start b c).hdrFlags = e.hdrFlags := rfl
@[simp] theorem start_keyValid : (e.start b c).keyValid = e.keyValid := rfl
@[simp] theorem start_rk : (e.start b c).rk = e.rk := rfl
@[simp] theorem start_latched : (e.start b c).latched = e.regs := rfl
@[simp] theorem start_raced : (e.start b c).raced = c := rfl
@[simp] theorem start_busy : (e.start b c).busy = true := rfl

@[simp] theorem update_none : e.update .none = e := rfl
@[simp] theorem update_irqEn : (e.update u).irqEn = e.irqEn := by cases u <;> rfl
@[simp] theorem update_phase : (e.update u).phase = e.phase := by cases u <;> rfl
@[simp] theorem update_done : (e.update u).done = e.done := by cases u <;> rfl
@[simp] theorem update_err : (e.update u).err = e.err := by cases u <;> rfl
@[simp] theorem update_regs : (e.update u).regs = e.regs := by cases u <;> rfl
@[simp] theorem update_outLen : (e.update u).outLen = e.outLen := by cases u <;> rfl
@[simp] theorem update_latched : (e.update u).latched = e.latched := by cases u <;> rfl
@[simp] theorem update_raced : (e.update u).raced = e.raced := by cases u <;> rfl
@[simp] theorem update_busy : (e.update u).busy = e.busy := by cases u <;> rfl
@[simp] theorem update_header_size (v : Reg64) (w : Word) : (e.update (.header v w)).hdrSize = v := rfl
@[simp] theorem update_header_flags (v : Reg64) (w : Word) : (e.update (.header v w)).hdrFlags = w := rfl
@[simp] theorem update_header_keyValid (v : Reg64) (w : Word) : (e.update (.header v w)).keyValid = e.keyValid := rfl
@[simp] theorem update_header_rk (v : Reg64) (w : Word) : (e.update (.header v w)).rk = e.rk := rfl
@[simp] theorem update_roundKeys_rk (k : RoundKeys) : (e.update (.roundKeys k)).rk = k := rfl
@[simp] theorem update_roundKeys_keyValid (k : RoundKeys) : (e.update (.roundKeys k)).keyValid = true := rfl
@[simp] theorem update_roundKeys_hdrSize (k : RoundKeys) : (e.update (.roundKeys k)).hdrSize = e.hdrSize := rfl
@[simp] theorem update_roundKeys_hdrFlags (k : RoundKeys) : (e.update (.roundKeys k)).hdrFlags = e.hdrFlags := rfl

/-- BUSY reads 1 exactly in phase RUNNING. -/
theorem busy_iff : e.busy = true ↔ e.phase = .running := by simp [Engine.busy]

end EngineUpdates

/-! ## Pseudocode in two parts -/

@[simp] theorem andThen_ok {α β : Type} (a : α) (k : α → Except Status β) : andThen (.ok a) k = k a := rfl
@[simp] theorem andThen_error {α β : Type} (err : Status) (k : α → Except Status β) : andThen (.error err) k = .error err := rfl

/-- Two parts succeed together. -/
theorem andThen_eq_ok {α β : Type} {x : Except Status α} {k : α → Except Status β} {b : β} :
    andThen x k = .ok b ↔ ∃ a, x = .ok a ∧ k a = .ok b := by
  cases x <;> simp

/-- Where two parts together raise, the first raises, or it succeeds and the second raises. -/
theorem andThen_eq_error {α β : Type} {x : Except Status α} {k : α → Except Status β} {err : Status} :
    andThen x k = .error err ↔ x = .error err ∨ ∃ a, x = .ok a ∧ k a = .error err := by
  cases x <;> simp

/-! ## State updates -/

section StateUpdates

variable (s : State) (k a : Nat) (f : Engine → Engine) (bs : List Byte) (r : Config.Region) (p : OperandRegs → Bool)

@[simp] theorem mapEngine_platform : (s.mapEngine k f).platform = s.platform := rfl
@[simp] theorem mapEngine_engines : (s.mapEngine k f).engines = s.engines.modify k f := rfl
@[simp] theorem mapEngine_mem : (s.mapEngine k f).mem = s.mem := rfl
@[simp] theorem mapEngine_openRegions : (s.mapEngine k f).openRegions = s.openRegions := rfl
@[simp] theorem mapEngine_draws : (s.mapEngine k f).draws = s.draws := rfl
@[simp] theorem mapEngine_active : (s.mapEngine k f).active = s.active := rfl
@[simp] theorem mapEngine_agenda : (s.mapEngine k f).agenda = s.agenda := rfl
@[simp] theorem mapEngine_hostData : (s.mapEngine k f).hostData = s.hostData := rfl

@[simp] theorem mapActing_platform : (s.mapActing f).platform = s.platform := rfl
@[simp] theorem mapActing_engines : (s.mapActing f).engines = s.engines.modify s.active f := rfl
@[simp] theorem mapActing_mem : (s.mapActing f).mem = s.mem := rfl
@[simp] theorem mapActing_openRegions : (s.mapActing f).openRegions = s.openRegions := rfl
@[simp] theorem mapActing_draws : (s.mapActing f).draws = s.draws := rfl
@[simp] theorem mapActing_active : (s.mapActing f).active = s.active := rfl
@[simp] theorem mapActing_agenda : (s.mapActing f).agenda = s.agenda := rfl
@[simp] theorem mapActing_hostData : (s.mapActing f).hostData = s.hostData := rfl

@[simp] theorem writeBytes_platform : (s.writeBytes a bs).platform = s.platform := rfl
@[simp] theorem writeBytes_engines : (s.writeBytes a bs).engines = s.engines := rfl
@[simp] theorem writeBytes_mem : (s.writeBytes a bs).mem = s.mem.write a bs := rfl
@[simp] theorem writeBytes_openRegions : (s.writeBytes a bs).openRegions = s.openRegions := rfl
@[simp] theorem writeBytes_draws : (s.writeBytes a bs).draws = s.draws := rfl
@[simp] theorem writeBytes_active : (s.writeBytes a bs).active = s.active := rfl
@[simp] theorem writeBytes_agenda : (s.writeBytes a bs).agenda = s.agenda := rfl
@[simp] theorem writeBytes_hostData : (s.writeBytes a bs).hostData = s.hostData := rfl

@[simp] theorem openRegion_platform : (s.openRegion r).platform = s.platform := rfl
@[simp] theorem openRegion_engines : (s.openRegion r).engines = s.engines := rfl
@[simp] theorem openRegion_mem : (s.openRegion r).mem = s.mem.forget r := rfl
@[simp] theorem openRegion_draws : (s.openRegion r).draws = s.draws + 1 := rfl
@[simp] theorem openRegion_active : (s.openRegion r).active = s.active := rfl
@[simp] theorem openRegion_agenda : (s.openRegion r).agenda = s.agenda := rfl
@[simp] theorem openRegion_hostData : (s.openRegion r).hostData = s.hostData := rfl

@[simp] theorem markRaced_platform : (s.markRaced p).platform = s.platform := rfl
@[simp] theorem markRaced_mem : (s.markRaced p).mem = s.mem := rfl
@[simp] theorem markRaced_openRegions : (s.markRaced p).openRegions = s.openRegions := rfl
@[simp] theorem markRaced_draws : (s.markRaced p).draws = s.draws := rfl
@[simp] theorem markRaced_active : (s.markRaced p).active = s.active := rfl
@[simp] theorem markRaced_agenda : (s.markRaced p).agenda = s.agenda := rfl
@[simp] theorem markRaced_hostData : (s.markRaced p).hostData = s.hostData := rfl

/-! ## The engine list and the acting engine -/

/-- Changing one engine leaves the number of engines as it is. -/
theorem mapEngine_count : (s.mapEngine k f).engines.length = s.engines.length := by simp

/-- Changing one engine leaves every other engine as it is. -/
theorem mapEngine_other {j : Nat} (h : j ≠ k) : (s.mapEngine k f).engines[j]? = s.engines[j]? := by
  simp [Ne.symm h]

/-- The engine that changes. -/
theorem mapEngine_self {e : Engine} (h : s.engines[k]? = some e) : (s.mapEngine k f).engines[k]? = some (f e) := by
  simp [h]

/-- Updates that leave the engine list and `active` alone leave the acting engine alone. -/
theorem acting_congr {t : State} (he : t.engines = s.engines) (ha : t.active = s.active) : t.acting = s.acting := by
  simp [State.acting, he, ha]

@[simp] theorem writeBytes_acting : (s.writeBytes a bs).acting = s.acting := rfl
@[simp] theorem openRegion_acting : (s.openRegion r).acting = s.acting := rfl

/-- The acting engine, where `active` names one. -/
theorem acting_eq {e : Engine} (h : s.engines[s.active]? = some e) : s.acting = e := by
  simp [State.acting, List.getD_eq_getElem?_getD, h]

/-- The acting engine after it is changed. -/
theorem mapActing_acting (h : s.active < s.engines.length) : (s.mapActing f).acting = f s.acting := by
  obtain ⟨e, he⟩ : ∃ e, s.engines[s.active]? = some e := ⟨_, List.getElem?_eq_getElem h⟩
  rw [acting_eq s he]
  exact acting_eq (s.mapActing f) (mapEngine_self s s.active f he)

end StateUpdates

end Sys2Proof.Machine
end

