-- ==== Sys2Proof/Laws/Memory.lean ====
section
/-! SUPPORT. Laws of the memory operations: what a read gives after a write or after a region is left at any value, and that
every operation keeps the canonical form. -/

namespace Sys2Proof.Machine

/-! ## Lookup -/

/-- Dropping cells keeps the lookup of an address none of whose cells is dropped. -/
theorem get?_filter_keep (m : Memory) (q : Host.Cell → Bool) (a : Nat) (h : ∀ b, q (a, b) = true) :
    Memory.get? (m.filter q) a = Memory.get? m a := by
  induction m with
  | nil => rfl
  | cons c m ih =>
    obtain ⟨k, b⟩ := c
    by_cases hk : k = a
    · subst hk; simp [h, Memory.get?]
    · by_cases hq : q (k, b) <;> simp [hq, Memory.get?, hk, ih]

/-- Dropping cells leaves nothing at an address all of whose cells are dropped. -/
theorem get?_filter_drop (m : Memory) (q : Host.Cell → Bool) (a : Nat) (h : ∀ b, q (a, b) = false) :
    Memory.get? (m.filter q) a = none := by
  induction m with
  | nil => rfl
  | cons c m ih =>
    obtain ⟨k, b⟩ := c
    by_cases hk : k = a
    · subst hk; simpa [List.filter_cons, h] using ih
    · by_cases hq : q (k, b) <;> simp [hq, Memory.get?, hk, ih]

/-- Lookup in two pieces. -/
theorem get?_append (m m' : Memory) (a : Nat) :
    Memory.get? (m ++ m') a = (Memory.get? m a).or (Memory.get? m' a) := by
  induction m with
  | nil => simp [Memory.get?]
  | cons c m ih =>
    obtain ⟨k, b⟩ := c
    by_cases hk : k = a <;> simp [Memory.get?, hk, ih]

/-- Lookup in a written block: the byte of that address, and nothing outside the block. -/
theorem get?_cells (bs : List Byte) : ∀ a x : Nat,
    Memory.get? (Memory.cells a bs) x = if a ≤ x then bs[x - a]? else none := by
  induction bs with
  | nil => intro a x; simp [Memory.cells, Memory.get?]
  | cons b bs ih =>
    intro a x
    by_cases hx : a = x
    · subst hx; simp [Memory.cells, Memory.get?]
    · by_cases hle : a ≤ x
      · have h1 : x - a = (x - (a + 1)) + 1 := by omega
        have h2 : a + 1 ≤ x := by omega
        simp [Memory.cells, Memory.get?, hx, ih, hle, h2, h1]
      · have h2 : ¬ a + 1 ≤ x := by omega
        simp [Memory.cells, Memory.get?, hx, ih, hle, h2]

/-- Lookup after a write: the written byte inside the block, the old cell outside it. -/
theorem get?_write (m : Memory) (a : Nat) (bs : List Byte) (x : Nat) :
    Memory.get? (m.write a bs) x =
      if a ≤ x ∧ x < a + bs.length then bs[x - a]? else Memory.get? m x := by
  by_cases hb : bs = []
  · subst hb
    have : ¬ (a ≤ x ∧ x < a) := by omega
    simp [Memory.write, this]
  · simp only [Memory.write, hb, if_false, get?_append, get?_cells]
    by_cases h1 : x < a
    · have h2 : ¬ a ≤ x := by omega
      have h3 : ¬ a + bs.length ≤ x := by omega
      rw [get?_filter_keep _ _ _ (by simp [h1]), get?_filter_drop _ _ _ (by simp; omega)]
      simp [h2]
    · have h2 : a ≤ x := by omega
      rw [get?_filter_drop _ _ _ (by simp; omega)]
      by_cases h3 : x < a + bs.length
      · rw [get?_filter_drop _ _ _ (by simp; omega)]
        simp [h2, h3]
      · rw [get?_filter_keep _ _ _ (by simp; omega)]
        simp [h2, h3, List.getElem?_eq_none (show bs.length ≤ x - a by omega)]

/-- Lookup after a region is forgotten: nothing inside it, the old cell outside. -/
theorem get?_forget (m : Memory) (r : Config.Region) (x : Nat) :
    Memory.get? (m.forget r) x = if covers r x then none else Memory.get? m x := by
  by_cases h : covers r x = true
  · simp only [h, if_true]
    exact get?_filter_drop _ _ _ (by simp [h])
  · simp only [h]
    exact get?_filter_keep _ _ _ (by simp [h])

/-! ## Reads of the state -/

/-- A read depends on the memory and the open regions only. -/
theorem readByte_congr {s t : State} (hm : t.mem = s.mem) (ho : t.openRegions = s.openRegions) (a : Nat) :
    t.readByte a = s.readByte a := by
  simp [State.readByte, State.unlistedByte, hm, ho]

@[simp] theorem mapEngine_readByte (s : State) (k : Nat) (f : Engine → Engine) (a : Nat) :
    (s.mapEngine k f).readByte a = s.readByte a := rfl

@[simp] theorem mapActing_readByte (s : State) (f : Engine → Engine) (a : Nat) :
    (s.mapActing f).readByte a = s.readByte a := rfl

@[simp] theorem markRaced_readByte (s : State) (p : OperandRegs → Bool) (a : Nat) :
    (s.markRaced p).readByte a = s.readByte a := rfl

/-- A read outside a written block gives what it gave before. -/
theorem readByte_write_outside (s : State) (a : Nat) (bs : List Byte) (x : Nat) (h : x < a ∨ a + bs.length ≤ x) :
    (s.writeBytes a bs).readByte x = s.readByte x := by
  have : ¬ (a ≤ x ∧ x < a + bs.length) := by omega
  simp [State.readByte, get?_write, this, State.unlistedByte]

/-- A read inside a written block gives the byte written. -/
theorem readByte_write_inside (s : State) (a : Nat) (bs : List Byte) (i : Nat) (h : i < bs.length) :
    (s.writeBytes a bs).readByte (a + i) = bs[i] := by
  simp [State.readByte, get?_write, h]

/-- Reading back a written block gives the block. -/
theorem readBytes_write (s : State) (a : Nat) (bs : List Byte) : (s.writeBytes a bs).readBytes a bs.length = bs := by
  apply List.ext_getElem
  · simp [State.readBytes]
  · intro i h1 h2
    simp [State.readBytes, readByte_write_inside s a bs i h2]

/-- A string of n bytes is read as n bytes. -/
@[simp] theorem readBytes_length (s : State) (a n : Nat) : (s.readBytes a n).length = n := by simp [State.readBytes]

/-- A read outside a region left at any value gives what it gave before. -/
theorem readByte_openRegion (s : State) (r : Config.Region) (x : Nat) (h : covers r x = false) :
    (s.openRegion r).readByte x = s.readByte x := by
  by_cases hr : r.len = 0
  · simp [State.openRegion, State.readByte, State.unlistedByte, get?_forget, h, hr]
  · simp [State.openRegion, State.readByte, State.unlistedByte, get?_forget, h, hr]

/-- A byte of a region left at any value reads as the free byte of that draw and address. -/
theorem readByte_openRegion_inside (s : State) (r : Config.Region) (x : Nat) (h : covers r x = true) :
    (s.openRegion r).readByte x = Config.freeByte s.draws x := by
  have hr : r.len ≠ 0 := by
    intro h0
    simp [covers, h0] at h
    omega
  simp [State.openRegion, State.readByte, State.unlistedByte, get?_forget, h, hr]

/-! ## The canonical form -/

/-- The canonical form says that addresses rise strictly. -/
theorem wf_iff (m : Memory) : m.wf = true ↔ m.Pairwise (fun c d => c.1 < d.1) := by
  induction m with
  | nil => simp [Memory.wf]
  | cons c m ih => simp [Memory.wf, ih]

/-- The cells of a block lie in it. -/
theorem mem_cells {a : Nat} {bs : List Byte} {c : Host.Cell} (h : c ∈ Memory.cells a bs) :
    a ≤ c.1 ∧ c.1 < a + bs.length := by
  induction bs generalizing a with
  | nil => simp [Memory.cells] at h
  | cons b bs ih =>
    rcases List.mem_cons.mp h with rfl | h
    · simp
    · have := ih h
      simp only [List.length_cons]
      omega

/-- The cells of a block have the canonical form. -/
theorem cells_wf (bs : List Byte) (a : Nat) : (Memory.cells a bs).Pairwise (fun c d => c.1 < d.1) := by
  induction bs generalizing a with
  | nil => exact List.Pairwise.nil
  | cons b bs ih =>
    refine List.Pairwise.cons (fun c hc => ?_) (ih (a + 1))
    have := mem_cells hc
    show a < c.1
    omega

/-- A write keeps the canonical form. -/
theorem write_wf (m : Memory) (a : Nat) (bs : List Byte) (h : m.wf = true) : (m.write a bs).wf = true := by
  rw [wf_iff] at h ⊢
  by_cases hb : bs = []
  · simpa [Memory.write, hb] using h
  · simp only [Memory.write, hb, if_false]
    rw [List.append_assoc, List.pairwise_append, List.pairwise_append]
    refine ⟨h.filter _, ⟨cells_wf bs a, h.filter _, ?_⟩, ?_⟩
    · intro c hc d hd
      have := mem_cells hc
      simp at hd
      omega
    · intro c hc d hd
      simp at hc
      rcases List.mem_append.mp hd with hd | hd
      · have := mem_cells hd
        omega
      · simp at hd
        omega

/-- Forgetting a region keeps the canonical form. -/
theorem forget_wf (m : Memory) (r : Config.Region) (h : m.wf = true) : (m.forget r).wf = true := by
  rw [wf_iff] at h ⊢
  exact h.filter _

/-- Memory right after reset has the canonical form. -/
theorem reset_mem_wf : State.reset.mem.wf = true := rfl

end Sys2Proof.Machine
end

