-- ==== Sys2Proof/Laws/Command.lean ====
section
/-! SUPPORT. What each shared operation of a command's life can do, said once: completion, the pre-checks, and running a
command. -/

namespace Sys2Proof.Machine

/-! ## Register pairs and buffers -/

/-- The pair of a value below 2^64 has that value. -/
theorem ofNat_value {n : Nat} (h : n < 2 ^ 64) : (Reg64.ofNat n).value = n := by
  have h2 : n / 4294967296 < 4294967296 := by
    rw [Nat.div_lt_iff_lt_mul (by decide)]
    simpa using h
  simp [Reg64.ofNat, Reg64.value, BitVec.toNat_ofNat, Nat.mod_eq_of_lt h2]
  exact Nat.div_add_mod' n 4294967296

/-- A register pair is below 2^64. -/
theorem value_lt (r : Reg64) : r.value < 2 ^ 64 := by
  have h1 := r.hi.isLt
  have h2 := r.lo.isLt
  simp [Reg64.value] at *
  omega

@[simp] theorem zero_value : Reg64.zero.value = 0 := by simp [Reg64.value, Reg64.zero]

/-- Whether a region covers an address, as two inequalities. -/
theorem covers_iff (r : Config.Region) (a : Nat) : covers r a = true ↔ r.start ≤ a ∧ a < r.start + r.len := by
  simp [covers]

/-- A region does not cover an address before it or from its end on. -/
theorem covers_false_iff (r : Config.Region) (a : Nat) : covers r a = false ↔ a < r.start ∨ r.start + r.len ≤ a := by
  rw [← Bool.not_eq_true, covers_iff]
  omega

/-! ## Completion -/

/-- Where the acting engine exists, changing it changes nothing outside it. -/
theorem mapActing_others (s : State) (f : Engine → Engine) : s.OthersKept (s.mapActing f) where
  platform := rfl
  count := by simp
  active := rfl
  others := fun _ h => mapEngine_other s s.active f h
  agenda := rfl
  hostData := rfl

/-- The acting engine after a completion with an error. -/
theorem raise_acting (s : State) (err : Status) (h : s.active < s.engines.length) :
    (s.raise err).acting = s.acting.complete err Reg64.zero := mapActing_acting s _ h

@[simp] theorem raise_readByte (s : State) (err : Status) (a : Nat) : (s.raise err).readByte a = s.readByte a := rfl

/-- A completion with an error posts the error and an OUT_LEN of 0. -/
theorem raise_posted (s : State) (err : Status) (h : s.active < s.engines.length) : s.Posted (s.raise err) err 0 := by
  constructor <;> simp [raise_acting s err h]

/-- A completion with an error keeps HDR_SIZE and HDR_FLAGS. -/
theorem raise_header (s : State) (err : Status) (h : s.active < s.engines.length) : s.HeaderKept (s.raise err) := by
  constructor <;> simp [raise_acting s err h]

/-- A completion with an error keeps KEY_VALID and RK. -/
theorem raise_key (s : State) (err : Status) (h : s.active < s.engines.length) : s.KeyKept (s.raise err) := by
  constructor <;> simp [raise_acting s err h]

/-- A completion with an error changes nothing outside the acting engine. -/
theorem raise_others (s : State) (err : Status) : s.OthersKept (s.raise err) := mapActing_others s _

/-- Completion with an error before any memory access: only STATUS and OUT_LEN change. -/
theorem raise_spec (s : State) (err : Status) (h : s.active < s.engines.length) : s.FailsClean (s.raise err) err :=
  ⟨raise_posted s err h, raise_header s err h, raise_key s err h, raise_others s err, raise_readByte s err⟩

/-- The acting engine after an error of the command's own. -/
theorem raiseInBody_acting (s : State) (err : Status) (h : s.active < s.engines.length) :
    (s.raiseInBody err).acting = s.acting.complete err Reg64.zero :=
  raise_acting (s.openRegion s.ops.dest) err h

/-- An error of the command's own changes nothing outside the acting engine and memory. -/
theorem raiseInBody_others (s : State) (err : Status) : s.OthersKept (s.raiseInBody err) := by
  have ho := raise_others (s.openRegion s.ops.dest) err
  exact ⟨ho.1, ho.2, ho.3, ho.4, ho.5, ho.6⟩

/-- After an error of the command's own, memory is the one with the destination left at any value. -/
theorem raiseInBody_readByte (s : State) (err : Status) (a : Nat) :
    (s.raiseInBody err).readByte a = (s.openRegion s.ops.dest).readByte a := raise_readByte _ err a

/-- Completion with an error of the command's own: only STATUS, OUT_LEN and the destination region change. -/
theorem raiseInBody_spec (s : State) (err : Status) (h : s.active < s.engines.length) :
    s.FailsInBody (s.raiseInBody err) err := by
  have ha := raiseInBody_acting s err h
  refine ⟨?_, ?_, ?_, raiseInBody_others s err, fun a hc => ?_⟩
  · constructor <;> simp [ha]
  · constructor <;> simp [ha]
  · constructor <;> simp [ha]
  · rw [raiseInBody_readByte, readByte_openRegion s _ a hc]

/-- The acting engine after a successful completion. -/
theorem finish_acting (s : State) (o : Output) (h : s.active < s.engines.length) :
    (s.finish o).acting = (s.acting.update o.update).complete .ok (Reg64.ofNat o.bytes.length) :=
  mapActing_acting (s.writeBytes s.dst o.bytes) _ h

/-- A successful completion changes nothing outside the acting engine and memory. -/
theorem finish_others (s : State) (o : Output) : s.OthersKept (s.finish o) := by
  have ho := mapActing_others (s.writeBytes s.dst o.bytes)
    (fun e => (e.update o.update).complete .ok (Reg64.ofNat o.bytes.length))
  exact ⟨ho.1, ho.2, ho.3, ho.4, ho.5, ho.6⟩

/-- A successful completion writes the output at `dst` and no other byte. -/
theorem finish_wrote (s : State) (o : Output) : s.Wrote (s.finish o) s.dst o.bytes := by
  refine ⟨?_, fun a hc => ?_⟩
  · exact readBytes_write s s.dst o.bytes
  · exact readByte_write_outside s s.dst o.bytes a ((covers_false_iff _ _).mp hc)

/-- A successful completion posts OK and the number of bytes written. -/
theorem finish_posted (s : State) (o : Output) (h : s.active < s.engines.length) (hn : o.bytes.length < 2 ^ 64) :
    s.Posted (s.finish o) .ok o.bytes.length := by
  constructor <;> simp [finish_acting s o h, ofNat_value hn]

/-- A successful command with no register of its own. -/
theorem finish_writesOutput (s : State) (bs : List Byte) (h : s.active < s.engines.length) (hn : bs.length < 2 ^ 64) :
    s.WritesOutput (s.finish (Output.ofBytes bs)) bs := by
  refine ⟨finish_posted s (Output.ofBytes bs) h hn, ⟨?_, ?_⟩, ⟨?_, ?_⟩, finish_others s _,
    finish_wrote s (Output.ofBytes bs)⟩ <;>
  simp [finish_acting s _ h, Output.ofBytes]

/-! ## Running a command -/

/-- A ready command passes the pre-checks. -/
theorem ready_preCheck {s : State} {i : Instr} (h : s.Ready i) : s.preCheck i = none := by
  obtain ⟨_, _, hk, h1, h2, h3, h4, h5⟩ := h
  unfold State.preCheck
  cases hnk : needsKey i <;> cases hs : usesSource i <;> cases hnm : usesName i <;> cases hd : usesDest i <;>
    simp_all

/-- A ready command runs its pseudocode. -/
theorem run_ready {s : State} {i : Instr} (body : State → Except Status Output) (h : s.Ready i) :
    runCommand i body s =
      match body s with
      | .error err => .next (s.raiseInBody err)
      | .ok o => .next (s.finish o) := by
  simp only [runCommand, h.quiet, ready_preCheck h, Bool.and_false, Bool.false_eq_true, if_false] <;>
    (cases body s <;> rfl)

/-- A ready command whose pseudocode succeeds. -/
theorem run_ok {s : State} {i : Instr} {body : State → Except Status Output} {o : Output} (h : s.Ready i)
    (hb : body s = .ok o) : runCommand i body s = .next (s.finish o) := by
  rw [run_ready body h, hb]

/-- A ready command whose pseudocode raises an error. -/
theorem run_error {s : State} {i : Instr} {body : State → Except Status Output} {err : Status} (h : s.Ready i)
    (hb : body s = .error err) : runCommand i body s = .next (s.raiseInBody err) := by
  rw [run_ready body h, hb]

/-- All that running a command can do: a race, a pre-check error, an error of its own, or success. -/
theorem runCommand_cases (i : Instr) (body : State → Except Status Output) (s t : State)
    (h : runCommand i body s = .next t) :
    (usesDest i = true ∧ s.acting.raced = true ∧ t = s.finishRaced i) ∨
    (∃ err, s.preCheck i = some err ∧ t = s.raise err) ∨
    (∃ err, s.preCheck i = none ∧ body s = .error err ∧ t = s.raiseInBody err) ∨
    (∃ o, s.preCheck i = none ∧ body s = .ok o ∧ t = s.finish o) := by
  unfold runCommand at h
  split at h
  next hr =>
    simp only [Bool.and_eq_true] at hr
    exact .inl ⟨hr.1, hr.2, (Host.Outcome.next.inj h).symm⟩
  next =>
    cases hp : s.preCheck i with
    | some err =>
      simp only [hp] at h
      exact .inr (.inl ⟨err, rfl, (Host.Outcome.next.inj h).symm⟩)
    | none =>
      cases hb : body s with
      | error err =>
        simp only [hp, hb] at h
        exact .inr (.inr (.inl ⟨err, rfl, rfl, (Host.Outcome.next.inj h).symm⟩))
      | ok o =>
        simp only [hp, hb] at h
        exact .inr (.inr (.inr ⟨o, rfl, rfl, (Host.Outcome.next.inj h).symm⟩))

/-- The pseudocode of each command (40_engine_common.md R153). -/
def bodyOf : Instr → State → Except Status Output
  | .nop => fun _ => .ok (Output.ofBytes [])
  | .hdrWr => hdrWrBody
  | .hdrRd => hdrRdBody
  | .hufEnc => hufEncBody
  | .hufDec => hufDecBody
  | .lzwEnc => lzwEncBody
  | .lzwDec => lzwDecBody
  | .rleEnc => rleEncBody
  | .rleDec => rleDecBody
  | .aesKeyexp => aesKeyexpBody
  | .aesEnc => aesEncBody
  | .aesDec => aesDecBody
  | .aesRawEnc => aesRawEncBody
  | .aesRawDec => aesRawDecBody

/-- Every command is its pseudocode, run by the one shared operation. -/
theorem exec_eq (i : Instr) (s : State) : exec i s = runCommand i (bodyOf i) s := by cases i <;> rfl

/-! ## Events -/

/-- All that the execution step of an engine can do, where it answers a next state. -/
theorem runEngine_cases (e : Nat) (s t : State) (h : runEngine e s = .next t) :
    ∃ f, s.engines[e]? = some f ∧
      ((f.phase = .idle ∧ t = s) ∨
       (f.phase = .running ∧ ∃ i, decode f.latched.cmd = .ok i ∧ exec i { s with active := e } = .next t) ∨
       (f.phase = .running ∧ ∃ err, decode f.latched.cmd = .error err ∧
          t = ({ s with active := e } : State).raise .unsupportedAlgorithm)) := by
  unfold runEngine at h
  cases hf : s.engines[e]? with
  | none => simp [hf] at h
  | some f =>
    refine ⟨f, rfl, ?_⟩
    simp only [hf] at h
    cases hp : f.phase with
    | idle =>
      simp only [hp] at h
      exact .inl ⟨rfl, (Host.Outcome.next.inj h).symm⟩
    | running =>
      simp only [hp] at h
      cases hd : decode f.latched.cmd with
      | ok i =>
        simp only [hd] at h
        exact .inr (.inl ⟨rfl, i, rfl, h⟩)
      | error err =>
        simp only [hd, execInvalid] at h
        exact .inr (.inr ⟨rfl, err, rfl, (Host.Outcome.next.inj h).symm⟩)

/-- All that a register access can do, where it answers a next state. -/
theorem onRegister_cases (s : State) (addr width : Nat) (k : Nat → Reg → State) (t : State)
    (h : s.onRegister addr width k = .next t) :
    ∃ e off, s.blockOf addr = some (e, off) ∧ width = 4 ∧ off % 4 = 0 ∧ t = k e (regAt off) := by
  unfold State.onRegister at h
  cases hb : s.blockOf addr with
  | none => simp [hb] at h
  | some x =>
    obtain ⟨e, off⟩ := x
    simp only [hb] at h
    split at h
    next hw => exact ⟨e, off, rfl, hw.1, hw.2, (Host.Outcome.next.inj h).symm⟩
    next => cases h

/-- All that one step can do: the next event, or with an empty agenda the execution step of a RUNNING engine, or
nothing. -/
theorem step_cases (s t : State) (h : step s = .next t) :
    (∃ ev rest, s.agenda = ev :: rest ∧ onEvent ev { s with agenda := rest } = .next t) ∨
    (∃ e, s.agenda = [] ∧ s.engines.findIdx? Engine.busy = some e ∧ runEngine e s = .next t) ∨
    (s.agenda = [] ∧ s.engines.findIdx? Engine.busy = none ∧ t = s) := by
  unfold step at h
  cases ha : s.agenda with
  | cons ev rest =>
    simp only [ha] at h
    exact .inl ⟨ev, rest, rfl, h⟩
  | nil =>
    simp only [ha] at h
    cases hb : s.engines.findIdx? Engine.busy with
    | some e =>
      simp only [hb] at h
      exact .inr (.inl ⟨e, rfl, rfl, h⟩)
    | none =>
      simp only [hb] at h
      exact .inr (.inr ⟨rfl, rfl, (Host.Outcome.next.inj h).symm⟩)

end Sys2Proof.Machine
end

