-- ==== Sys2Proof/Laws/Bodies.lean ====
section
/-! SUPPORT. Laws of byte strings, the header and the output of each command: lengths, little-endian fields, and that every
output fits in the destination. -/

namespace Sys2Proof.Machine

/-! ## Little-endian fields -/

@[simp] theorem leBytes_length (n v : Nat) : (leBytes n v).length = n := by
  induction n generalizing v with
  | zero => rfl
  | succ n ih => simp [leBytes, ih]

/-- An n-byte field holds the value modulo 256^n. -/
theorem leNat_leBytes_mod (n v : Nat) : leNat (leBytes n v) = v % 256 ^ n := by
  induction n generalizing v with
  | zero => simp [leBytes, leNat, Nat.mod_one]
  | succ n ih =>
    have hb : (BitVec.ofNat 8 v).toNat = v % 256 := BitVec.toNat_ofNat _ _
    rw [leBytes, leNat, ih, hb, Nat.pow_succ', Nat.mod_mul]

/-- A value that fits its field reads back. -/
theorem leNat_leBytes {n v : Nat} (h : v < 256 ^ n) : leNat (leBytes n v) = v := by
  rw [leNat_leBytes_mod, Nat.mod_eq_of_lt h]

/-- A little-endian value is below 256 to the number of its bytes. -/
theorem leNat_lt (bs : List Byte) : leNat bs < 256 ^ bs.length := by
  induction bs with
  | nil => simp [leNat]
  | cons b bs ih =>
    have hb := b.isLt
    simp only [leNat, List.length_cons, Nat.pow_succ']
    omega

/-- The bytes of the value of a byte string are that string. -/
theorem leBytes_leNat (bs : List Byte) : leBytes bs.length (leNat bs) = bs := by
  induction bs with
  | nil => rfl
  | cons b bs ih =>
    have hb := b.isLt
    have h1 : (b.toNat + 256 * leNat bs) / 256 = leNat bs := by omega
    have h2 : BitVec.ofNat 8 (b.toNat + 256 * leNat bs) = b := by
      apply BitVec.eq_of_toNat_eq
      simp only [BitVec.toNat_ofNat]
      omega
    simp only [List.length_cons, leBytes, leNat, h1, h2, ih]

/-- The length of a slice. -/
theorem slice_length (a : List Byte) (i n : Nat) : (slice a i n).length = min n (a.length - i) := by simp [slice]

/-- A 64-bit field is below 2^64. -/
theorem rd64_lt (a : List Byte) (i : Nat) : rd64 a i < 2 ^ 64 := by
  refine lt_of_lt_of_le (leNat_lt (slice a i 8)) ?_
  refine le_trans (Nat.pow_le_pow_right (by decide) (?_ : (slice a i 8).length ≤ 8)) (by decide)
  rw [slice_length]
  exact Nat.min_le_left _ _

/-- A 32-bit field is below 2^32. -/
theorem rd32_lt (a : List Byte) (i : Nat) : rd32 a i < 2 ^ 32 := by
  refine lt_of_lt_of_le (leNat_lt (slice a i 4)) ?_
  refine le_trans (Nat.pow_le_pow_right (by decide) (?_ : (slice a i 4).length ≤ 4)) (by decide)
  rw [slice_length]
  exact Nat.min_le_left _ _

/-- A field in the second of two pieces. -/
theorem slice_append_right (a b : List Byte) {i n : Nat} (h : a.length ≤ i) :
    slice (a ++ b) i n = slice b (i - a.length) n := by
  simp [slice, List.drop_append, List.drop_eq_nil_of_le h]

/-- A field in the first of two pieces. -/
theorem slice_append_left (a b : List Byte) {i n : Nat} (h : i + n ≤ a.length) : slice (a ++ b) i n = slice a i n := by
  have h1 : i ≤ a.length := by omega
  have h2 : n ≤ (a.drop i).length := by
    rw [List.length_drop]
    omega
  rw [slice, List.drop_append_of_le_length h1, List.take_append_of_le_length h2, slice]

/-! ## The header -/

@[simp] theorem nameField_length (s : State) : s.nameField.length = 256 := by
  have : s.ops.name.len ≤ 255 := Nat.min_le_right _ _
  simp only [State.nameField, Config.nameField, List.length_append, readBytes_length, List.length_replicate]
  omega

@[simp] theorem mkHeader_length (m : Word) (size : Nat) (nf : List Byte) (fl : Word) (h : nf.length = 256) :
    (mkHeader m size nf fl).length = 272 := by simp [mkHeader, h]

@[simp] theorem artifactHeader_length (s : State) (fl : Word) : (s.artifactHeader fl).length = 272 :=
  mkHeader_length _ _ _ _ (nameField_length s)

/-- The source is as long as SRC_LEN says. -/
@[simp] theorem source_length (s : State) : s.source.length = s.slen := by
  simp [State.source, State.slen, OperandRegs.source]

/-- A parse, as two checks and a result. -/
theorem parseHeader_eq (m : Word) (input : List Byte) (len : Nat) :
    parseHeader m input len =
      if 272 ≤ len ∧ rd32 input 0 = m.toNat then
        .ok { orig := rd64 input 4, name := slice input 12 256, flags := rd32 input 268 }
      else .error .corruptInput := by
  by_cases hl : 272 ≤ len
  · have hn : ¬ len < 272 := by omega
    by_cases hm : rd32 input 0 = m.toNat <;> simp only [parseHeader, Config.hdrLen, Config.nameField, hl, hn, hm,
      if_false, if_true, ne_eq, not_true, not_false_eq_true, and_self, and_false]
  · have hn : len < 272 := by omega
    simp only [parseHeader, Config.hdrLen, hl, hn, if_true, if_false, false_and]

/-- What a parse that succeeds says of its input, and what it returns. -/
theorem parseHeader_ok {m : Word} {input : List Byte} {len : Nat} {h : Header} :
    parseHeader m input len = .ok h ↔
      272 ≤ len ∧ rd32 input 0 = m.toNat ∧
        h = { orig := rd64 input 4, name := slice input 12 256, flags := rd32 input 268 } := by
  rw [parseHeader_eq]
  by_cases hc : 272 ≤ len ∧ rd32 input 0 = m.toNat
  · simp only [hc, and_self, if_true, Except.ok.injEq, true_and]
    exact eq_comm
  · simp only [hc, if_false, reduceCtorEq, false_iff]
    exact fun h => hc ⟨h.1, h.2.1⟩

/-- A parse fails with CorruptInput only. -/
theorem parseHeader_error {m : Word} {input : List Byte} {len : Nat} {err : Status}
    (h : parseHeader m input len = .error err) : err = .corruptInput := by
  rw [parseHeader_eq] at h
  by_cases hc : 272 ≤ len ∧ rd32 input 0 = m.toNat
  · simp only [hc, and_self, if_true, reduceCtorEq] at h
  · simp only [hc, if_false, Except.error.injEq] at h
    exact h.symm

/-- How a decoder begins, where it succeeds. -/
theorem withArtifact_ok {s : State} {rest : Nat → List Byte → Except Status Output} {o : Output}
    (h : s.withArtifact rest = .ok o) :
    ∃ hd, parseHeader s.platform.magic s.source s.slen = .ok hd ∧ hd.orig ≤ s.cap ∧ rest hd.orig s.source = .ok o := by
  rw [State.withArtifact, andThen_eq_ok] at h
  obtain ⟨hd, hp, h⟩ := h
  by_cases hc : s.cap < hd.orig
  · simp only [hc, if_true, reduceCtorEq] at h
  · simp only [hc, if_false] at h
    exact ⟨hd, hp, Nat.not_lt.mp hc, h⟩

/-- How a decoder ends, where it succeeds: as many bytes as declared. -/
theorem exactSize_ok {orig : Nat} {out : List Byte} {o : Output} (h : exactSize orig out = .ok o) :
    out.length = orig ∧ o = Output.ofBytes out := by
  unfold exactSize at h
  split at h
  · cases h
  · next hn =>
    cases h
    exact ⟨by simpa using hn, rfl⟩

/-- How an encoder ends, where it succeeds: the output fits. -/
theorem fitOutput_ok {cap : Nat} {out : List Byte} {o : Output} (h : fitOutput cap out = .ok o) :
    out.length ≤ cap ∧ o = Output.ofBytes out := by
  unfold fitOutput at h
  split at h
  · cases h
  · cases h
    exact ⟨by omega, rfl⟩

/-! ## AES -/

@[simp] theorem storeBlock_length (b : AesBlock) : (storeBlock b).length = 16 := rfl

/-- A function of blocks to blocks gives 16 bytes for each block. -/
theorem ecbBlocks_length (f : List Byte → List Byte) (hf : ∀ b, (f b).length = 16) (n : Nat) (d : List Byte) :
    (ecbBlocks f n d).length = 16 * n := by
  induction n generalizing d with
  | zero => rfl
  | succ n ih =>
    simp only [ecbBlocks, List.length_append, hf, ih]
    omega

theorem ecbEnc_length (w : RoundKeys) (d : List Byte) : (ecbEnc w d).length = 16 * (d.length / 16) :=
  ecbBlocks_length _ (fun _ => rfl) _ _

theorem ecbDec_length (w : RoundKeys) (d : List Byte) : (ecbDec w d).length = 16 * (d.length / 16) :=
  ecbBlocks_length _ (fun _ => rfl) _ _

/-- The padded string has one to sixteen bytes more, to whole blocks. -/
theorem pkcs7Pad_length (p : List Byte) : (pkcs7Pad p).length = 16 * (p.length / 16 + 1) := by
  simp only [pkcs7Pad, List.length_append, List.length_replicate]
  omega

/-! ## RLE -/

/-- A run decoder that succeeds gives exactly the declared size, if it starts within it. -/
theorem rleDecodeFrom_length (orig : Nat) (out input res : List Byte) (h : rleDecodeFrom orig out input = .ok res)
    (ho : out.length ≤ orig) : res.length = orig := by
  fun_induction rleDecodeFrom orig out input <;> simp_all <;> omega

/-! ## The output of each command -/

/-- A raw block command that succeeds writes as many bytes as its source has, and they fit. -/
theorem rawBlocks_ok {s : State} {f : List Byte → List Byte} {o : Output} (h : rawBlocks s f = .ok o) :
    s.slen % 16 = 0 ∧ s.slen ≤ s.cap ∧ o = Output.ofBytes (f s.source) := by
  unfold rawBlocks at h
  by_cases h1 : s.slen % 16 = 0
  · by_cases h2 : s.cap < s.slen
    · simp [h1, h2] at h
    · simp only [h1, h2, ne_eq, not_true, if_false, Except.ok.injEq] at h
      exact ⟨h1, Nat.not_lt.mp h2, h.symm⟩
  · simp [h1] at h

/-- HDR_WR that succeeds: the header it writes. -/
theorem hdrWrBody_ok {s : State} {o : Output} (h : hdrWrBody s = .ok o) :
    272 ≤ s.cap ∧ o = Output.ofBytes (mkHeader s.platform.magic s.ops.hsize.value s.nameField s.ops.hflags) := by
  unfold hdrWrBody at h
  by_cases hc : s.cap < Config.hdrLen
  · simp only [hc, if_true, reduceCtorEq] at h
  · simp only [hc, if_false, Except.ok.injEq] at h
    exact ⟨Nat.not_lt.mp hc, h.symm⟩

/-- HDR_RD that succeeds: the bytes it writes and the registers it updates. -/
theorem hdrRdBody_ok {s : State} {o : Output} (h : hdrRdBody s = .ok o) :
    ∃ hd, parseHeader s.platform.magic (s.readBytes s.ops.source.start (min s.slen 272)) s.slen = .ok hd ∧
      256 ≤ s.cap ∧
      o = { bytes := hd.name, update := .header (Reg64.ofNat hd.orig) (BitVec.ofNat 32 hd.flags) } := by
  rw [hdrRdBody, andThen_eq_ok] at h
  obtain ⟨hd, hp, h⟩ := h
  by_cases hc : s.cap < Config.nameField
  · simp only [hc, if_true, reduceCtorEq] at h
  · simp only [hc, if_false, Except.ok.injEq] at h
    exact ⟨hd, hp, Nat.not_lt.mp hc, h.symm⟩

/-- A decoder that succeeds writes as many bytes as its header declares, and they fit. -/
theorem decoder_ok {s : State} {f : Nat → List Byte → Except Status (List Byte)} {o : Output}
    (h : s.withArtifact (fun orig input => andThen (f orig input) (exactSize orig)) = .ok o) :
    ∃ hd, parseHeader s.platform.magic s.source s.slen = .ok hd ∧ hd.orig ≤ s.cap ∧ o.bytes.length = hd.orig ∧
      o.update = .none ∧ f hd.orig s.source = .ok o.bytes := by
  obtain ⟨hd, hp, hc, h⟩ := withArtifact_ok h
  obtain ⟨out, hf, h⟩ := andThen_eq_ok.mp h
  obtain ⟨hl, rfl⟩ := exactSize_ok h
  exact ⟨hd, hp, hc, hl, rfl, hf⟩

/-- RLE_DEC that succeeds writes as many bytes as its header declares, and they fit. -/
theorem rleDecBody_ok {s : State} {o : Output} (h : rleDecBody s = .ok o) :
    ∃ hd, parseHeader s.platform.magic s.source s.slen = .ok hd ∧ hd.orig ≤ s.cap ∧ o.bytes.length = hd.orig ∧
      o.update = .none ∧ rleDecodeFrom hd.orig [] (s.source.drop 272) = .ok o.bytes := by
  obtain ⟨hd, hp, hc, h⟩ := withArtifact_ok h
  obtain ⟨out, hf, h⟩ := andThen_eq_ok.mp h
  rw [Except.ok.injEq] at h
  subst h
  exact ⟨hd, hp, hc, rleDecodeFrom_length _ _ _ _ hf (Nat.zero_le _), rfl, hf⟩

/-- AES_DEC that succeeds writes as many bytes as its header declares, and they fit. -/
theorem aesDecBody_ok {s : State} {o : Output} (h : aesDecBody s = .ok o) :
    ∃ hd, parseHeader s.platform.magic s.source s.slen = .ok hd ∧ hd.orig ≤ s.cap ∧ o.bytes.length = hd.orig ∧
      o.update = .none ∧ pkcs7Unpad (ecbDec s.acting.rk (s.source.drop 272)) = .ok o.bytes := by
  obtain ⟨hd, hp, hc, h⟩ := withArtifact_ok h
  by_cases h1 : (s.source.drop Config.hdrLen).length % 16 = 0
  · by_cases h2 : (s.source.drop Config.hdrLen).length = 0
    · simp only [h2, ne_eq, not_true, if_false, if_true, reduceCtorEq] at h
    · simp only [h1, h2, ne_eq, not_true, if_false] at h
      obtain ⟨out, hf, h⟩ := andThen_eq_ok.mp h
      obtain ⟨hl, rfl⟩ := exactSize_ok h
      exact ⟨hd, hp, hc, hl, rfl, hf⟩
  · simp only [h1, ne_eq, not_false_eq_true, if_true, reduceCtorEq] at h

/-- An encoder that succeeds: what it writes fits, and it updates no register. -/
theorem encoder_ok {cap : Nat} {out : List Byte} {o : Output} (h : fitOutput cap out = .ok o) :
    o.bytes.length ≤ cap ∧ o.update = .none ∧ o.bytes = out := by
  obtain ⟨hl, rfl⟩ := fitOutput_ok h
  exact ⟨hl, rfl, rfl⟩

/-- The output of a successful command fits in its destination; a command without one writes nothing. -/
theorem body_fits {i : Instr} {s : State} {o : Output} (h : bodyOf i s = .ok o) :
    (usesDest i = true ∧ o.bytes.length ≤ s.cap) ∨ (usesDest i = false ∧ o.bytes = []) := by
  cases i with
  | nop =>
    simp only [bodyOf, Except.ok.injEq] at h
    subst h
    exact .inr ⟨rfl, rfl⟩
  | aesKeyexp =>
    simp only [bodyOf, aesKeyexpBody, Except.ok.injEq] at h
    subst h
    exact .inr ⟨rfl, rfl⟩
  | hdrWr =>
    obtain ⟨hc, rfl⟩ := hdrWrBody_ok h
    refine .inl ⟨rfl, ?_⟩
    simpa [Output.ofBytes] using hc
  | hdrRd =>
    obtain ⟨hd, hp, hc, rfl⟩ := hdrRdBody_ok h
    refine .inl ⟨rfl, ?_⟩
    obtain ⟨-, -, rfl⟩ := parseHeader_ok.mp hp
    refine le_trans ?_ hc
    rw [slice_length]
    exact Nat.min_le_left _ _
  | hufEnc =>
    obtain ⟨body, -, h⟩ := andThen_eq_ok.mp h
    exact .inl ⟨rfl, (encoder_ok h).1⟩
  | lzwEnc =>
    simp only [bodyOf, lzwEncBody] at h
    by_cases hm : 2 ^ 32 ≤ (lzwEncode s.source).length
    · simp only [hm, if_true, reduceCtorEq] at h
    · simp only [hm, if_false] at h
      exact .inl ⟨rfl, (encoder_ok h).1⟩
  | rleEnc => exact .inl ⟨rfl, (encoder_ok h).1⟩
  | aesEnc => exact .inl ⟨rfl, (encoder_ok h).1⟩
  | hufDec =>
    obtain ⟨hd, -, hc, hl, -⟩ := decoder_ok (f := huffDecode) h
    exact .inl ⟨rfl, by omega⟩
  | lzwDec =>
    obtain ⟨hd, -, hc, hl, -⟩ := decoder_ok (f := lzwUnpack) h
    exact .inl ⟨rfl, by omega⟩
  | rleDec =>
    obtain ⟨hd, -, hc, hl, -⟩ := rleDecBody_ok h
    exact .inl ⟨rfl, by omega⟩
  | aesDec =>
    obtain ⟨hd, -, hc, hl, -⟩ := aesDecBody_ok h
    exact .inl ⟨rfl, by omega⟩
  | aesRawEnc =>
    obtain ⟨h1, h2, rfl⟩ := rawBlocks_ok h
    refine .inl ⟨rfl, ?_⟩
    simp only [Output.ofBytes, ecbEnc_length, source_length]
    omega
  | aesRawDec =>
    obtain ⟨h1, h2, rfl⟩ := rawBlocks_ok h
    refine .inl ⟨rfl, ?_⟩
    simp only [Output.ofBytes, ecbDec_length, source_length]
    omega

/-- The registers of its own that a successful command updates. -/
theorem body_update {i : Instr} {s : State} {o : Output} (h : bodyOf i s = .ok o) :
    (i = .hdrRd ∧ ∃ v w, o.update = .header v w) ∨
    (i = .aesKeyexp ∧ o.update = .roundKeys (keyExpansion s.ops.keyBytes)) ∨
    (i ≠ .hdrRd ∧ i ≠ .aesKeyexp ∧ o.update = .none) := by
  cases i with
  | nop =>
    simp only [bodyOf, Except.ok.injEq] at h
    subst h
    exact .inr (.inr ⟨by decide, by decide, rfl⟩)
  | aesKeyexp =>
    simp only [bodyOf, aesKeyexpBody, Except.ok.injEq] at h
    subst h
    exact .inr (.inl ⟨rfl, rfl⟩)
  | hdrWr =>
    obtain ⟨hc, rfl⟩ := hdrWrBody_ok h
    exact .inr (.inr ⟨by decide, by decide, rfl⟩)
  | hdrRd =>
    obtain ⟨hd, hp, hc, rfl⟩ := hdrRdBody_ok h
    exact .inl ⟨rfl, _, _, rfl⟩
  | hufEnc =>
    obtain ⟨body, -, h⟩ := andThen_eq_ok.mp h
    exact .inr (.inr ⟨by decide, by decide, (encoder_ok h).2.1⟩)
  | lzwEnc =>
    simp only [bodyOf, lzwEncBody] at h
    by_cases hm : 2 ^ 32 ≤ (lzwEncode s.source).length
    · simp only [hm, if_true, reduceCtorEq] at h
    · simp only [hm, if_false] at h
      exact .inr (.inr ⟨by decide, by decide, (encoder_ok h).2.1⟩)
  | rleEnc => exact .inr (.inr ⟨by decide, by decide, (encoder_ok h).2.1⟩)
  | aesEnc => exact .inr (.inr ⟨by decide, by decide, (encoder_ok h).2.1⟩)
  | hufDec =>
    obtain ⟨hd, -, -, -, hu, -⟩ := decoder_ok (f := huffDecode) h
    exact .inr (.inr ⟨by decide, by decide, hu⟩)
  | lzwDec =>
    obtain ⟨hd, -, -, -, hu, -⟩ := decoder_ok (f := lzwUnpack) h
    exact .inr (.inr ⟨by decide, by decide, hu⟩)
  | rleDec =>
    obtain ⟨hd, -, -, -, hu, -⟩ := rleDecBody_ok h
    exact .inr (.inr ⟨by decide, by decide, hu⟩)
  | aesDec =>
    obtain ⟨hd, -, -, -, hu, -⟩ := aesDecBody_ok h
    exact .inr (.inr ⟨by decide, by decide, hu⟩)
  | aesRawEnc =>
    obtain ⟨-, -, rfl⟩ := rawBlocks_ok h
    exact .inr (.inr ⟨by decide, by decide, rfl⟩)
  | aesRawDec =>
    obtain ⟨-, -, rfl⟩ := rawBlocks_ok h
    exact .inr (.inr ⟨by decide, by decide, rfl⟩)

end Sys2Proof.Machine
end

