-- ==== Sys2Proof/Laws/Codecs.lean ====
section
/-! SUPPORT. What each decoding function can do, said once: the tree and the walk of Huffman, the dictionary of LZW, the
runs of RLE, the padding of AES. -/

namespace Sys2Proof.Machine

/-- How a decoder begins, where its header parses and the declared size fits. -/
theorem withArtifact_parsed {s : State} {h : Header} (hp : parseHeader s.platform.magic s.source s.slen = .ok h)
    (hc : h.orig ≤ s.cap) (rest : Nat → List Byte → Except Status Output) :
    s.withArtifact rest = rest h.orig s.source := by
  rw [State.withArtifact, hp, andThen_ok, if_neg (Nat.not_lt.mpr hc)]

/-! ## The Huffman tree (42_huffman.md R201, R202) -/

/-- The symbols of the leaves of a tree. -/
def HuffTree.leaves (t : HuffTree) : List Byte := t.paths.map (·.1)

theorem leaves_leaf (sym : Byte) : (HuffTree.leaf sym).leaves = [sym] := rfl

theorem leaves_node (l r : HuffTree) : (HuffTree.node l r).leaves = l.leaves ++ r.leaves := by
  simp [HuffTree.leaves, HuffTree.paths, Function.comp_def]

/-- Every tree has a leaf. -/
theorem paths_ne_nil : ∀ t : HuffTree, t.paths ≠ []
  | .leaf _ => by simp [HuffTree.paths]
  | .node l r => by
    intro h
    exact paths_ne_nil l (List.map_eq_nil_iff.mp (List.append_eq_nil_iff.mp h).1)

/-- A path of an inner node starts with the side it goes to. -/
theorem mem_paths_node {l r : HuffTree} {sym : Byte} {b : Bool} {p : List Bool} :
    (sym, b :: p) ∈ (HuffTree.node l r).paths ↔ (sym, p) ∈ (if b then r else l).paths := by
  cases b <;> simp [HuffTree.paths]

/-- No path of an inner node is empty. -/
theorem nil_notMem_paths_node {l r : HuffTree} {sym : Byte} : (sym, []) ∉ (HuffTree.node l r).paths := by
  simp [HuffTree.paths]

/-- Popping the least node keeps the queue's nodes. -/
theorem popLeast_perm (q : List QueueNode) (a : QueueNode) : ((popLeast a q).1 :: (popLeast a q).2).Perm (a :: q) := by
  induction q generalizing a with
  | nil => exact .refl _
  | cons b q ih =>
    unfold popLeast
    split
    · exact (List.Perm.swap _ _ _).trans ((List.Perm.cons b (ih a)).trans (List.Perm.swap _ _ _))
    · exact (List.Perm.swap _ _ _).trans (List.Perm.cons a (ih b))

/-- Merging a queue keeps the leaves of its trees. -/
theorem mergeQueue_leaves (fuel next : Nat) (a : QueueNode) (q : List QueueNode) (h : q.length ≤ fuel) :
    (mergeQueue fuel next a q).leaves.Perm ((a :: q).flatMap (fun n => n.tree.leaves)) := by
  induction fuel generalizing next a q with
  | zero =>
    obtain rfl : q = [] := List.length_eq_zero_iff.mp (by omega)
    simp [mergeQueue]
  | succ fuel ih =>
    cases q with
    | nil => simp [mergeQueue]
    | cons b q =>
      have hp := popLeast_perm (b :: q) a
      have hl := hp.length_eq
      unfold mergeQueue
      generalize popLeast a (b :: q) = r at *
      obtain ⟨r1, r2⟩ := r
      simp only [List.length_cons] at *
      cases r2 with
      | nil => simp at hl
      | cons c q' =>
        have hp2 := popLeast_perm q' c
        have hl2 := hp2.length_eq
        simp only [List.length_cons] at hl hl2
        refine (ih _ _ _ (by omega)).trans ?_
        refine List.Perm.trans ?_ (hp.flatMap_right _)
        refine List.Perm.trans ?_ (List.Perm.flatMap_right _ (hp2.cons r1))
        simp [leaves_node]

theorem leafQueue_length (xs : List SymFreq) (i : Nat) : (leafQueue i xs).length = xs.length := by
  induction xs generalizing i with
  | nil => rfl
  | cons x xs ih => simp [leafQueue, ih]

theorem leafQueue_leaves (xs : List SymFreq) (i : Nat) :
    (leafQueue i xs).flatMap (fun n => n.tree.leaves) = xs.map (·.sym) := by
  induction xs generalizing i with
  | nil => rfl
  | cons x xs ih => rw [leafQueue, List.flatMap_cons, ih, List.map_cons, leaves_leaf, List.singleton_append]

/-- The leaves of the tree of an alphabet are its symbols. -/
theorem huffTree_leaves (x : SymFreq) (xs : List SymFreq) : (huffTree x xs).leaves.Perm ((x :: xs).map (·.sym)) := by
  refine (mergeQueue_leaves _ _ _ _ (by simp [leafQueue_length])).trans ?_
  rw [List.flatMap_cons, leafQueue_leaves, leaves_leaf, List.map_cons, List.singleton_append]

/-- The root of the tree of two symbols or more is an inner node. -/
theorem huffTree_node (x y : SymFreq) (xs : List SymFreq) : ∃ l r, huffTree x (y :: xs) = .node l r := by
  cases h : huffTree x (y :: xs) with
  | leaf sym =>
    have hl := (huffTree_leaves x (y :: xs)).length_eq
    rw [h, leaves_leaf] at hl
    simp at hl
  | node l r => exact ⟨l, r, rfl⟩

/-- In a code of distinct symbols, the code of a symbol is the one listed with it. -/
theorem codeOf_mem {codes : List (Byte × List Bool)} (hn : (codes.map (·.1)).Nodup) {sym : Byte} {p : List Bool}
    (h : (sym, p) ∈ codes) : codeOf codes sym = p := by
  unfold codeOf
  induction codes with
  | nil => simp at h
  | cons c cs ih =>
    simp only [List.map_cons, List.nodup_cons, List.mem_map] at hn
    rw [List.lookup_cons]
    rcases List.mem_cons.mp h with rfl | h
    · simp
    · have hne : sym ≠ c.1 := by
        rintro rfl
        exact hn.1 ⟨_, h, rfl⟩
      simp [beq_eq_false_iff_ne.mpr hne, ih hn.2 h]

/-! ## The Huffman walk (42_huffman.md R204) -/

/-- The number of nodes of a tree. -/
def HuffTree.size : HuffTree → Nat
  | .leaf _ => 1
  | .node l r => l.size + r.size + 1

/-- The walk fails with CorruptInput only. -/
theorem huffWalk_error {root node : HuffTree} {orig : Nat} {out : List Byte} {bits : List Bool} {err : Status}
    (h : huffWalk root orig node out bits = .error err) : err = .corruptInput := by
  induction bits generalizing node out with
  | nil =>
    unfold huffWalk at h
    split at h <;> simp_all
  | cons b bits ih =>
    cases node with
    | leaf sym =>
      simp only [huffWalk, Except.error.injEq] at h
      exact h.symm
    | node l r =>
      rw [huffWalk] at h
      split at h
      · split at h
        · exact (Except.error.inj h).symm
        · exact ih h
      · exact ih h

/-- The walk along a whole code: one more symbol, which must be one of the declared size. -/
theorem huffWalk_code (root : HuffTree) (orig : Nat) {l r : HuffTree} {sym : Byte} {p : List Bool} (bits : List Bool)
    (out : List Byte) (h : (sym, p) ∈ (HuffTree.node l r).paths) :
    huffWalk root orig (.node l r) out (p ++ bits) =
      if out.length = orig then .error .corruptInput else huffWalk root orig root (out ++ [sym]) bits := by
  induction p generalizing l r with
  | nil => exact absurd h nil_notMem_paths_node
  | cons b p ih =>
    rw [mem_paths_node] at h
    rw [List.cons_append, huffWalk]
    generalize (if b then r else l) = child at *
    cases child with
    | leaf sym' =>
      simp only [HuffTree.paths, List.mem_singleton, Prod.mk.injEq] at h
      obtain ⟨rfl, rfl⟩ := h
      rfl
    | node l' r' => exact ih h

/-- The walk along a part of a code that is cut off: CorruptInput. -/
theorem huffWalk_cut (root : HuffTree) (orig : Nat) {l r : HuffTree} {sym : Byte} {q p : List Bool} (out : List Byte)
    (h : (sym, p) ∈ (HuffTree.node l r).paths) (hq : q <+: p) (hne : q ≠ p) (hroot : q = [] → HuffTree.node l r ≠ root)
    (hsz : (HuffTree.node l r).size ≤ root.size) : huffWalk root orig (.node l r) out q = .error .corruptInput := by
  induction q generalizing l r p with
  | nil => rw [huffWalk, if_neg (hroot rfl)]
  | cons b q ih =>
    obtain ⟨z, rfl⟩ := hq
    rw [List.cons_append, mem_paths_node] at h
    have hlt : (if b then r else l).size < root.size := by
      simp only [HuffTree.size] at hsz
      split <;> omega
    rw [huffWalk]
    generalize (if b then r else l) = child at *
    cases child with
    | leaf sym' =>
      simp only [HuffTree.paths, List.mem_singleton, Prod.mk.injEq, List.append_eq_nil_iff] at h
      obtain ⟨-, rfl, rfl⟩ := h
      exact absurd rfl hne
    | node l' r' =>
      refine ih h ⟨z, rfl⟩ (by simpa using hne) (fun _ e => ?_) (Nat.le_of_lt hlt)
      rw [e] at hlt
      exact Nat.lt_irrefl _ hlt

/-! ## The LZW dictionary (43_lzw.md R240, R242) -/

/-- Adding to a dictionary makes it one entry longer, up to 4096. -/
theorem lzwAdd_length (d : LzwDict) (w : List Byte) (h : d.length ≤ 4096) :
    (LzwDict.add d w).length = min 4096 (d.length + 1) := by
  unfold LzwDict.add Config.lzwCap
  split
  · rw [List.length_append, List.length_singleton]
    omega
  · omega

/-- A code that names an entry on decode is at most the dictionary's size, and below 4096. -/
theorem lzwEntry_some {d : LzwDict} {prev e : List Byte} {c : Nat} (hd : d.length ≤ 4096)
    (h : lzwEntry d prev c = some e) : c ≤ d.length ∧ c < 4096 := by
  unfold lzwEntry Config.lzwCap at h
  split at h
  · omega
  · split at h
    · omega
    · cases h

/-- Decoding that succeeds has met, at each place, a code within the dictionary of that place. -/
theorem lzwDecodeFrom_ok {orig : Nat} {d : LzwDict} {prev out res : List Byte} {codes : List Nat} (hd : d.length ≤ 4096)
    (h : lzwDecodeFrom orig d prev out codes = .ok res) (j : Nat) (hj : j < codes.length) :
    codes[j] ≤ d.length + j ∧ codes[j] < 4096 := by
  induction codes generalizing d prev out j with
  | nil => simp at hj
  | cons c cs ih =>
    rw [lzwDecodeFrom] at h
    cases he : lzwEntry d prev c with
    | none => simp [he] at h
    | some e =>
      simp only [he] at h
      split at h
      · cases h
      · cases j with
        | zero => simpa using lzwEntry_some hd he
        | succ j =>
          have := ih (by rw [lzwAdd_length _ _ hd]; omega) h j (by simpa using hj)
          rw [lzwAdd_length _ _ hd] at this
          rw [List.getElem_cons_succ]
          omega

/-- Decoding fails with CorruptInput only. -/
theorem lzwDecodeFrom_error {orig : Nat} {d : LzwDict} {prev out : List Byte} {codes : List Nat} {err : Status}
    (h : lzwDecodeFrom orig d prev out codes = .error err) : err = .corruptInput := by
  induction codes generalizing d prev out with
  | nil => cases h
  | cons c cs ih =>
    rw [lzwDecodeFrom] at h
    cases he : lzwEntry d prev c with
    | none =>
      simp only [he, Except.error.injEq] at h
      exact h.symm
    | some e =>
      simp only [he] at h
      split at h
      · exact (Except.error.inj h).symm
      · exact ih h

/-! ## The runs of RLE (44_rle.md R272) -/

/-- The decoder takes up stored runs, none empty, that stay within the declared size. -/
theorem rleDecodeFrom_runs {orig : Nat} {runs : List Run} {out : List Byte} (rest : List Byte)
    (hr : ∀ r ∈ runs, 0 < r.len ∧ r.len < 2 ^ 32) (hs : out.length + (runs.map (·.len)).sum ≤ orig) :
    rleDecodeFrom orig out (runs.flatMap (fun r => leBytes 4 r.len ++ [r.byte]) ++ rest) =
      rleDecodeFrom orig (out ++ runs.flatMap (fun r => List.replicate r.len r.byte)) rest := by
  induction runs generalizing out with
  | nil => simp
  | cons r rs ih =>
    have hr1 := hr r List.mem_cons_self
    rw [List.map_cons, List.sum_cons] at hs
    obtain ⟨b0, b1, b2, b3, hb⟩ : ∃ b0 b1 b2 b3, leBytes 4 r.len = [b0, b1, b2, b3] := ⟨_, _, _, _, rfl⟩
    have hle : leNat [b0, b1, b2, b3] = r.len := hb ▸ leNat_leBytes hr1.2
    simp only [List.flatMap_cons, hb, List.cons_append, List.nil_append]
    rw [rleDecodeFrom]
    simp only [hle]
    rw [if_pos (by omega), if_neg (by omega), if_neg (by omega),
      ih (fun x hx => hr x (List.mem_cons_of_mem _ hx)) (by rw [List.length_append, List.length_replicate]; omega),
      List.append_assoc]

/-- The decoder stops at the declared size, whatever follows. -/
theorem rleDecodeFrom_full {orig : Nat} {out : List Byte} (rest : List Byte) (h : orig ≤ out.length) :
    rleDecodeFrom orig out rest = .ok out := by
  unfold rleDecodeFrom
  split <;> simp only [Nat.not_lt.mpr h, if_false]

/-! ## PKCS7 padding (45_aes.md R300) -/

/-- Unpadding takes off 1 to 16 bytes that are all their number. -/
theorem pkcs7Unpad_padded (out : List Byte) {v : Nat} (h1 : 1 ≤ v) (h2 : v ≤ 16) :
    pkcs7Unpad (out ++ List.replicate v (BitVec.ofNat 8 v)) = .ok out := by
  have hn : (BitVec.ofNat 8 v).toNat = v := by
    rw [BitVec.toNat_ofNat]
    omega
  have h0 : ¬ BitVec.ofNat 8 v = 0 := fun hh => by
    rw [hh] at hn
    simp only [BitVec.ofNat_eq_ofNat, BitVec.toNat_ofNat, Nat.zero_mod] at hn
    omega
  have hv : (out ++ List.replicate v (BitVec.ofNat 8 v)).getD ((out ++ List.replicate v (BitVec.ofNat 8 v)).length - 1) 0 =
      BitVec.ofNat 8 v := by
    rw [List.getD_eq_getElem?_getD, List.getElem?_append_right (by simp; omega), List.getElem?_replicate,
      if_pos (by simp; omega)]
    rfl
  unfold pkcs7Unpad
  simp only [hv, hn, h0, Nat.not_lt.mpr h2, or_self, if_false]
  simp

end Sys2Proof.Machine
end

