-- ==== Sys2Proof/Laws/Host.lean ====
section
/-! SUPPORT. What each event of the host and the platform can do, said once: register accesses, START acceptance, memory
accesses, races and resets; and when a command is ready. -/

namespace Sys2Proof.Machine

/-! ## Register addresses -/

/-- The bus address of an engine's register lies in that engine's block, at that offset. -/
theorem blockOf_regAddr (s : State) {e off : Nat} (he : e < s.engines.length) (ho : off < 0x100) :
    s.blockOf (s.regAddr e off) = some (e, off) := by
  have h1 : ¬ s.platform.base + e * 256 + off < s.platform.base := by omega
  have h2 : s.platform.base + e * 256 + off - s.platform.base = e * 256 + off := by omega
  have h3 : (e * 256 + off) / 256 = e := by omega
  have h4 : (e * 256 + off) % 256 = off := by omega
  simp only [State.blockOf, State.regAddr, Config.engineStride, h1, if_false, h2, h3, h4, he, if_true]

/-- An address in a block is the bus address of that block's engine and offset. -/
theorem blockOf_some {s : State} {addr e off : Nat} (h : s.blockOf addr = some (e, off)) :
    addr = s.regAddr e off ∧ e < s.engines.length ∧ off < 0x100 := by
  by_cases hb : addr < s.platform.base
  · simp [State.blockOf, hb] at h
  · by_cases hl : (addr - s.platform.base) / 256 < s.engines.length
    · simp only [State.blockOf, Config.engineStride, hb, hl, if_true, if_false, Option.some.injEq, Prod.mk.injEq] at h
      obtain ⟨rfl, rfl⟩ := h
      refine ⟨?_, hl, Nat.mod_lt _ (by decide)⟩
      simp only [State.regAddr, Config.engineStride]
      omega
    · simp [State.blockOf, Config.engineStride, hb, hl] at h

/-- The next event is a register write: the step is the write. -/
theorem step_regWrite {s : State} {e off : Nat} {v : Word} {rest : List Event} (he : e < s.engines.length)
    (ho : off < 0x100) (h4 : off % 4 = 0) (h : s.agenda = .regWrite (s.regAddr e off) 4 v :: rest) :
    step s = .next (({ s with agenda := rest } : State).writeRegister e (regAt off) v) := by
  have hb : ({ s with agenda := rest } : State).blockOf (s.regAddr e off) = some (e, off) := blockOf_regAddr s he ho
  simp only [step, h, onEvent, hostRegWrite, State.onRegister, hb]
  simp [h4]

/-- The next event is a register read: the step keeps the value as the host's data. -/
theorem step_regRead {s : State} {e off : Nat} {rest : List Event} (he : e < s.engines.length) (ho : off < 0x100)
    (h4 : off % 4 = 0) (h : s.agenda = .regRead (s.regAddr e off) 4 :: rest) :
    step s = .next { s with
      agenda := rest, hostData := .word ((s.engines.getD e Engine.reset).readReg (regAt off)) } := by
  have hb : ({ s with agenda := rest } : State).blockOf (s.regAddr e off) = some (e, off) := blockOf_regAddr s he ho
  simp only [step, h, onEvent, hostRegRead, State.onRegister, hb]
  simp [h4]

/-- Among the first 32 entries of the register map only entry 0 is CTRL. -/
theorem regMap_ctrl : ∀ k < 32, regMap.getD k .reserved = .ctrl → k = 0 := by decide

/-- All that a register write can do, where it answers a next state. -/
theorem hostRegWrite_cases (addr width : Nat) (v : Word) (s t : State) (h : hostRegWrite addr width v s = .next t) :
    ∃ e off, addr = s.regAddr e off ∧ width = 4 ∧ e < s.engines.length ∧ off < 0x100 ∧ off % 4 = 0 ∧
      t = s.writeRegister e (regAt off) v := by
  obtain ⟨e, off, hb, hw, h4, rfl⟩ := onRegister_cases s addr width _ t h
  obtain ⟨ha, he, ho⟩ := blockOf_some hb
  exact ⟨e, off, ha, hw, he, ho, h4, rfl⟩

/-- All that a register read can do, where it answers a next state. -/
theorem hostRegRead_cases (addr width : Nat) (s t : State) (h : hostRegRead addr width s = .next t) :
    ∃ e off, addr = s.regAddr e off ∧ width = 4 ∧ e < s.engines.length ∧ off < 0x100 ∧ off % 4 = 0 ∧
      t = { s with hostData := .word ((s.engines.getD e Engine.reset).readReg (regAt off)) } := by
  obtain ⟨e, off, hb, hw, h4, rfl⟩ := onRegister_cases s addr width _ t h
  obtain ⟨ha, he, ho⟩ := blockOf_some hb
  exact ⟨e, off, ha, hw, he, ho, h4, rfl⟩

/-- CTRL is the register at offset 0, and no other. -/
theorem regAt_ctrl {off : Nat} (h4 : off % 4 = 0) : regAt off = .ctrl ↔ off = 0 := by
  constructor
  · intro h
    by_cases hlt : off / 4 < 32
    · have := regMap_ctrl _ hlt h
      omega
    · have hge : regMap.length ≤ off / 4 := by
        show 32 ≤ off / 4
        omega
      simp [regAt, List.getD_eq_getElem?_getD, List.getElem?_eq_none hge] at h
  · rintro rfl
    rfl

/-! ## Register writes -/

/-- A write to a register other than CTRL while RUNNING has no effect. -/
theorem writeReg_busy {e : Engine} (reg : Reg) (v : Word) (h : e.busy = true) : e.writeReg reg v = e := by
  simp [Engine.writeReg, h]

/-- All that a write to a register other than CTRL can change. -/
theorem writeReg_spec (e : Engine) (reg : Reg) (v : Word) :
    (e.busy = true ∧ e.writeReg reg v = e) ∨
    (e.busy = false ∧ e.writeReg reg v =
      { e with
        regs := e.regs.write reg v
        done := if reg = .status ∧ v.getLsbD 1 = true then false else e.done
        keyValid := if reg.isKey then false else e.keyValid }) := by
  cases h : e.busy <;> simp [Engine.writeReg, h]

/-- A write to a register that is no key register keeps the key. -/
theorem write_keys (r : OperandRegs) {reg : Reg} (v : Word) (h : reg.isKey = false) : (r.write reg v).keys = r.keys := by
  cases reg <;> simp_all [OperandRegs.write, Reg.isKey]

/-- All that a host write to a register can do: START acceptance, storing IRQ_EN, or a write of another register. -/
theorem writeRegister_cases (s : State) (e : Nat) (reg : Reg) (v : Word) :
    (reg = .ctrl ∧ v.getLsbD 0 = true ∧ (s.engines.getD e Engine.reset).busy = false ∧
      s.writeRegister e reg v = s.acceptStart e (v.getLsbD 1)) ∨
    (reg = .ctrl ∧ (v.getLsbD 0 = false ∨ (s.engines.getD e Engine.reset).busy = true) ∧
      s.writeRegister e reg v = s.mapEngine e (fun f => { f with irqEn := v.getLsbD 1 })) ∨
    (reg ≠ .ctrl ∧ s.writeRegister e reg v = s.mapEngine e (fun f => f.writeReg reg v)) := by
  by_cases hr : reg = .ctrl
  · subst hr
    cases hb : (s.engines.getD e Engine.reset).busy <;> cases hv : v.getLsbD 0 <;>
      simp only [State.writeRegister, hb, hv, if_true, Bool.not_true, Bool.not_false, Bool.and_true, Bool.and_false,
        Bool.false_eq_true, if_false] <;> simp
  · simp [State.writeRegister, hr]

/-! ## Races and START acceptance -/

/-- What marking does to one engine. -/
theorem markRaced_engine (s : State) (p : OperandRegs → Bool) (k : Nat) :
    (s.markRaced p).engines[k]? =
      (s.engines[k]?).map (fun e => if e.busy && p e.latched then { e with raced := true } else e) := by
  simp [State.markRaced]

@[simp] theorem markRaced_count (s : State) (p : OperandRegs → Bool) :
    (s.markRaced p).engines.length = s.engines.length := by simp [State.markRaced]

/-- Marking changes nothing of an engine but `raced`. -/
theorem markRaced_only (s : State) (p : OperandRegs → Bool) (k : Nat) :
    ((s.markRaced p).engines[k]?).map (fun e => { e with raced := false }) =
      (s.engines[k]?).map (fun e => { e with raced := false }) := by
  rw [markRaced_engine]
  cases s.engines[k]? with
  | none => rfl
  | some e => cases h : (e.busy && p e.latched) <;> simp only [Option.map_some, h, if_true, Bool.false_eq_true, if_false]

/-- The engine that accepts a START: it starts with its own register values. -/
theorem acceptStart_self {s : State} {e : Nat} {f : Engine} (b : Bool) (hf : s.engines[e]? = some f)
    (hb : f.busy = false) :
    (s.acceptStart e b).engines[e]? =
      some (f.start b (s.engines.any (fun g => g.busy && conflict f.regs g.latched))) := by
  unfold State.acceptStart
  refine (mapEngine_self _ e _ (e := f) ?_).trans ?_
  · simp [markRaced_engine, hf, hb]
  · simp [List.getD_eq_getElem?_getD, hf]

/-- Every other engine at a START: it changes only where the new command conflicts with its running one. -/
theorem acceptStart_other (s : State) {e k : Nat} (b : Bool) (h : k ≠ e) :
    (s.acceptStart e b).engines[k]? = (s.engines[k]?).map (fun g =>
      if g.busy && conflict (s.engines.getD e Engine.reset).regs g.latched then { g with raced := true } else g) := by
  rw [State.acceptStart, mapEngine_other _ _ _ h, markRaced_engine]

@[simp] theorem acceptStart_platform (s : State) (e : Nat) (b : Bool) : (s.acceptStart e b).platform = s.platform := rfl
@[simp] theorem acceptStart_mem (s : State) (e : Nat) (b : Bool) : (s.acceptStart e b).mem = s.mem := rfl
@[simp] theorem acceptStart_openRegions (s : State) (e : Nat) (b : Bool) :
    (s.acceptStart e b).openRegions = s.openRegions := rfl
@[simp] theorem acceptStart_agenda (s : State) (e : Nat) (b : Bool) : (s.acceptStart e b).agenda = s.agenda := rfl
@[simp] theorem acceptStart_count (s : State) (e : Nat) (b : Bool) :
    (s.acceptStart e b).engines.length = s.engines.length := by simp [State.acceptStart]
@[simp] theorem acceptStart_readByte (s : State) (e : Nat) (b : Bool) (a : Nat) :
    (s.acceptStart e b).readByte a = s.readByte a := rfl

/-! ## Memory accesses and resets -/

/-- All that a host write of a byte can do, where it answers a next state. -/
theorem hostMemWrite_cases (a : Nat) (b : Byte) (s t : State) (h : hostMemWrite a b s = .next t) :
    s.memBacked a = true ∧
      t = (s.markRaced (fun r => (r.reads ++ r.writes).any (fun x => covers x a))).writeBytes a [b] := by
  unfold hostMemWrite at h
  split at h
  next hm => exact ⟨hm, (Host.Outcome.next.inj h).symm⟩
  next => cases h

/-- All that a host read of a byte can do, where it answers a next state: a race, or the memory's value. -/
theorem hostMemRead_cases (a : Nat) (s t : State) (h : hostMemRead a s = .next t) :
    s.memBacked a = true ∧
      ((s.engines.any (fun e => e.busy && e.latched.writes.any (fun x => covers x a)) = true ∧
          t = { s.markRaced (fun r => r.writes.any (fun x => covers x a)) with
                hostData := .byte (Config.freeHostRead s.draws), draws := s.draws + 1 }) ∨
       (s.engines.any (fun e => e.busy && e.latched.writes.any (fun x => covers x a)) = false ∧
          t = { s with hostData := .byte (s.readByte a) })) := by
  unfold hostMemRead at h
  split at h
  next hm =>
    refine ⟨hm, ?_⟩
    split at h
    next hr => exact .inl ⟨hr, (Host.Outcome.next.inj h).symm⟩
    next hr => exact .inr ⟨by simpa using hr, (Host.Outcome.next.inj h).symm⟩
  next => cases h

/-- All that a reset of an engine can do, where it answers a next state. -/
theorem platformReset_cases (e : Nat) (s t : State) (h : platformReset e s = .next t) :
    ∃ f s1, s.engines[e]? = some f ∧ s1 = f.abandoned.foldl (fun u r => u.openRegion r) s ∧
      t = { s1.mapEngine e (fun _ => { Engine.reset with rk := freeRoundKeys s1.draws }) with draws := s1.draws + 1 } := by
  unfold platformReset at h
  cases hf : s.engines[e]? with
  | none => simp [hf] at h
  | some f =>
    simp only [hf] at h
    exact ⟨f, _, rfl, rfl, (Host.Outcome.next.inj h).symm⟩

/-- Opening regions one after another changes only the open regions, the memory inside them, and the draws. -/
theorem openRegions_fold (rs : List Config.Region) (s : State) :
    (rs.foldl (fun u r => u.openRegion r) s).platform = s.platform ∧
    (rs.foldl (fun u r => u.openRegion r) s).engines = s.engines ∧
    (rs.foldl (fun u r => u.openRegion r) s).active = s.active ∧
    (rs.foldl (fun u r => u.openRegion r) s).agenda = s.agenda ∧
    (rs.foldl (fun u r => u.openRegion r) s).hostData = s.hostData := by
  induction rs generalizing s with
  | nil => exact ⟨rfl, rfl, rfl, rfl, rfl⟩
  | cons r rs ih => exact ih (s.openRegion r)

/-- A byte in none of the opened regions reads as before. -/
theorem readByte_fold (rs : List Config.Region) (s : State) (a : Nat) (h : ∀ r ∈ rs, covers r a = false) :
    (rs.foldl (fun u r => u.openRegion r) s).readByte a = s.readByte a := by
  induction rs generalizing s with
  | nil => rfl
  | cons r rs ih =>
    rw [List.foldl_cons, ih _ (fun x hx => h x (List.mem_cons_of_mem _ hx)),
      readByte_openRegion s r a (h r List.mem_cons_self)]

/-! ## Raced commands, and readiness -/

/-- The acting engine after a raced command. -/
theorem finishRaced_acting (s : State) (i : Instr) (h : s.active < s.engines.length) :
    (s.finishRaced i).acting =
      (s.acting.update (if i = .hdrRd then
          .header { lo := (Config.freeHdrSize s.draws).1, hi := (Config.freeHdrSize s.draws).2 }
            (Config.freeHdrFlags s.draws) else .none)).complete
        (Status.ofCode (Config.freeErr s.draws))
        { lo := (Config.freeOutLen s.draws).1, hi := (Config.freeOutLen s.draws).2 } :=
  mapActing_acting (s.openRegion s.ops.dest) _ h

/-- A raced command changes nothing outside the acting engine and memory. -/
theorem finishRaced_others (s : State) (i : Instr) : s.OthersKept (s.finishRaced i) := by
  have ho := mapActing_others (s.openRegion s.ops.dest) (fun e =>
    (e.update (if i = .hdrRd then
        .header { lo := (Config.freeHdrSize s.draws).1, hi := (Config.freeHdrSize s.draws).2 }
          (Config.freeHdrFlags s.draws) else .none)).complete
      (Status.ofCode (Config.freeErr s.draws))
      { lo := (Config.freeOutLen s.draws).1, hi := (Config.freeOutLen s.draws).2 })
  exact ⟨ho.1, ho.2, ho.3, ho.4, ho.5, ho.6⟩

/-- A raced command leaves memory as it is, but for its destination. -/
theorem finishRaced_readByte (s : State) (i : Instr) (a : Nat) :
    (s.finishRaced i).readByte a = (s.openRegion s.ops.dest).readByte a := mapActing_readByte _ _ a

/-- Every address of a buffer that passes the range check exists and is backed. -/
theorem rangeOK_backed {p : Config.Platform} {x : Config.Region} (h : rangeOK p x = true) {a : Nat}
    (hc : covers x a = true) : a < 2 ^ p.addrW ∧ memValid p a = true := by
  rw [covers_iff] at hc
  simp only [rangeOK, Bool.or_eq_true, beq_iff_eq, Bool.and_eq_true, decide_eq_true_eq, List.all_eq_true] at h
  rcases h with h | ⟨h1, h2⟩
  · omega
  · refine ⟨by omega, ?_⟩
    simp only [memValid, List.all_eq_true]
    intro r hr
    have := h2 r hr
    simp only [overlaps, covers, Bool.not_eq_true', Bool.and_eq_false_iff, decide_eq_false_iff_not] at this ⊢
    omega

/-- A chain of checks raises nothing exactly when no check fails. -/
theorem check_none {p : Prop} [Decidable p] {err : Status} {rest : Option Status} :
    (if p then some err else rest) = none ↔ ¬ p ∧ rest = none := by
  by_cases hp : p <;> simp [hp]

/-- When a command is ready, in terms of the pre-checks. -/
theorem ready_iff (s : State) (i : Instr) :
    s.Ready i ↔ s.active < s.engines.length ∧ s.acting.raced = false ∧ s.preCheck i = none := by
  refine ⟨fun h => ⟨h.acting, h.quiet, ready_preCheck h⟩, fun ⟨ha, hq, hp⟩ => ?_⟩
  simp only [State.preCheck, check_none, Bool.and_eq_true, Bool.not_eq_true', not_and, Bool.not_eq_false,
    Bool.not_eq_true] at hp
  obtain ⟨hk, h1, h2, h3, h4, h5, -⟩ := hp
  exact ⟨ha, hq, hk, h1, h2, h3, fun a b => h4 ⟨a, b⟩, fun a b => h5 ⟨a, b⟩⟩

end Sys2Proof.Machine
end

