-- ==== Sys2Proof/Laws/PerInstr.lean ====
section
/-! SUPPORT. Statements about every instruction, one lemma for each constructor of Instr. -/

namespace Sys2Proof.Laws.WordRoundTrip

/-- An instruction is well formed, its word has a reserved field of 0, and the decoder reads the instruction back from
the four bytes of that word on the register bus (30_encoding.md R100, R101; 10_state.md R32). -/
def Statement (i : Instr) : Prop :=
  i.wf = true ∧ (splitWord (encode i)).rsv = 0 ∧ decodeBytes (bytesOfWord (encode i)) = .ok i

theorem nop : Statement .nop := by unfold Statement; decide
theorem hdrWr : Statement .hdrWr := by unfold Statement; decide
theorem hdrRd : Statement .hdrRd := by unfold Statement; decide
theorem hufEnc : Statement .hufEnc := by unfold Statement; decide
theorem hufDec : Statement .hufDec := by unfold Statement; decide
theorem lzwEnc : Statement .lzwEnc := by unfold Statement; decide
theorem lzwDec : Statement .lzwDec := by unfold Statement; decide
theorem rleEnc : Statement .rleEnc := by unfold Statement; decide
theorem rleDec : Statement .rleDec := by unfold Statement; decide
theorem aesKeyexp : Statement .aesKeyexp := by unfold Statement; decide
theorem aesEnc : Statement .aesEnc := by unfold Statement; decide
theorem aesDec : Statement .aesDec := by unfold Statement; decide
theorem aesRawEnc : Statement .aesRawEnc := by unfold Statement; decide
theorem aesRawDec : Statement .aesRawDec := by unfold Statement; decide

end Sys2Proof.Laws.WordRoundTrip
end

