-- ==== Sys2Proof/Laws/Step.lean ====
section
/-! SUPPORT. All that one step can do to one engine, said once. -/

namespace Sys2Proof.Machine

/-- What the execution step of a RUNNING engine `f` can leave: a completion of an invalid word, of a raced command, with
an error, or with the output of the command's pseudocode on a state where `f` acts. -/
def RunLeaves (f g : Engine) : Prop :=
  (∃ e, decode f.latched.cmd = .error e ∧ g = f.complete .unsupportedAlgorithm Reg64.zero) ∨
  ∃ i, decode f.latched.cmd = .ok i ∧
    ((usesDest i = true ∧ f.raced = true ∧
        ∃ u err n, g = (f.update u).complete err n ∧ ((i = .hdrRd ∧ ∃ v w, u = .header v w) ∨ (i ≠ .hdrRd ∧ u = .none))) ∨
     (∃ err, g = f.complete err Reg64.zero) ∨
     (∃ (s : State) (o : Output), s.acting = f ∧ bodyOf i s = .ok o ∧
        g = (f.update o.update).complete .ok (Reg64.ofNat o.bytes.length)))

/-- What a host write of `v` at offset `off` can do to the engine `f` it addresses: START acceptance, storing IRQ_EN, or a
write of another register. -/
def WriteLeaves (f g : Engine) (off : Nat) (v : Word) : Prop :=
  (off = 0 ∧ v.getLsbD 0 = true ∧ f.busy = false ∧ ∃ r, g = f.start (v.getLsbD 1) r) ∨
  (off = 0 ∧ (v.getLsbD 0 = false ∨ f.busy = true) ∧ g = { f with irqEn := v.getLsbD 1 }) ∨
  (off ≠ 0 ∧ g = f.writeReg (regAt off) v)

/-- What running a command does to the acting engine, where it exists. -/
theorem exec_acting {i : Instr} {s t : State} (h : exec i s = .next t) (ha : s.active < s.engines.length) :
    (usesDest i = true ∧ s.acting.raced = true ∧
      ∃ u err n, t.acting = (s.acting.update u).complete err n ∧
        ((i = .hdrRd ∧ ∃ v w, u = .header v w) ∨ (i ≠ .hdrRd ∧ u = .none))) ∨
    (∃ err, t.acting = s.acting.complete err Reg64.zero) ∨
    (∃ o, bodyOf i s = .ok o ∧ t.acting = (s.acting.update o.update).complete .ok (Reg64.ofNat o.bytes.length)) := by
  rw [exec_eq] at h
  rcases runCommand_cases i _ s t h with ⟨hd, hr, rfl⟩ | ⟨err, -, rfl⟩ | ⟨err, -, -, rfl⟩ | ⟨o, -, ho, rfl⟩
  · refine .inl ⟨hd, hr, _, _, _, finishRaced_acting s i ha, ?_⟩
    by_cases hi : i = .hdrRd
    · exact .inl ⟨hi, _, _, by rw [if_pos hi]⟩
    · exact .inr ⟨hi, by rw [if_neg hi]⟩
  · exact .inr (.inl ⟨err, raise_acting s err ha⟩)
  · exact .inr (.inl ⟨err, raiseInBody_acting s err ha⟩)
  · exact .inr (.inr ⟨o, ho, finish_acting s o ha⟩)

/-- Running a command changes nothing outside the acting engine and memory. -/
theorem exec_others {i : Instr} {s t : State} (h : exec i s = .next t) : s.OthersKept t := by
  rw [exec_eq] at h
  rcases runCommand_cases i _ s t h with ⟨-, -, rfl⟩ | ⟨err, -, rfl⟩ | ⟨err, -, -, rfl⟩ | ⟨o, -, -, rfl⟩
  · exact finishRaced_others s i
  · exact raise_others s err
  · exact raiseInBody_others s err
  · exact finish_others s o

/-- Running a command changes no byte of memory outside the destination region, and none at all without one. -/
theorem exec_memory {i : Instr} {s t : State} (h : exec i s = .next t) {a : Nat} (hc : t.readByte a ≠ s.readByte a) :
    usesDest i = true ∧ covers s.ops.dest a = true := by
  rw [exec_eq] at h
  by_contra hcon
  have outside : usesDest i = true → covers s.ops.dest a = false := fun hd => by
    cases hcv : covers s.ops.dest a with
    | true => exact absurd ⟨hd, hcv⟩ hcon
    | false => rfl
  rcases runCommand_cases i _ s t h with ⟨hd, -, rfl⟩ | ⟨err, -, rfl⟩ | ⟨err, -, hb, rfl⟩ | ⟨o, -, ho, rfl⟩
  · rw [finishRaced_readByte] at hc
    exact hc (readByte_openRegion s _ a (outside hd))
  · exact hc (raise_readByte s err a)
  · rw [raiseInBody_readByte] at hc
    cases hd : usesDest i with
    | true => exact hc (readByte_openRegion s _ a (outside hd))
    | false => cases i <;> simp [usesDest] at hd <;> simp [bodyOf, aesKeyexpBody] at hb
  · refine hc ((finish_wrote s o).2 a ?_)
    rcases body_fits ho with ⟨hd, hl⟩ | ⟨-, hl⟩
    · have hcv := (covers_false_iff _ _).mp (outside hd)
      have h1 : s.ops.dest.len = s.cap := rfl
      have h2 : s.ops.dest.start = s.dst := rfl
      rw [covers_false_iff]
      simp only
      omega
    · rw [covers_false_iff, hl]
      simp only [List.length_nil]
      omega

/-- What the execution step of engine `e` does to engine `k`. -/
theorem runEngine_engine {s t : State} {e k : Nat} {f g : Engine} (h : runEngine e s = .next t)
    (hf : s.engines[k]? = some f) (hg : t.engines[k]? = some g) :
    g = f ∨ (k = e ∧ f.busy = true ∧ RunLeaves f g) := by
  obtain ⟨x, hx, ⟨-, rfl⟩ | ⟨hp, i, hd, hr⟩ | ⟨hp, err, hd, rfl⟩⟩ := runEngine_cases e s t h
  · exact .inl (by simpa [hf] using hg.symm)
  · have ho := exec_others hr
    by_cases hk : k = e
    · subst hk
      obtain rfl : x = f := by simpa [hx] using hf
      have hl : k < s.engines.length := (List.getElem?_eq_some_iff.mp hf).1
      have hact : ({ s with active := k } : State).acting = x := acting_eq _ hf
      have htk : t.acting = g := by
        refine acting_eq t ?_
        rw [ho.active]
        exact hg
      refine .inr ⟨rfl, busy_iff x |>.mpr hp, .inr ⟨i, hd, ?_⟩⟩
      rcases exec_acting hr hl with ⟨hdst, hrc, u, er, n, hu, hi⟩ | ⟨er, hu⟩ | ⟨o, hb, hu⟩
      · rw [hact] at hrc hu
        exact .inl ⟨hdst, hrc, u, er, n, htk ▸ hu, hi⟩
      · rw [hact] at hu
        exact .inr (.inl ⟨er, htk ▸ hu⟩)
      · rw [hact] at hu
        exact .inr (.inr ⟨_, o, hact, hb, htk ▸ hu⟩)
    · refine .inl ?_
      have := ho.others k hk
      rw [hg] at this
      have h2 : s.engines[k]? = some g := this.symm
      exact Option.some.inj (h2.symm.trans hf)
  · by_cases hk : k = e
    · subst hk
      obtain rfl : x = f := by simpa [hx] using hf
      refine .inr ⟨rfl, busy_iff x |>.mpr hp, .inl ⟨err, hd, ?_⟩⟩
      have h2 := mapEngine_self ({ s with active := k } : State) k
        (fun e => e.complete .unsupportedAlgorithm Reg64.zero) (e := x) hf
      exact Option.some.inj (hg.symm.trans h2)
    · refine .inl ?_
      have h2 := mapEngine_other ({ s with active := e } : State) e
        (fun e => e.complete .unsupportedAlgorithm Reg64.zero) hk
      exact Option.some.inj (hg.symm.trans (h2.trans hf))

/-- What a host register write does to engine `k`. -/
theorem hostRegWrite_engine {s t : State} {addr width k : Nat} {v : Word} {f g : Engine}
    (h : hostRegWrite addr width v s = .next t) (hf : s.engines[k]? = some f) (hg : t.engines[k]? = some g) :
    (∃ r, g = { f with raced := r } ∧ (f.busy = false → g = f)) ∨
    (∃ off, addr = s.regAddr k off ∧ width = 4 ∧ off < 0x100 ∧ off % 4 = 0 ∧ WriteLeaves f g off v) := by
  obtain ⟨e, off, haddr, hw, he, ho, h4, rfl⟩ := hostRegWrite_cases addr width v s t h
  by_cases hk : k = e
  · subst hk
    refine .inr ⟨off, haddr, hw, ho, h4, ?_⟩
    have hgd : s.engines.getD k Engine.reset = f := by simp [List.getD_eq_getElem?_getD, hf]
    rcases writeRegister_cases s k (regAt off) v with ⟨hr, hv, hbz, hq⟩ | ⟨hr, hv, hq⟩ | ⟨hr, hq⟩
    · rw [hgd] at hbz
      rw [hq, acceptStart_self _ hf hbz] at hg
      exact .inl ⟨(regAt_ctrl h4).mp hr, hv, hbz, _, (Option.some.inj hg).symm⟩
    · rw [hgd] at hv
      rw [hq, mapEngine_self s k _ hf] at hg
      exact .inr (.inl ⟨(regAt_ctrl h4).mp hr, hv, (Option.some.inj hg).symm⟩)
    · rw [hq, mapEngine_self s k _ hf] at hg
      exact .inr (.inr ⟨fun h0 => hr ((regAt_ctrl h4).mpr h0), (Option.some.inj hg).symm⟩)
  · refine .inl ?_
    rcases writeRegister_cases s e (regAt off) v with ⟨-, -, -, hq⟩ | ⟨-, -, hq⟩ | ⟨-, hq⟩
    · rw [hq, acceptStart_other s _ hk, hf, Option.map_some, Option.some.injEq] at hg
      subst hg
      cases hc : (f.busy && conflict (s.engines.getD e Engine.reset).regs f.latched) with
      | false => exact ⟨f.raced, by simp, fun _ => by simp⟩
      | true =>
        refine ⟨true, by simp, fun hbz => ?_⟩
        simp [hbz] at hc
    · rw [hq, mapEngine_other s e _ hk, hf, Option.some.injEq] at hg
      exact ⟨f.raced, by rw [← hg], fun _ => hg.symm⟩
    · rw [hq, mapEngine_other s e _ hk, hf, Option.some.injEq] at hg
      exact ⟨f.raced, by rw [← hg], fun _ => hg.symm⟩

/-- Marking races does to an engine no more than set `raced`, and nothing to an IDLE one. -/
theorem markRaced_keeps {s : State} {p : OperandRegs → Bool} {k : Nat} {f g : Engine} (hf : s.engines[k]? = some f)
    (hg : (s.markRaced p).engines[k]? = some g) : ∃ r, g = { f with raced := r } ∧ (f.busy = false → g = f) := by
  rw [markRaced_engine, hf, Option.map_some, Option.some.injEq] at hg
  subst hg
  cases hc : (f.busy && p f.latched) with
  | false => exact ⟨f.raced, by simp, fun _ => by simp⟩
  | true =>
    refine ⟨true, by simp, fun hbz => ?_⟩
    simp [hbz] at hc

/-- What a reset of engine `e` does to engine `k`. -/
theorem platformReset_engine {s t : State} {e k : Nat} {f g : Engine} (h : platformReset e s = .next t)
    (hf : s.engines[k]? = some f) (hg : t.engines[k]? = some g) :
    g = f ∨ (k = e ∧ ∃ rk, g = { Engine.reset with rk := rk }) := by
  obtain ⟨x, s1, hx, hs1, rfl⟩ := platformReset_cases e s t h
  have he : s1.engines = s.engines := by rw [hs1]; exact (openRegions_fold _ s).2.1
  have hf1 : s1.engines[k]? = some f := by rw [he]; exact hf
  by_cases hk : k = e
  · subst hk
    have h2 := mapEngine_self s1 k (fun _ => { Engine.reset with rk := freeRoundKeys s1.draws }) hf1
    exact .inr ⟨rfl, _, Option.some.inj (hg.symm.trans h2)⟩
  · have h2 := mapEngine_other s1 e (fun _ => { Engine.reset with rk := freeRoundKeys s1.draws }) hk
    exact .inl (Option.some.inj (hg.symm.trans (h2.trans hf1)))

/-- All that one step can do to one engine: at most mark a race, a host write to it, its execution step, or its reset. -/
theorem step_engine {s t : State} {k : Nat} {f g : Engine} (h : step s = .next t) (hf : s.engines[k]? = some f)
    (hg : t.engines[k]? = some g) :
    (∃ r, g = { f with raced := r } ∧ (f.busy = false → g = f)) ∨
    (∃ off v, s.NextWrites k off v ∧ off < 0x100 ∧ off % 4 = 0 ∧ WriteLeaves f g off v) ∨
    (s.NextRuns k ∧ f.busy = true ∧ RunLeaves f g) ∨
    (s.NextResets k ∧ ∃ rk, g = { Engine.reset with rk := rk }) := by
  have same : g = f → ∃ r, g = { f with raced := r } ∧ (f.busy = false → g = f) :=
    fun hgf => ⟨f.raced, by rw [hgf], fun _ => hgf⟩
  rcases step_cases s t h with ⟨ev, rest, ha, hev⟩ | ⟨e, ha, hfi, hr⟩ | ⟨-, -, rfl⟩
  · have hf' : ({ s with agenda := rest } : State).engines[k]? = some f := hf
    cases ev with
    | regWrite addr width v =>
      rcases hostRegWrite_engine hev hf' hg with hs | ⟨off, haddr, hw, ho, h4, hl⟩
      · exact .inl hs
      · exact .inr (.inl ⟨off, v, ⟨rest, by rw [ha, haddr, hw]; rfl⟩, ho, h4, hl⟩)
    | regRead addr width =>
      obtain ⟨e, off, -, -, -, -, -, rfl⟩ := hostRegRead_cases addr width _ t hev
      exact .inl (same (Option.some.inj (hg.symm.trans hf)))
    | memWrite a b =>
      obtain ⟨-, rfl⟩ := hostMemWrite_cases a b _ t hev
      exact .inl (markRaced_keeps (p := fun r => (r.reads ++ r.writes).any (fun x => covers x a)) hf' hg)
    | memRead a =>
      obtain ⟨-, ⟨-, rfl⟩ | ⟨-, rfl⟩⟩ := hostMemRead_cases a _ t hev
      · exact .inl (markRaced_keeps (p := fun r => r.writes.any (fun x => covers x a)) hf' hg)
      · exact .inl (same (Option.some.inj (hg.symm.trans hf)))
    | run e =>
      rcases runEngine_engine hev hf' hg with hgf | ⟨rfl, hb, hl⟩
      · exact .inl (same hgf)
      · exact .inr (.inr (.inl ⟨.inl ⟨rest, ha⟩, hb, hl⟩))
    | reset e =>
      rcases platformReset_engine hev hf' hg with hgf | ⟨rfl, hl⟩
      · exact .inl (same hgf)
      · exact .inr (.inr (.inr ⟨⟨rest, ha⟩, hl⟩))
  · rcases runEngine_engine hr hf hg with hgf | ⟨rfl, hb, hl⟩
    · exact .inl (same hgf)
    · exact .inr (.inr (.inl ⟨.inr ⟨ha, hfi⟩, hb, hl⟩))
  · exact .inl (same (Option.some.inj (hg.symm.trans hf)))

/-- The number of engines and the platform never change. -/
theorem step_fixed {s t : State} (h : step s = .next t) :
    t.platform = s.platform ∧ t.engines.length = s.engines.length := by
  have run : ∀ (e : Nat) (u : State), runEngine e u = .next t →
      t.platform = u.platform ∧ t.engines.length = u.engines.length := by
    intro e u hr
    obtain ⟨x, -, ⟨-, rfl⟩ | ⟨-, i, -, hx⟩ | ⟨-, err, -, rfl⟩⟩ := runEngine_cases e u t hr
    · exact ⟨rfl, rfl⟩
    · have ho := exec_others hx
      exact ⟨ho.platform, ho.count⟩
    · have ho := raise_others ({ u with active := e } : State) .unsupportedAlgorithm
      exact ⟨ho.platform, ho.count⟩
  rcases step_cases s t h with ⟨ev, rest, -, hev⟩ | ⟨e, -, -, hr⟩ | ⟨-, -, rfl⟩
  · cases ev with
    | regWrite addr width v =>
      obtain ⟨e, off, -, -, -, -, -, rfl⟩ := hostRegWrite_cases addr width v _ t hev
      rcases writeRegister_cases ({ s with agenda := rest } : State) e (regAt off) v with
        ⟨-, -, -, hq⟩ | ⟨-, -, hq⟩ | ⟨-, hq⟩
      · rw [hq]
        exact ⟨rfl, by simp⟩
      · rw [hq]
        exact ⟨rfl, by simp⟩
      · rw [hq]
        exact ⟨rfl, by simp⟩
    | regRead addr width =>
      obtain ⟨e, off, -, -, -, -, -, rfl⟩ := hostRegRead_cases addr width _ t hev
      exact ⟨rfl, rfl⟩
    | memWrite a b =>
      obtain ⟨-, rfl⟩ := hostMemWrite_cases a b _ t hev
      exact ⟨rfl, by simp⟩
    | memRead a =>
      obtain ⟨-, ⟨-, rfl⟩ | ⟨-, rfl⟩⟩ := hostMemRead_cases a _ t hev
      · exact ⟨rfl, by simp⟩
      · exact ⟨rfl, rfl⟩
    | run e => exact run e { s with agenda := rest } hev
    | reset e =>
      obtain ⟨x, s1, -, hs1, rfl⟩ := platformReset_cases e _ t hev
      have hfold := openRegions_fold x.abandoned ({ s with agenda := rest } : State)
      rw [← hs1] at hfold
      exact ⟨hfold.1, by simp [hfold.2.1]⟩
  · exact run e s hr
  · exact ⟨rfl, rfl⟩

end Sys2Proof.Machine
end

