-- ==== Sys2Proof/Tests/Slice0.lean ====
section
/-! SUPPORT. Tests: the well-formedness smoke test, the decoding of words written out from the spec, small steps whose
results are the vectors of spec/95_test_vectors.md, and a witness for every statement that has hypotheses. -/

namespace Sys2Proof.Tests

open Sys2Proof.Machine

-- The theorems are checked one after another, which keeps the number of threads small.
set_option Elab.async false

/-! ## Well-formedness smoke test (30_encoding.md R100, R104; 00_scope.md R6) -/

theorem test_wf_refuses_reserved_bits : CmdWord.wf { op := 0x10, rsv := 1 } = false := by decide
theorem test_wf_refuses_unassigned_opcode : CmdWord.wf { op := 0x05, rsv := 0 } = false := by decide
theorem test_wf_accepts_every_command : ∀ op ∈ assignedOpcodes, CmdWord.wf { op := op, rsv := 0 } = true := by decide
theorem test_wf_refuses_no_address_bits :
    Config.Platform.wf { magic := 0, addrW := 0, base := 0, unbacked := [] } = false := by decide
theorem test_wf_refuses_65_address_bits :
    Config.Platform.wf { magic := 0, addrW := 65, base := 0, unbacked := [] } = false := by decide

/-! ## Decoding: each word written out from 30_encoding.md R100, R101 as OP in bits 7:0 and RSV in bits 31:8 -/

theorem test_decode_nop : decode 0b000000000000000000000000_00000000#32 = .ok .nop := by decide
theorem test_decode_hdrWr : decode 0b000000000000000000000000_00000001#32 = .ok .hdrWr := by decide
theorem test_decode_hdrRd : decode 0b000000000000000000000000_00000010#32 = .ok .hdrRd := by decide
theorem test_decode_hufEnc : decode 0b000000000000000000000000_00010000#32 = .ok .hufEnc := by decide
theorem test_decode_hufDec : decode 0b000000000000000000000000_00010001#32 = .ok .hufDec := by decide
theorem test_decode_lzwEnc : decode 0b000000000000000000000000_00100000#32 = .ok .lzwEnc := by decide
theorem test_decode_lzwDec : decode 0b000000000000000000000000_00100001#32 = .ok .lzwDec := by decide
theorem test_decode_rleEnc : decode 0b000000000000000000000000_00110000#32 = .ok .rleEnc := by decide
theorem test_decode_rleDec : decode 0b000000000000000000000000_00110001#32 = .ok .rleDec := by decide
theorem test_decode_aesKeyexp : decode 0b000000000000000000000000_01000000#32 = .ok .aesKeyexp := by decide
theorem test_decode_aesEnc : decode 0b000000000000000000000000_01000001#32 = .ok .aesEnc := by decide
theorem test_decode_aesDec : decode 0b000000000000000000000000_01000010#32 = .ok .aesDec := by decide
theorem test_decode_aesRawEnc : decode 0b000000000000000000000000_01000011#32 = .ok .aesRawEnc := by decide
theorem test_decode_aesRawDec : decode 0b000000000000000000000000_01000100#32 = .ok .aesRawDec := by decide
theorem test_decode_unassigned : decode 0x00000005#32 = .error (.unassignedOpcode 0x05) := by decide
theorem test_decode_reserved : decode 0x00000110#32 = .error (.reservedBits 1) := by decide
theorem test_decode_table_word : decodeTableWord 32 0x43 = some .aesRawEnc := by decide

/-! ## Small states -/

/-- A platform with one unbacked range. -/
def plat : Config.Platform := { magic := 0x11223344, addrW := 64, base := 0x40000000, unbacked := [{ start := 0x9000, len := 0x1000 }] }

/-- Operand registers; the name is the five bytes at 0x3000. -/
def regs (cmd : Word) (src slen dst cap : Nat) : OperandRegs :=
  { OperandRegs.reset with
    cmd := cmd, srcAddr := Reg64.ofNat src, srcLen := Reg64.ofNat slen, dstAddr := Reg64.ofNat dst
    dstCap := Reg64.ofNat cap, nameAddr := Reg64.ofNat 0x3000, nameLen := 5, hsize := Reg64.ofNat 6 }

/-- An IDLE engine with operand registers. -/
def idle (r : OperandRegs) : Engine := { Engine.reset with regs := r }

/-- A RUNNING engine with latched operands. -/
def running (r : OperandRegs) : Engine := { Engine.reset with regs := r, latched := r, phase := .running }

/-- The name "a.txt" and a source string, as memory. -/
def memOf (src : List Byte) : Memory := Memory.cells 0x1000 src ++ Memory.cells 0x3000 [0x61, 0x2e, 0x74, 0x78, 0x74]

/-- A state of some engines, a memory and the coming events. -/
def mk (es : List Engine) (mem : Memory) (agenda : List Event) : State :=
  { platform := plat, engines := es, mem := mem, openRegions := [], draws := 0, active := 0, agenda := agenda, hostData := .none }

/-- The state in which engine 0 runs a command on a source at 0x1000 with a destination at 0x2000. -/
def cmdState (cmd : Word) (src : List Byte) (cap : Nat) : State :=
  mk [running (regs cmd 0x1000 src.length 0x2000 cap)] (memOf src) []

/-- The same, with the round keys of a key. -/
def keyed (key : List Byte) (s : State) : State :=
  s.mapActing (fun e => { e with rk := keyExpansion key, keyValid := true })

/-- The key K1 of spec/95_test_vectors.md: 00 01 … 1f. -/
def k1 : List Byte := (List.range 32).map (BitVec.ofNat 8)

/-- The header of an artifact of a source "a.txt" of a size. -/
def hdr (size : Nat) (flags : Word) : List Byte :=
  mkHeader plat.magic size ([0x61, 0x2e, 0x74, 0x78, 0x74] ++ List.replicate 251 0x00) flags

/-- The next state of an outcome. -/
def after (o : Host.Outcome State Fault Refusal) : State :=
  match o with
  | .next t => t
  | .fault _ => State.reset
  | .refused _ => State.reset

/-- What a command leaves: its status, its OUT_LEN, and that many bytes at its destination. -/
def result (i : Instr) (s : State) : Option (Status × Nat × List Byte) :=
  match exec i s with
  | .next t => some (t.acting.err, t.acting.outLen.value, t.readBytes s.dst t.acting.outLen.value)
  | .fault _ => none
  | .refused _ => none

/-! ## One step of each command, on vectors of spec/95_test_vectors.md -/

/-- "ABRACADABRA". -/
def abra : List Byte := [0x41, 0x42, 0x52, 0x41, 0x43, 0x41, 0x44, 0x41, 0x42, 0x52, 0x41]

/-- The body of V-H1. -/
def abraBody : List Byte :=
  [0x05, 0x00, 0x00, 0x00, 0x41, 0x05, 0x00, 0x00, 0x00, 0x42, 0x02, 0x00, 0x00, 0x00, 0x43, 0x01, 0x00, 0x00,
   0x00, 0x44, 0x01, 0x00, 0x00, 0x00, 0x52, 0x02, 0x00, 0x00, 0x00, 0x17, 0x00, 0x00, 0x00, 0x6e, 0x8a, 0xdc]

/-- The body of V-L1, for "TOBEORNOTTOBEORTOBEORNOT". -/
def tobeBody : List Byte :=
  [0x10, 0x00, 0x00, 0x00, 0x54, 0x00, 0x4f, 0x00, 0x42, 0x00, 0x45, 0x00, 0x4f, 0x00, 0x52, 0x00, 0x4e, 0x00,
   0x4f, 0x00, 0x54, 0x00, 0x00, 0x01, 0x02, 0x01, 0x04, 0x01, 0x09, 0x01, 0x03, 0x01, 0x05, 0x01, 0x07, 0x01]

/-- The body of V-R1, for "AAABCC". -/
def runsBody : List Byte := [0x03, 0x00, 0x00, 0x00, 0x41, 0x01, 0x00, 0x00, 0x00, 0x42, 0x02, 0x00, 0x00, 0x00, 0x43]

/-- The ciphertext of V-A8, for "hello" under K1. -/
def helloBody : List Byte :=
  [0x91, 0x68, 0x44, 0x87, 0xc3, 0x4c, 0x34, 0x56, 0xeb, 0x4e, 0x90, 0x1c, 0xef, 0x88, 0x4a, 0x1e]

/-- "TOBEORNOTTOBEORTOBEORNOT" and "AAABCC". -/
def tobe : List Byte :=
  [0x54, 0x4f, 0x42, 0x45, 0x4f, 0x52, 0x4e, 0x4f, 0x54, 0x54, 0x4f, 0x42, 0x45, 0x4f, 0x52, 0x54, 0x4f, 0x42,
   0x45, 0x4f, 0x52, 0x4e, 0x4f, 0x54]
def runs : List Byte := [0x41, 0x41, 0x41, 0x42, 0x43, 0x43]

/-- "hello". -/
def hello : List Byte := [0x68, 0x65, 0x6c, 0x6c, 0x6f]

/-- The block of V-A4 and its ciphertext under K1. -/
def block : List Byte :=
  [0x00, 0x11, 0x22, 0x33, 0x44, 0x55, 0x66, 0x77, 0x88, 0x99, 0xaa, 0xbb, 0xcc, 0xdd, 0xee, 0xff]
def blockEnc : List Byte :=
  [0x8e, 0xa2, 0xb7, 0xca, 0x51, 0x67, 0x45, 0xbf, 0xea, 0xfc, 0x49, 0x90, 0x4b, 0x49, 0x60, 0x89]

-- V-E1.
theorem test_nop : result .nop (cmdState 0x00 [] 0) = some (.ok, 0, []) := by decide +kernel

-- V-C1, V-C2.
theorem test_hdrWr : result .hdrWr (cmdState 0x01 [] 272) = some (.ok, 272,
    [0x44, 0x33, 0x22, 0x11, 0x06, 0x00, 0x00, 0x00, 0x00, 0x00, 0x00, 0x00, 0x61, 0x2e, 0x74, 0x78, 0x74] ++
      List.replicate 255 0x00) := by decide +kernel
theorem test_hdrWr_cap : (after (exec .hdrWr (cmdState 0x01 [] 271))).acting.statusWord = 0x00000502 := by decide +kernel

-- V-C5, V-C6.
theorem test_hdrRd : (result .hdrRd (cmdState 0x02 (hdr 6 0x00000001) 256) = some (.ok, 256,
    [0x61, 0x2e, 0x74, 0x78, 0x74] ++ List.replicate 251 0x00)) ∧
    (after (exec .hdrRd (cmdState 0x02 (hdr 6 0x00000001) 256))).acting.hdrSize.value = 6 ∧
    (after (exec .hdrRd (cmdState 0x02 (hdr 6 0x00000001) 256))).acting.hdrFlags = 0x00000001 := by decide +kernel
theorem test_hdrRd_short : (after (exec .hdrRd (cmdState 0x02 ((hdr 6 0).take 271) 256))).acting.statusWord =
    0x00000102 := by decide +kernel

-- V-H1, V-H28.
theorem test_hufEnc : result .hufEnc (cmdState 0x10 abra 0x200) = some (.ok, 308, hdr 11 0 ++ abraBody) := by
  decide +kernel
theorem test_hufEnc_cap : (after (exec .hufEnc (cmdState 0x10 abra 307))).acting.err = .ioFailure := by decide +kernel

-- V-H1 decoded, V-H11 (total_bits 21).
theorem test_hufDec : result .hufDec (cmdState 0x11 (hdr 11 0 ++ abraBody) 11) = some (.ok, 11, abra) := by decide +kernel
theorem test_hufDec_cut : (after (exec .hufDec (cmdState 0x11 (hdr 11 0 ++ abraBody.set 29 0x15) 11))).acting.err =
    .corruptInput := by decide +kernel

-- V-L1, V-L4.
theorem test_lzwEnc : result .lzwEnc (cmdState 0x20 tobe 0x200)
    = some (.ok, 308, hdr 24 0 ++ tobeBody) := by decide +kernel
theorem test_lzwEnc_empty : result .lzwEnc (cmdState 0x20 [] 276) = some (.ok, 276, hdr 0 0 ++ [0x00, 0x00, 0x00, 0x00]) := by
  decide +kernel

-- V-L9 (KwKwK), V-L10.
theorem test_lzwDec : result .lzwDec (cmdState 0x21 (hdr 3 0 ++ [0x02, 0x00, 0x00, 0x00, 0x41, 0x00, 0x00, 0x01]) 3) =
    some (.ok, 3, [0x41, 0x41, 0x41]) := by decide +kernel
theorem test_lzwDec_invalid_code : (after (exec .lzwDec (cmdState 0x21
    (hdr 3 0 ++ [0x02, 0x00, 0x00, 0x00, 0x41, 0x00, 0x01, 0x01]) 3))).acting.err = .corruptInput := by decide +kernel

-- V-R1, V-R2.
theorem test_rleEnc : result .rleEnc (cmdState 0x30 runs 0x200) = some (.ok, 287, hdr 6 0 ++ runsBody) := by
  decide +kernel
theorem test_rleEnc_empty : result .rleEnc (cmdState 0x30 [] 272) = some (.ok, 272, hdr 0 0) := by decide +kernel

-- V-R7, V-R9.
theorem test_rleDec : result .rleDec (cmdState 0x31 (hdr 6 0 ++ runsBody) 6) = some (.ok, 6, runs) := by
  decide +kernel
theorem test_rleDec_short : (after (exec .rleDec (cmdState 0x31 (hdr 7 0 ++ runsBody) 7))).acting.err = .sizeMismatch := by
  decide +kernel

-- V-A1, V-A2.
theorem test_aesKeyexp : ((keyExpansion k1).toList.getD 8 default).bytes = [0xa5, 0x73, 0xc2, 0x9f] ∧
    ((keyExpansion k1).toList.getD 59 default).bytes = [0x6d, 0x68, 0xde, 0x36] := by decide +kernel
theorem test_aesKeyexp_zero_key :
    ((after (exec .aesKeyexp (cmdState 0x40 [] 0))).acting.rk.toList.getD 12 default).bytes = [0xaa, 0xfb, 0xfb, 0xfb] ∧
    (after (exec .aesKeyexp (cmdState 0x40 [] 0))).acting.keyValid = true := by decide +kernel

-- V-A8, V-E4.
theorem test_aesEnc : result .aesEnc (keyed k1 (cmdState 0x41 hello 288)) = some (.ok, 288, hdr 5 1 ++ helloBody) := by
  decide +kernel
theorem test_aesEnc_no_key : (after (exec .aesEnc (cmdState 0x41 hello 288))).acting.statusWord = 0x00000602 := by
  decide +kernel

-- V-A8 decoded, V-A12 (the wrong key).
theorem test_aesDec : result .aesDec (keyed k1 (cmdState 0x42 (hdr 5 1 ++ helloBody) 5)) = some (.ok, 5, hello) := by
  decide +kernel
theorem test_aesDec_wrong_key :
    (after (exec .aesDec (keyed (List.replicate 32 0) (cmdState 0x42 (hdr 5 1 ++ helloBody) 5)))).acting.statusWord =
      0x00000302 := by decide +kernel

-- V-A4, V-A21.
theorem test_aesRawEnc : result .aesRawEnc (keyed k1 (cmdState 0x43 block 16)) = some (.ok, 16, blockEnc) := by
  decide +kernel
theorem test_aesRawEnc_length : (after (exec .aesRawEnc (keyed k1 (cmdState 0x43 (block.take 15) 16)))).acting.err =
    .corruptInput := by decide +kernel

-- V-A4 back, V-A22.
theorem test_aesRawDec : result .aesRawDec (keyed k1 (cmdState 0x44 blockEnc 16)) = some (.ok, 16, block) := by
  decide +kernel
theorem test_aesRawDec_cap : (after (exec .aesRawDec (keyed k1 (cmdState 0x44 (block ++ block) 16)))).acting.err =
    .ioFailure := by decide +kernel

-- V-E3, V-E5, V-E7.
theorem test_invalid_word : (after (step (mk [running (regs 0x110 0 0 0 0)] [] [.run 0]))).acting.statusWord =
    0x00000402 := by decide +kernel
theorem test_overlap : (after (exec .rleEnc (mk [running (regs 0x30 0x1000 16 0x1008 0x100)] [] []))).acting.err =
    .ioFailure := by decide +kernel
theorem test_empty_buffer_anywhere :
    ((after (exec .rleEnc (mk [running (regs 0x30 0xFFFFFFFFFFFFFFFF 0 0x2000 0x200)] (memOf []) []))).acting.outLen.value
      = 272) := by decide +kernel

-- V-E12: DONE is cleared, ERR is kept.
theorem test_acknowledge : (after (step (mk [{ idle (regs 0 0 0 0 0) with done := true, err := .ioFailure }] []
    [.regWrite 0x40000004 4 0x00000002]))).acting.statusWord = 0x00000500 := by decide +kernel

-- A word placed for the first step after reset runs: NOP completes.
theorem test_first_step : (after (step (State.reset.withFetchWord 32 0))).acting.statusWord = 0x00000002 := by
  decide +kernel

/-! ## Witnesses: for every statement with hypotheses, states and operands that meet them all, one for each clause, at
the boundary values where a clause has a range -/

/-- A ready command, from facts that evaluate. -/
theorem ready_of {s : State} {i : Instr}
    (h : s.active < s.engines.length ∧ s.acting.raced = false ∧ s.preCheck i = none) : s.Ready i := (ready_iff s i).mpr h

/-- Engine 0 RUNNING the word 0x43, engine 1 IDLE; the next event. -/
def two (ev : Event) : State :=
  mk [running (regs 0x43 0x1000 16 0x2000 16), idle (regs 0x44 0x5000 16 0x6000 16)] [] [ev]

/-- Engine 0 RUNNING a command word. -/
def badWord (n : Nat) : State := mk [running (regs (BitVec.ofNat 32 n) 0 0 0 0)] [] [.run 0]

theorem test_witness_InvalidWord_reserved : ∀ n ∈ [0x00000100, 0x80000000],
    (badWord n).engines[0]? = some (running (regs (BitVec.ofNat 32 n) 0 0 0 0)) ∧
    (running (regs (BitVec.ofNat 32 n) 0 0 0 0)).phase = .running ∧ (badWord n).agenda = .run 0 :: [] ∧
    (splitWord (running (regs (BitVec.ofNat 32 n) 0 0 0 0)).latched.cmd).rsv ≠ 0 := by decide
theorem test_witness_InvalidWord_unassigned : ∀ n ∈ [0x03, 0x0F, 0x12, 0x3F, 0x45, 0xFF],
    (badWord n).engines[0]? = some (running (regs (BitVec.ofNat 32 n) 0 0 0 0)) ∧
    (running (regs (BitVec.ofNat 32 n) 0 0 0 0)).phase = .running ∧ (badWord n).agenda = .run 0 :: [] ∧
    (splitWord (running (regs (BitVec.ofNat 32 n) 0 0 0 0)).latched.cmd).op ∉ assignedOpcodes := by decide

theorem test_witness_StepRuns_event : (two (.run 0)).engines[0]? = some (running (regs 0x43 0x1000 16 0x2000 16)) ∧
    (running (regs 0x43 0x1000 16 0x2000 16)).phase = .running ∧
    decode (running (regs 0x43 0x1000 16 0x2000 16)).latched.cmd = .ok .aesRawEnc ∧ (two (.run 0)).agenda = .run 0 :: [] := by
  decide
theorem test_witness_StepRuns_empty : (mk [idle (regs 0 0 0 0 0), running (regs 0x44 0 0 0 0)] [] []).agenda = [] ∧
    (mk [idle (regs 0 0 0 0 0), running (regs 0x44 0 0 0 0)] [] []).engines[1]? = some (running (regs 0x44 0 0 0 0)) ∧
    (running (regs 0x44 0 0 0 0)).phase = .running ∧
    (mk [idle (regs 0 0 0 0 0), running (regs 0x44 0 0 0 0)] [] []).engines.findIdx? Engine.busy = some 1 ∧
    decode (running (regs 0x44 0 0 0 0)).latched.cmd = .ok .aesRawDec := by decide

theorem test_witness_EveryCommand : (cmdState 0x00 [] 0).active < (cmdState 0x00 [] 0).engines.length := by decide
theorem test_witness_RunningEngines :
    (mk [running (regs 0 0 0 0 0), idle (regs 0x44 0 0 0 0), running (regs 0x44 0 0 0 0)] [] []).agenda = [] := rfl

/-- A write of a value at an offset of engine 1, which is IDLE, or of engine 0, which is RUNNING. -/
def wr (e off : Nat) (v : Word) : State := two (.regWrite ((two (.run 0)).regAddr e off) 4 v)

theorem test_witness_Start : (wr 1 0x000 1).engines[1]? = some (idle (regs 0x44 0x5000 16 0x6000 16)) ∧
    (idle (regs 0x44 0x5000 16 0x6000 16)).phase = .idle ∧
    (wr 1 0x000 1).agenda = .regWrite ((wr 1 0x000 1).regAddr 1 0x000) 4 1 :: [] ∧ (1 : Word).getLsbD 0 = true := by decide
theorem test_witness_Control_running : (wr 0 0x000 3).engines[0]? = some (running (regs 0x43 0x1000 16 0x2000 16)) ∧
    (running (regs 0x43 0x1000 16 0x2000 16)).phase = .running ∧
    (wr 0 0x000 3).agenda = .regWrite ((wr 0 0x000 3).regAddr 0 0x000) 4 3 :: [] := by decide
theorem test_witness_Control_no_start : (wr 1 0x000 2).engines[1]? = some (idle (regs 0x44 0x5000 16 0x6000 16)) ∧
    (wr 1 0x000 2).agenda = .regWrite ((wr 1 0x000 2).regAddr 1 0x000) 4 2 :: [] ∧ (2 : Word).getLsbD 0 = false := by decide
theorem test_witness_Acknowledge_set : (wr 1 0x004 2).engines[1]? = some (idle (regs 0x44 0x5000 16 0x6000 16)) ∧
    (wr 1 0x004 2).agenda = .regWrite ((wr 1 0x004 2).regAddr 1 0x004) 4 2 :: [] ∧
    (idle (regs 0x44 0x5000 16 0x6000 16)).phase = .idle ∧ (2 : Word).getLsbD 1 = true := by decide
theorem test_witness_Acknowledge_clear : (wr 1 0x004 1).engines[1]? = some (idle (regs 0x44 0x5000 16 0x6000 16)) ∧
    (wr 1 0x004 1).agenda = .regWrite ((wr 1 0x004 1).regAddr 1 0x004) 4 1 :: [] ∧
    (idle (regs 0x44 0x5000 16 0x6000 16)).phase = .idle ∧ (1 : Word).getLsbD 1 = false := by decide
theorem test_witness_Acknowledge_running : (wr 0 0x004 2).engines[0]? = some (running (regs 0x43 0x1000 16 0x2000 16)) ∧
    (running (regs 0x43 0x1000 16 0x2000 16)).phase = .running ∧
    (wr 0 0x004 2).agenda = .regWrite ((wr 0 0x004 2).regAddr 0 0x004) 4 2 :: [] := by decide
theorem test_witness_Ignored_running : ∀ off ∈ [0x004, 0x008, 0x0FC],
    (wr 0 off 7).engines[0]? = some (running (regs 0x43 0x1000 16 0x2000 16)) ∧ off < 0x100 ∧ off % 4 = 0 ∧
    (wr 0 off 7).agenda = .regWrite ((wr 0 off 7).regAddr 0 off) 4 7 :: [] ∧
    (running (regs 0x43 0x1000 16 0x2000 16)).phase = .running ∧ off ≠ 0x000 := by decide
theorem test_witness_Ignored_read_only : ∀ off ∈ [0x00C, 0x048, 0x05C, 0x080, 0x0FC],
    (wr 1 off 7).engines[1]? = some (idle (regs 0x44 0x5000 16 0x6000 16)) ∧ off < 0x100 ∧ off % 4 = 0 ∧
    (wr 1 off 7).agenda = .regWrite ((wr 1 off 7).regAddr 1 off) 4 7 :: [] ∧
    (off ∈ [0x00C, 0x048, 0x04C, 0x050, 0x054, 0x058, 0x05C] ∨ 0x080 ≤ off) := by decide
theorem test_witness_WrittenOperand : ∀ off ∈
    [0x008, 0x010, 0x014, 0x018, 0x01C, 0x020, 0x024, 0x028, 0x02C, 0x030, 0x034, 0x038, 0x03C, 0x040, 0x044],
    (wr 1 off 7).engines[1]? = some (idle (regs 0x44 0x5000 16 0x6000 16)) ∧
    (idle (regs 0x44 0x5000 16 0x6000 16)).phase = .idle ∧
    off ∈ [0x008, 0x010, 0x014, 0x018, 0x01C, 0x020, 0x024, 0x028, 0x02C, 0x030, 0x034, 0x038, 0x03C, 0x040, 0x044] ∧
    (wr 1 off 7).agenda = .regWrite ((wr 1 off 7).regAddr 1 off) 4 7 :: [] := by decide
theorem test_witness_KeyWrite : ∀ i ∈ [(0 : Fin 8), 7],
    (wr 1 (0x060 + 4 * i.val) 7).engines[1]? = some (idle (regs 0x44 0x5000 16 0x6000 16)) ∧
    (idle (regs 0x44 0x5000 16 0x6000 16)).phase = .idle ∧
    (wr 1 (0x060 + 4 * i.val) 7).agenda = .regWrite ((wr 1 (0x060 + 4 * i.val) 7).regAddr 1 (0x060 + 4 * i.val)) 4 7 :: [] := by
  decide
theorem test_witness_RegisterReads : ∀ off ∈ [0x000, 0x004, 0x008, 0x00C, 0x010, 0x014, 0x018, 0x01C, 0x020, 0x024, 0x028,
      0x02C, 0x030, 0x034, 0x038, 0x03C, 0x040, 0x044, 0x048, 0x04C, 0x050, 0x054, 0x058, 0x05C, 0x060, 0x0FC],
    (two (.regRead ((two (.run 0)).regAddr 1 off) 4)).engines[1]? = some (idle (regs 0x44 0x5000 16 0x6000 16)) ∧
    off < 0x100 ∧ off % 4 = 0 ∧ (two (.regRead ((two (.run 0)).regAddr 1 off) 4)).agenda =
      .regRead ((two (.regRead ((two (.run 0)).regAddr 1 off) 4)).regAddr 1 off) 4 :: [] := by decide
theorem test_witness_OddAccess_write : ∀ x ∈ [(0x00, 2), (0xFF, 4)],
    1 < (two (.regWrite ((two (.run 0)).regAddr 1 x.1) x.2 7)).engines.length ∧ x.1 < 0x100 ∧ (x.2 ≠ 4 ∨ x.1 % 4 ≠ 0) ∧
    (two (.regWrite ((two (.run 0)).regAddr 1 x.1) x.2 7)).agenda =
      .regWrite ((two (.regWrite ((two (.run 0)).regAddr 1 x.1) x.2 7)).regAddr 1 x.1) x.2 7 :: [] := by decide
theorem test_witness_OddAccess_read : ∀ x ∈ [(0x00, 2), (0xFF, 4)],
    1 < (two (.regRead ((two (.run 0)).regAddr 1 x.1) x.2)).engines.length ∧ x.1 < 0x100 ∧ (x.2 ≠ 4 ∨ x.1 % 4 ≠ 0) ∧
    (two (.regRead ((two (.run 0)).regAddr 1 x.1) x.2)).agenda =
      .regRead ((two (.regRead ((two (.run 0)).regAddr 1 x.1) x.2)).regAddr 1 x.1) x.2 :: [] := by decide

/-! ### Commands that complete -/

theorem test_witness_Nop : (cmdState 0x00 [] 0).active < (cmdState 0x00 [] 0).engines.length := by decide
theorem test_witness_AesKeyexp : (cmdState 0x40 [] 0).active < (cmdState 0x40 [] 0).engines.length := by decide
theorem test_witness_HdrWr : (cmdState 0x01 [] 272).Ready .hdrWr ∧ 272 ≤ (cmdState 0x01 [] 272).cap :=
  ⟨ready_of (by decide +kernel), by decide +kernel⟩
theorem test_witness_HdrRd : (cmdState 0x02 (hdr 6 0) 256).Ready .hdrRd ∧ 272 ≤ (cmdState 0x02 (hdr 6 0) 256).slen ∧
    rd32 (cmdState 0x02 (hdr 6 0) 256).source 0 = (cmdState 0x02 (hdr 6 0) 256).platform.magic.toNat ∧
    256 ≤ (cmdState 0x02 (hdr 6 0) 256).cap :=
  ⟨ready_of (by decide +kernel), by decide +kernel⟩
theorem test_witness_HufEnc : (cmdState 0x10 abra 308).Ready .hufEnc ∧
    (∀ x ∈ alphabet (cmdState 0x10 abra 308).source, x.freq < 2 ^ 32) ∧
    (huffBits (cmdState 0x10 abra 308).source).length < 2 ^ 32 ∧
    (mkHeader plat.magic (cmdState 0x10 abra 308).slen (cmdState 0x10 abra 308).nameField 0x00000000 ++
      leBytes 4 (alphabet (cmdState 0x10 abra 308).source).length ++
      (alphabet (cmdState 0x10 abra 308).source).flatMap (fun x => [x.sym] ++ leBytes 4 x.freq) ++
      leBytes 4 (huffBits (cmdState 0x10 abra 308).source).length ++
      packBits (huffBits (cmdState 0x10 abra 308).source)).length ≤ (cmdState 0x10 abra 308).cap :=
  ⟨ready_of (by decide +kernel), by decide +kernel⟩
theorem test_witness_LzwEnc : (cmdState 0x20 abra 294).Ready .lzwEnc ∧
    (lzwEncode (cmdState 0x20 abra 294).source).length < 2 ^ 32 ∧
    (mkHeader plat.magic (cmdState 0x20 abra 294).slen (cmdState 0x20 abra 294).nameField 0x00000000 ++
      leBytes 4 (lzwEncode (cmdState 0x20 abra 294).source).length ++
      (lzwEncode (cmdState 0x20 abra 294).source).flatMap (leBytes 2)).length ≤ (cmdState 0x20 abra 294).cap :=
  ⟨ready_of (by decide +kernel), by decide +kernel⟩
theorem test_witness_RleEnc : (cmdState 0x30 hello 292).Ready .rleEnc ∧
    (mkHeader plat.magic (cmdState 0x30 hello 292).slen (cmdState 0x30 hello 292).nameField 0x00000000 ++
      (rleRuns (cmdState 0x30 hello 292).source).flatMap (fun r => leBytes 4 r.len ++ [r.byte])).length ≤
        (cmdState 0x30 hello 292).cap :=
  ⟨ready_of (by decide +kernel), by decide +kernel⟩
theorem test_witness_AesEnc : (keyed k1 (cmdState 0x41 hello 288)).Ready .aesEnc ∧
    (mkHeader plat.magic 5 (keyed k1 (cmdState 0x41 hello 288)).nameField 0x00000001 ++
      ecbEnc (keyed k1 (cmdState 0x41 hello 288)).acting.rk (pkcs7Pad (keyed k1 (cmdState 0x41 hello 288)).source)).length ≤
        (keyed k1 (cmdState 0x41 hello 288)).cap :=
  ⟨ready_of (by decide +kernel), by decide +kernel⟩

/-- The source of a test state is the string placed at 0x1000. -/
theorem cmd_source (cmd : Word) (src : List Byte) (cap : Nat) (h : src.length < 2 ^ 64) :
    (cmdState cmd src cap).source = src := by
  have h1 : (cmdState cmd src cap).source =
      (cmdState cmd src cap).readBytes (Reg64.ofNat 0x1000).value (Reg64.ofNat src.length).value := rfl
  rw [h1, ofNat_value h, ofNat_value (by decide)]
  apply List.ext_getElem
  · simp
  · intro i hi1 hi2
    have hg : Memory.get? (memOf src) (0x1000 + i) = some src[i] := by
      rw [memOf, get?_append, get?_cells]
      simp [hi2]
    simp only [State.readBytes, List.getElem_map, List.getElem_range, State.readByte]
    show (match Memory.get? (memOf src) (0x1000 + i) with | some b => b | none => _) = src[i]
    rw [hg]

/-- Round keys do not change the source. -/
theorem keyed_source (key : List Byte) (cmd : Word) (src : List Byte) (cap : Nat) (h : src.length < 2 ^ 64) :
    (keyed key (cmdState cmd src cap)).source = src := cmd_source cmd src cap h

/-- What a parsed header of a test artifact is. -/
def head (size : Nat) (flags : Nat) : Header :=
  { orig := size, name := [0x61, 0x2e, 0x74, 0x78, 0x74] ++ List.replicate 251 0x00, flags := flags }

theorem test_witness_HufDec : (cmdState 0x11 (hdr 11 0 ++ abraBody) 11).Ready .hufDec ∧
    parseHeader plat.magic (cmdState 0x11 (hdr 11 0 ++ abraBody) 11).source 308 = .ok (head 11 0) ∧
    11 ≤ (cmdState 0x11 (hdr 11 0 ++ abraBody) 11).cap ∧ abra.length = 11 ∧
    huffDecode 11 (cmdState 0x11 (hdr 11 0 ++ abraBody) 11).source = .ok abra := by
  refine ⟨ready_of (by decide +kernel), ?_⟩
  rw [cmd_source 0x11 (hdr 11 0 ++ abraBody) 11 (by decide +kernel)]
  decide +kernel
theorem test_witness_LzwDec : (cmdState 0x21 (hdr 24 0 ++ tobeBody) 24).Ready .lzwDec ∧
    parseHeader plat.magic (cmdState 0x21 (hdr 24 0 ++ tobeBody) 24).source 308 = .ok (head 24 0) ∧
    24 ≤ (cmdState 0x21 (hdr 24 0 ++ tobeBody) 24).cap ∧ tobe.length = 24 ∧
    lzwUnpack 24 (cmdState 0x21 (hdr 24 0 ++ tobeBody) 24).source = .ok tobe := by
  refine ⟨ready_of (by decide +kernel), ?_⟩
  rw [cmd_source 0x21 (hdr 24 0 ++ tobeBody) 24 (by decide +kernel)]
  decide +kernel
theorem test_witness_RleDec : (cmdState 0x31 (hdr 6 0 ++ runsBody) 6).Ready .rleDec ∧
    parseHeader plat.magic (cmdState 0x31 (hdr 6 0 ++ runsBody) 6).source 287 = .ok (head 6 0) ∧
    6 ≤ (cmdState 0x31 (hdr 6 0 ++ runsBody) 6).cap ∧ runs.length = 6 ∧
    rleDecodeFrom 6 [] ((cmdState 0x31 (hdr 6 0 ++ runsBody) 6).source.drop 272) = .ok runs := by
  refine ⟨ready_of (by decide +kernel), ?_⟩
  rw [cmd_source 0x31 (hdr 6 0 ++ runsBody) 6 (by decide +kernel)]
  decide +kernel
theorem test_witness_AesDec : (keyed k1 (cmdState 0x42 (hdr 5 1 ++ helloBody) 5)).Ready .aesDec ∧
    parseHeader plat.magic (keyed k1 (cmdState 0x42 (hdr 5 1 ++ helloBody) 5)).source 288 = .ok (head 5 1) ∧
    5 ≤ (keyed k1 (cmdState 0x42 (hdr 5 1 ++ helloBody) 5)).cap ∧ hello.length = 5 ∧
    272 < (keyed k1 (cmdState 0x42 (hdr 5 1 ++ helloBody) 5)).slen ∧
    (keyed k1 (cmdState 0x42 (hdr 5 1 ++ helloBody) 5)).slen % 16 = 0 ∧
    pkcs7Unpad (ecbDec (keyed k1 (cmdState 0x42 (hdr 5 1 ++ helloBody) 5)).acting.rk
      ((keyed k1 (cmdState 0x42 (hdr 5 1 ++ helloBody) 5)).source.drop 272)) = .ok hello := by
  refine ⟨ready_of (by decide +kernel), ?_⟩
  rw [keyed_source k1 0x42 (hdr 5 1 ++ helloBody) 5 (by decide +kernel)]
  decide +kernel
theorem test_witness_AesRaw : (keyed k1 (cmdState 0x43 block 16)).Ready .aesRawEnc ∧
    (keyed k1 (cmdState 0x44 [] 0)).Ready .aesRawDec ∧ (keyed k1 (cmdState 0x43 block 16)).slen % 16 = 0 ∧
    (keyed k1 (cmdState 0x43 block 16)).slen ≤ (keyed k1 (cmdState 0x43 block 16)).cap ∧
    (keyed k1 (cmdState 0x44 [] 0)).slen % 16 = 0 ∧
    (keyed k1 (cmdState 0x44 [] 0)).slen ≤ (keyed k1 (cmdState 0x44 [] 0)).cap :=
  ⟨ready_of (by decide +kernel), ready_of (by decide +kernel), by decide +kernel⟩

/-! ### Commands that fail -/

theorem test_witness_MissingKey : Instr.aesDec ∈ [Instr.aesEnc, .aesDec, .aesRawEnc, .aesRawDec] ∧
    (cmdState 0x42 [] 0).active < (cmdState 0x42 [] 0).engines.length ∧ (cmdState 0x42 [] 0).acting.raced = false ∧
    (cmdState 0x42 [] 0).acting.keyValid = false := by decide

/-- An RLE_ENC with operands of one's own. -/
def rleOn (r : OperandRegs) : State := mk [running r] [] []

theorem test_witness_BadBuffer_source : (rleOn (regs 0x30 0xFFFFFFFFFFFFFFFF 2 0x2000 0x200)).acting.raced = false ∧
    (rleOn (regs 0x30 0xFFFFFFFFFFFFFFFF 2 0x2000 0x200)).active < 1 ∧ needsKey .rleEnc = false ∧ usesSource .rleEnc = true ∧
    rangeOK plat (rleOn (regs 0x30 0xFFFFFFFFFFFFFFFF 2 0x2000 0x200)).ops.source = false := by decide +kernel
theorem test_witness_BadBuffer_name : (rleOn { regs 0x30 0 0 0 0 with nameAddr := Reg64.ofNat 0x8FFC }).acting.raced = false ∧
    (rleOn { regs 0x30 0 0 0 0 with nameAddr := Reg64.ofNat 0x8FFC }).active < 1 ∧ needsKey .rleEnc = false ∧
    usesName .rleEnc = true ∧
    rangeOK plat (rleOn { regs 0x30 0 0 0 0 with nameAddr := Reg64.ofNat 0x8FFC }).ops.name = false := by decide +kernel
theorem test_witness_BadBuffer_dest : (rleOn (regs 0x30 0 0 0x9FFF 1)).acting.raced = false ∧
    (rleOn (regs 0x30 0 0 0x9FFF 1)).active < 1 ∧ needsKey .rleEnc = false ∧ usesDest .rleEnc = true ∧
    rangeOK plat (rleOn (regs 0x30 0 0 0x9FFF 1)).ops.dest = false := by decide +kernel
theorem test_witness_BadBuffer_source_overlap : (rleOn (regs 0x30 0x1000 16 0x100F 1)).acting.raced = false ∧
    (rleOn (regs 0x30 0x1000 16 0x100F 1)).active < 1 ∧ needsKey .rleEnc = false ∧ usesSource .rleEnc = true ∧
    usesDest .rleEnc = true ∧
    overlaps (rleOn (regs 0x30 0x1000 16 0x100F 1)).ops.source (rleOn (regs 0x30 0x1000 16 0x100F 1)).ops.dest = true := by
  decide +kernel
theorem test_witness_BadBuffer_name_overlap : (rleOn (regs 0x30 0 0 0x3004 1)).acting.raced = false ∧
    (rleOn (regs 0x30 0 0 0x3004 1)).active < 1 ∧ needsKey .rleEnc = false ∧ usesName .rleEnc = true ∧
    usesDest .rleEnc = true ∧
    overlaps (rleOn (regs 0x30 0 0 0x3004 1)).ops.name (rleOn (regs 0x30 0 0 0x3004 1)).ops.dest = true := by decide +kernel

theorem test_witness_BadHeader_short : (cmdState 0x11 ((hdr 0 0).take 271) 0).Ready .hufDec ∧
    (cmdState 0x11 ((hdr 0 0).take 271) 0).slen < 272 := ⟨ready_of (by decide +kernel), by decide +kernel⟩
theorem test_witness_BadHeader_magic : (cmdState 0x02 ((hdr 0 0).set 0 0x45) 0).Ready .hdrRd ∧
    (cmdState 0x02 ((hdr 0 0).set 0 0x45) 0).readBytes 0x1000 4 ≠ leBytes 4 plat.magic.toNat :=
  ⟨ready_of (by decide +kernel), by decide +kernel⟩

theorem test_witness_Capacity_hdrWr : (cmdState 0x01 [] 271).Ready .hdrWr ∧ (cmdState 0x01 [] 271).cap < 272 :=
  ⟨ready_of (by decide +kernel), by decide +kernel⟩
theorem test_witness_Capacity_hdrRd : (cmdState 0x02 (hdr 6 0) 255).Ready .hdrRd ∧ (cmdState 0x02 (hdr 6 0) 255).cap < 256 ∧
    272 ≤ (cmdState 0x02 (hdr 6 0) 255).slen ∧ rd32 (cmdState 0x02 (hdr 6 0) 255).source 0 = plat.magic.toNat :=
  ⟨ready_of (by decide +kernel), by decide +kernel⟩
theorem test_witness_Capacity_decoder : (cmdState 0x31 (hdr 6 0) 5).Ready .rleDec ∧
    (cmdState 0x31 (hdr 6 0) 5).cap < rd64 (cmdState 0x31 (hdr 6 0) 5).source 4 ∧
    272 ≤ (cmdState 0x31 (hdr 6 0) 5).slen ∧ rd32 (cmdState 0x31 (hdr 6 0) 5).source 0 = plat.magic.toNat :=
  ⟨ready_of (by decide +kernel), by decide +kernel⟩

theorem test_witness_Limits_hufEnc_cap : (cmdState 0x10 abra 307).Ready .hufEnc ∧
    (∀ x ∈ alphabet (cmdState 0x10 abra 307).source, x.freq < 2 ^ 32) ∧
    (huffBits (cmdState 0x10 abra 307).source).length < 2 ^ 32 ∧
    (cmdState 0x10 abra 307).cap < (cmdState 0x10 abra 307).outputLength .hufEnc :=
  ⟨ready_of (by decide +kernel), by decide +kernel⟩
theorem test_witness_Limits_lzwEnc_cap : (cmdState 0x20 [] 275).Ready .lzwEnc ∧
    (lzwEncode (cmdState 0x20 [] 275).source).length < 2 ^ 32 ∧
    (cmdState 0x20 [] 275).cap < (cmdState 0x20 [] 275).outputLength .lzwEnc :=
  ⟨ready_of (by decide +kernel), by decide +kernel⟩
theorem test_witness_Limits_rleEnc_cap : (cmdState 0x30 [] 271).Ready .rleEnc ∧
    (cmdState 0x30 [] 271).cap < (cmdState 0x30 [] 271).outputLength .rleEnc :=
  ⟨ready_of (by decide +kernel), by decide +kernel⟩
theorem test_witness_Limits_aesEnc_cap : (keyed k1 (cmdState 0x41 hello 287)).Ready .aesEnc ∧
    (keyed k1 (cmdState 0x41 hello 287)).cap < (keyed k1 (cmdState 0x41 hello 287)).outputLength .aesEnc :=
  ⟨ready_of (by decide +kernel), by decide +kernel⟩

/-- A long source of one byte, from address 0x10000, for a command that runs. -/
def long (cmd : Word) (n : Nat) : State :=
  (mk [running { regs cmd 0x10000 n 0x8000000000000000 0 with nameLen := 0 }] [] []).writeBytes 0x10000
    (List.replicate n 0x41)

/-- Its source is those bytes. -/
theorem long_source (cmd : Word) {n : Nat} (h : n < 2 ^ 64) : (long cmd n).source = List.replicate n 0x41 := by
  have h1 : (long cmd n).source = (long cmd n).readBytes (Reg64.ofNat 0x10000).value (Reg64.ofNat n).value := rfl
  rw [h1, ofNat_value h, ofNat_value (by decide)]
  have h2 := readBytes_write (mk [running { regs cmd 0x10000 n 0x8000000000000000 0 with nameLen := 0 }] [] []) 0x10000
    (List.replicate n 0x41)
  rw [List.length_replicate] at h2
  exact h2

/-- The alphabet of a source of one byte. -/
theorem alphabet_replicate {n : Nat} (h : 0 < n) : { sym := 0x41, freq := n } ∈ alphabet (List.replicate n 0x41) := by
  have hn : n ≠ 0 := by omega
  simp only [alphabet, List.mem_filterMap, List.mem_range]
  refine ⟨0x41, by decide, ?_⟩
  have hc : (List.replicate n (0x41 : Byte)).count (BitVec.ofNat 8 0x41) = n := List.count_replicate_self
  simp only [hc, hn, if_false]
  rfl

theorem test_witness_Limits_hufEnc_count : (long 0x10 (2 ^ 32)).Ready .hufEnc ∧
    ∃ x ∈ alphabet (long 0x10 (2 ^ 32)).source, 2 ^ 32 ≤ x.freq := by
  refine ⟨ready_of (by decide +kernel), { sym := 0x41, freq := 2 ^ 32 }, ?_, le_refl _⟩
  rw [long_source _ (by decide)]
  exact alphabet_replicate (by decide)

/-- No entry of the dictionary is longer than the dictionary, so a code stands for at most 4096 bytes. -/
theorem lzwEncodeFrom_length (input : List Byte) : ∀ (d : LzwDict) (w : List Byte), (∀ e ∈ d, e.length ≤ d.length) →
    (∀ b : Byte, [b] ∈ d) → d.length ≤ 4096 → (w = [] ∨ w ∈ d) →
    input.length + w.length ≤ 4096 * (lzwEncodeFrom d w input).length := by
  induction input with
  | nil =>
    intro d w hd hb hl hw
    rcases hw with rfl | hw
    · simp
    · have := hd w hw
      by_cases hn : w = []
      · simp [hn]
      · simp only [lzwEncodeFrom, hn, if_false, List.length_nil, List.length_singleton]
        omega
  | cons k rest ih =>
    intro d w hd hb hl hw
    have hwl : w.length ≤ 4096 := by
      rcases hw with rfl | hw
      · simp
      · have := hd w hw
        omega
    by_cases hc : d.contains (w ++ [k]) = true
    · have := ih d (w ++ [k]) hd hb hl (.inr (by simpa using hc))
      simp only [lzwEncodeFrom, hc, if_true, List.length_cons]
      simp only [List.length_append, List.length_singleton] at this
      omega
    · have hadd : ∀ e ∈ LzwDict.add d (w ++ [k]), e.length ≤ (LzwDict.add d (w ++ [k])).length := by
        intro e he
        unfold LzwDict.add at he ⊢
        split at he
        next hlt =>
          rw [if_pos hlt]
          simp only [List.length_append, List.length_singleton]
          rcases List.mem_append.mp he with he | he
          · have := hd e he
            omega
          · rw [List.mem_singleton.mp he]
            have : w.length ≤ d.length := by
              rcases hw with rfl | hw
              · simp
              · exact hd w hw
            simpa using this
        next hlt =>
          rw [if_neg hlt]
          exact hd e he
      have hsing : ∀ b : Byte, [b] ∈ LzwDict.add d (w ++ [k]) := by
        intro b
        unfold LzwDict.add
        split
        · exact List.mem_append_left _ (hb b)
        · exact hb b
      have hcap : (LzwDict.add d (w ++ [k])).length ≤ 4096 := by
        unfold LzwDict.add Config.lzwCap
        split
        · simp only [List.length_append, List.length_singleton]
          omega
        · exact hl
      have := ih _ [k] hadd hsing hcap (.inr (hsing k))
      simp only [lzwEncodeFrom, hc, if_false, List.length_cons, Bool.false_eq_true]
      simp only [List.length_singleton] at this
      omega

theorem test_witness_Limits_lzwEnc_count : (long 0x20 (2 ^ 44)).Ready .lzwEnc ∧
    2 ^ 32 ≤ (lzwEncode (long 0x20 (2 ^ 44)).source).length := by
  refine ⟨ready_of (by decide +kernel), ?_⟩
  rw [long_source _ (by decide)]
  have := lzwEncodeFrom_length (List.replicate (2 ^ 44) 0x41) lzwInit [] (by decide +kernel) (by decide +kernel)
    (by decide +kernel) (.inl rfl)
  rw [List.length_replicate] at this
  simp only [lzwEncode]
  norm_num at this ⊢
  omega

/-- Whether an outcome is a next state. -/
def isNext (o : Host.Outcome State Fault Refusal) : Bool :=
  match o with
  | .next _ => true
  | .fault _ => false
  | .refused _ => false

/-- An outcome that is a next state. -/
theorem next_after {o : Host.Outcome State Fault Refusal} (h : isNext o = true) : o = .next (after o) := by
  cases o with
  | next t => rfl
  | fault r => cases h
  | refused r => cases h

/-- V-H11 and V-H10: total_bits 21 and 22 in place of 23. -/
def hufCut : State := cmdState 0x11 (hdr 11 0 ++ abraBody.set 29 0x15) 11
def hufShort : State := cmdState 0x11 (hdr 11 0 ++ abraBody.set 29 0x16) 11

theorem test_witness_DecoderErrors_huf : hufCut.Ready .hufDec ∧
    parseHeader plat.magic hufCut.source hufCut.slen = .ok (head 11 0) ∧ 11 ≤ hufCut.cap ∧
    huffDecode 11 hufCut.source = .error .corruptInput := by
  unfold hufCut
  refine ⟨ready_of (by decide +kernel), ?_⟩
  rw [cmd_source 0x11 (hdr 11 0 ++ abraBody.set 29 0x15) 11 (by decide +kernel)]
  decide +kernel
theorem test_witness_DecoderErrors_huf_size : hufShort.Ready .hufDec ∧
    parseHeader plat.magic hufShort.source hufShort.slen = .ok (head 11 0) ∧ 11 ≤ hufShort.cap ∧
    huffDecode 11 hufShort.source = .ok (abra.take 10) ∧ (abra.take 10).length ≠ 11 := by
  unfold hufShort
  refine ⟨ready_of (by decide +kernel), ?_⟩
  rw [cmd_source 0x11 (hdr 11 0 ++ abraBody.set 29 0x16) 11 (by decide +kernel)]
  decide +kernel

/-- V-L8 and V-L12: codes [256] with orig 1, and [65] with orig 2. -/
def lzwBad : State := cmdState 0x21 (hdr 1 0 ++ [0x01, 0x00, 0x00, 0x00, 0x00, 0x01]) 1
def lzwShort : State := cmdState 0x21 (hdr 2 0 ++ [0x01, 0x00, 0x00, 0x00, 0x41, 0x00]) 2

theorem test_witness_DecoderErrors_lzw : lzwBad.Ready .lzwDec ∧
    parseHeader plat.magic lzwBad.source lzwBad.slen = .ok (head 1 0) ∧ 1 ≤ lzwBad.cap ∧
    lzwUnpack 1 lzwBad.source = .error .corruptInput := by
  unfold lzwBad
  refine ⟨ready_of (by decide +kernel), ?_⟩
  rw [cmd_source 0x21 (hdr 1 0 ++ [0x01, 0x00, 0x00, 0x00, 0x00, 0x01]) 1 (by decide +kernel)]
  decide +kernel
theorem test_witness_DecoderErrors_lzw_size : lzwShort.Ready .lzwDec ∧
    parseHeader plat.magic lzwShort.source lzwShort.slen = .ok (head 2 0) ∧ 2 ≤ lzwShort.cap ∧
    lzwUnpack 2 lzwShort.source = .ok [0x41] ∧ [0x41#8].length ≠ 2 := by
  unfold lzwShort
  refine ⟨ready_of (by decide +kernel), ?_⟩
  rw [cmd_source 0x21 (hdr 2 0 ++ [0x01, 0x00, 0x00, 0x00, 0x41, 0x00]) 2 (by decide +kernel)]
  decide +kernel

/-- V-R9: original_size 7. -/
def rleShort : State := cmdState 0x31 (hdr 7 0 ++ runsBody) 7

theorem test_witness_DecoderErrors_rle : rleShort.Ready .rleDec ∧
    parseHeader plat.magic rleShort.source rleShort.slen = .ok (head 7 0) ∧ 7 ≤ rleShort.cap ∧
    rleDecodeFrom 7 [] (rleShort.source.drop 272) = .error .sizeMismatch := by
  unfold rleShort
  refine ⟨ready_of (by decide +kernel), ?_⟩
  rw [cmd_source 0x31 (hdr 7 0 ++ runsBody) 7 (by decide +kernel)]
  decide +kernel

/-! What the decoders reject, on artifacts of two bytes or so: each clause of `HuffmanCorrupt`, `LzwCorrupt`, `HoldsRuns`. -/

/-- A Huffman artifact of declared size 2: table, bit count and bits. -/
def hufOf (n : Nat) (table : List (Byte × Nat)) (rest : List Byte) : List Byte :=
  hdr 2 0 ++ leBytes 4 n ++ table.flatMap (fun x => x.1 :: leBytes 4 x.2) ++ rest

theorem test_witness_HuffmanCorrupt_count : 256 < storedCount (hufOf 257 [] []) := by decide +kernel
theorem test_witness_HuffmanCorrupt_repeated :
    ¬ ((storedTable (hufOf 2 [(0x41, 1), (0x41, 1)] [0x02, 0x00, 0x00, 0x00, 0x40])).map (·.sym)).Nodup := by decide +kernel
theorem test_witness_HuffmanCorrupt_zero :
    ∃ x ∈ storedTable (hufOf 2 [(0x41, 2), (0x42, 0)] [0x02, 0x00, 0x00, 0x00, 0x40]), x.freq = 0 := by decide +kernel
theorem test_witness_HuffmanCorrupt_sum :
    ((storedTable (hufOf 2 [(0x41, 1), (0x42, 2)] [0x02, 0x00, 0x00, 0x00, 0x40])).map (·.freq)).sum ≠ 2 := by decide +kernel
theorem test_witness_HuffmanCorrupt_cut : HuffmanCorrupt 11 hufCut.source := by
  unfold hufCut
  rw [cmd_source 0x11 (hdr 11 0 ++ abraBody.set 29 0x15) 11 (by decide +kernel)]
  refine .inr (.inr (.inr (.inr (.inr (.inr (.inr (.inr (.inr (.inr ⟨by decide +kernel, ?_⟩)))))))))
  exact ⟨abra.take 9, [true, true], by decide +kernel, by decide +kernel, .inr ⟨by decide, by decide +kernel⟩⟩

theorem test_witness_LzwCorrupt_first : LzwCorrupt lzwBad.source := by
  unfold lzwBad
  rw [cmd_source 0x21 (hdr 1 0 ++ [0x01, 0x00, 0x00, 0x00, 0x00, 0x01]) 1 (by decide +kernel)]
  exact .inr (.inr (.inl (by decide +kernel)))
theorem test_witness_LzwCorrupt_later : LzwCorrupt (hdr 3 0 ++ [0x02, 0x00, 0x00, 0x00, 0x41, 0x00, 0x01, 0x01]) :=
  .inr (.inr (.inr ⟨1, by decide +kernel⟩))
/-- The KwKwK code 256 at the second place is no corruption. -/
theorem test_witness_LzwCorrupt_not : ¬ LzwCorrupt (hdr 3 0 ++ [0x02, 0x00, 0x00, 0x00, 0x41, 0x00, 0x00, 0x01]) := by
  rintro (h | h | h | ⟨j, h1, h2, h⟩)
  · exact absurd h (by decide +kernel)
  · exact absurd h (by decide +kernel)
  · exact absurd h (by decide +kernel)
  · rw [show rd32 (hdr 3 0 ++ [0x02, 0x00, 0x00, 0x00, 0x41, 0x00, 0x00, 0x01]) 272 = 2 by decide +kernel] at h2
    obtain rfl : j = 1 := by omega
    exact absurd h (by decide +kernel)

/-- The runs of "AAABCC" that the declared size 5, 6 or 7 leaves to read, and what follows them. -/
def runsOf (size : Nat) (tail : List Byte) : State := cmdState 0x31 (hdr size 0 ++ runsBody ++ tail) 8

theorem holdsRuns_of {size : Nat} {tail rest : List Byte} {runs : List Run}
    (hl : (hdr size 0 ++ runsBody ++ tail).length < 2 ^ 64)
    (h : (hdr size 0 ++ runsBody ++ tail).drop 272 = runs.flatMap (fun r => leBytes 4 r.len ++ [r.byte]) ++ rest ∧
      ∀ r ∈ runs, 0 < r.len ∧ r.len < 2 ^ 32) : (runsOf size tail).HoldsRuns runs rest := by
  unfold State.HoldsRuns runsOf
  rw [cmd_source 0x31 (hdr size 0 ++ runsBody ++ tail) 8 hl]
  exact h

/-- All three runs of "AAABCC", and the first two. -/
def threeRuns : List Run := [{ len := 3, byte := 0x41 }, { len := 1, byte := 0x42 }, { len := 2, byte := 0x43 }]

theorem test_witness_HoldsRuns_full : (runsOf 6 [0xFF]).Ready .rleDec ∧ (runsOf 6 [0xFF]).HoldsRuns threeRuns [0xFF] ∧
    runs = threeRuns.flatMap (fun r => List.replicate r.len r.byte) :=
  ⟨ready_of (by decide +kernel), holdsRuns_of (by decide +kernel) (by decide +kernel), by decide⟩
theorem test_witness_HoldsRuns_end : (runsOf 7 []).HoldsRuns threeRuns [] ∧ (threeRuns.map (·.len)).sum < 7 :=
  ⟨holdsRuns_of (by decide +kernel) (by decide +kernel), by decide⟩
theorem test_witness_HoldsRuns_partial : ∀ tail ∈ [[0x01#8], [0x01, 0x00, 0x00, 0x00]],
    (runsOf 7 tail).HoldsRuns threeRuns tail ∧ 0 < tail.length ∧ tail.length < 5 := by
  intro tail ht
  refine ⟨holdsRuns_of ?_ ?_, ?_⟩ <;> revert tail <;> decide +kernel
theorem test_witness_HoldsRuns_zero : (runsOf 7 [0x00, 0x00, 0x00, 0x00, 0x44]).HoldsRuns threeRuns [0x00, 0x00, 0x00, 0x00, 0x44] ∧
    rd32 [0x00, 0x00, 0x00, 0x00, 0x44] 0 = 0 :=
  ⟨holdsRuns_of (by decide +kernel) (by decide +kernel), by decide⟩
theorem test_witness_HoldsRuns_past : (runsOf 5 []).HoldsRuns (threeRuns.take 2) [0x02, 0x00, 0x00, 0x00, 0x43] ∧
    5 < ((threeRuns.take 2).map (·.len)).sum + rd32 [0x02, 0x00, 0x00, 0x00, 0x43] 0 :=
  ⟨holdsRuns_of (by decide +kernel) (by decide +kernel), by decide⟩

/-- An AES_DEC of a source under K1, with DST_CAP 6. -/
def aesDecState (src : List Byte) : State := keyed k1 (cmdState 0x42 src 6)

theorem test_witness_AesData_raw_length : (keyed k1 (cmdState 0x43 (block.take 15) 16)).Ready .aesRawEnc ∧
    (keyed k1 (cmdState 0x44 (block.take 1) 16)).Ready .aesRawDec ∧
    (keyed k1 (cmdState 0x43 (block.take 15) 16)).slen % 16 ≠ 0 ∧ (keyed k1 (cmdState 0x44 (block.take 1) 16)).slen % 16 ≠ 0 :=
  ⟨ready_of (by decide +kernel), ready_of (by decide +kernel), by decide +kernel⟩
theorem test_witness_AesData_raw_cap : (keyed k1 (cmdState 0x43 block 15)).Ready .aesRawEnc ∧
    (keyed k1 (cmdState 0x44 block 15)).Ready .aesRawDec ∧ (keyed k1 (cmdState 0x43 block 15)).slen % 16 = 0 ∧
    (keyed k1 (cmdState 0x43 block 15)).cap < (keyed k1 (cmdState 0x43 block 15)).slen :=
  ⟨ready_of (by decide +kernel), ready_of (by decide +kernel), by decide +kernel⟩
theorem test_witness_AesData_length : (aesDecState (hdr 5 1 ++ [0x00])).Ready .aesDec ∧
    parseHeader plat.magic (aesDecState (hdr 5 1 ++ [0x00])).source 273 = .ok (head 5 1) ∧
    5 ≤ (aesDecState (hdr 5 1 ++ [0x00])).cap ∧ (aesDecState (hdr 5 1 ++ [0x00])).slen % 16 ≠ 0 := by
  unfold aesDecState
  refine ⟨ready_of (by decide +kernel), ?_⟩
  rw [keyed_source k1 0x42 (hdr 5 1 ++ [0x00]) 6 (by decide +kernel)]
  decide +kernel
theorem test_witness_AesData_no_block : (aesDecState (hdr 0 1)).Ready .aesDec ∧
    parseHeader plat.magic (aesDecState (hdr 0 1)).source 272 = .ok (head 0 1) ∧ 0 ≤ (aesDecState (hdr 0 1)).cap ∧
    (aesDecState (hdr 0 1)).slen = 272 := by
  unfold aesDecState
  refine ⟨ready_of (by decide +kernel), ?_⟩
  rw [keyed_source k1 0x42 (hdr 0 1) 6 (by decide +kernel)]
  decide +kernel
theorem test_witness_AesData_padding : (aesDecState (hdr 5 1 ++ helloBody.set 15 0x1f)).Ready .aesDec ∧
    parseHeader plat.magic (aesDecState (hdr 5 1 ++ helloBody.set 15 0x1f)).source 288 = .ok (head 5 1) ∧
    5 ≤ (aesDecState (hdr 5 1 ++ helloBody.set 15 0x1f)).cap ∧
    272 < (aesDecState (hdr 5 1 ++ helloBody.set 15 0x1f)).slen ∧
    (aesDecState (hdr 5 1 ++ helloBody.set 15 0x1f)).slen % 16 = 0 ∧
    pkcs7Unpad (ecbDec (keyExpansion k1) ((aesDecState (hdr 5 1 ++ helloBody.set 15 0x1f)).source.drop 272)) =
      .error .paddingInvalid := by
  unfold aesDecState
  refine ⟨ready_of (by decide +kernel), ?_⟩
  rw [keyed_source k1 0x42 (hdr 5 1 ++ helloBody.set 15 0x1f) 6 (by decide +kernel)]
  decide +kernel
/-- Pad values 0 and 17, and a pad of 2 whose other byte is not 2. -/
theorem test_witness_PaddingBad_zero : PaddingBad (block.set 15 0x00) := .inl (by decide)
theorem test_witness_PaddingBad_above : PaddingBad (block.set 15 0x11) := .inr (.inl (by decide))
theorem test_witness_PaddingBad_unequal : PaddingBad (block.set 15 0x02) := .inr (.inr ⟨1, by decide⟩)
theorem test_witness_PaddingBad_source : (aesDecState (hdr 5 1 ++ ecbEnc (keyExpansion k1) (block.set 15 0x00))).Ready .aesDec ∧
    ecbDec (keyExpansion k1)
      ((aesDecState (hdr 5 1 ++ ecbEnc (keyExpansion k1) (block.set 15 0x00))).source.drop 272) = block.set 15 0x00 := by
  unfold aesDecState
  refine ⟨ready_of (by decide +kernel), ?_⟩
  rw [keyed_source k1 0x42 (hdr 5 1 ++ ecbEnc (keyExpansion k1) (block.set 15 0x00)) 6 (by decide +kernel)]
  decide +kernel
/-- The padded "hello" of V-A8. -/
theorem test_witness_AesDec_padded : ecbDec (keyExpansion k1) helloBody = hello ++ List.replicate 11 (BitVec.ofNat 8 11) := by
  decide +kernel
theorem test_witness_AesData_size : (aesDecState (hdr 6 1 ++ helloBody)).Ready .aesDec ∧
    parseHeader plat.magic (aesDecState (hdr 6 1 ++ helloBody)).source 288 = .ok (head 6 1) ∧
    6 ≤ (aesDecState (hdr 6 1 ++ helloBody)).cap ∧ 272 < (aesDecState (hdr 6 1 ++ helloBody)).slen ∧
    (aesDecState (hdr 6 1 ++ helloBody)).slen % 16 = 0 ∧
    pkcs7Unpad (ecbDec (keyExpansion k1) ((aesDecState (hdr 6 1 ++ helloBody)).source.drop 272)) = .ok hello ∧
    hello.length ≠ 6 := by
  unfold aesDecState
  refine ⟨ready_of (by decide +kernel), ?_⟩
  rw [keyed_source k1 0x42 (hdr 6 1 ++ helloBody) 6 (by decide +kernel)]
  decide +kernel

theorem test_witness_Errors_body : lzwBad.active < lzwBad.engines.length ∧ lzwBad.acting.raced = false ∧
    exec .lzwDec lzwBad = .next (after (exec .lzwDec lzwBad)) ∧ (after (exec .lzwDec lzwBad)).acting.err ≠ .ok :=
  ⟨by decide, by decide, next_after (by decide +kernel), by decide +kernel⟩
theorem test_witness_Errors_before : (cmdState 0x43 block 16).active < (cmdState 0x43 block 16).engines.length ∧
    (cmdState 0x43 block 16).acting.raced = false ∧ ¬ (cmdState 0x43 block 16).Ready .aesRawEnc ∧
    exec .aesRawEnc (cmdState 0x43 block 16) = .next (after (exec .aesRawEnc (cmdState 0x43 block 16))) ∧
    (after (exec .aesRawEnc (cmdState 0x43 block 16))).acting.err ≠ .ok :=
  ⟨by decide, by decide, fun h => absurd (h.key rfl) (by decide), next_after (by decide +kernel), by decide +kernel⟩
theorem test_witness_OutputLengths : (cmdState 0x30 hello 0x200).Ready .rleEnc ∧
    exec .rleEnc (cmdState 0x30 hello 0x200) = .next (after (exec .rleEnc (cmdState 0x30 hello 0x200))) ∧
    (after (exec .rleEnc (cmdState 0x30 hello 0x200))).acting.err = .ok :=
  ⟨ready_of (by decide +kernel), next_after (by decide +kernel), by decide +kernel⟩

/-! ### Races, host accesses, resets -/

theorem test_witness_Raced : usesDest .hdrRd = true ∧
    (mk [{ running (regs 2 0 0 0 0) with raced := true }] [] []).active < 1 ∧
    (mk [{ running (regs 2 0 0 0 0) with raced := true }] [] []).acting.raced = true := by decide
theorem test_witness_Conflict : ∀ src ∈ [0x200F, 0x2010],
    (mk [running (regs 0x43 0x1000 16 0x2000 16), idle (regs 0x44 src 16 0x6000 16)] []
      [.regWrite 0x40000100 4 1]).engines[1]? = some (idle (regs 0x44 src 16 0x6000 16)) ∧
    (idle (regs 0x44 src 16 0x6000 16)).phase = .idle ∧ (running (regs 0x43 0x1000 16 0x2000 16)).phase = .running ∧
    0x40000100 = (mk [running (regs 0x43 0x1000 16 0x2000 16), idle (regs 0x44 src 16 0x6000 16)] []
      [.regWrite 0x40000100 4 1]).regAddr 1 0x000 ∧ (1#32).getLsbD 0 = true ∧
    conflict (idle (regs 0x44 src 16 0x6000 16)).regs (running (regs 0x43 0x1000 16 0x2000 16)).latched =
      decide (src = 0x200F) := by decide +kernel
theorem test_witness_Conflict_state : (wr 1 0x000 1).engines[0]? = some (running (regs 0x43 0x1000 16 0x2000 16)) ∧
    (wr 1 0x000 1).engines[1]? = some (idle (regs 0x44 0x5000 16 0x6000 16)) ∧
    (∀ h ∈ (wr 1 0x000 1).engines, h.busy = true → conflict (regs 0x44 0x5000 16 0x6000 16) h.latched = false) := by
  decide +kernel
theorem test_witness_HostAccess_write : ∀ a ∈ [0x1000, 0x200F, 0x2010, 0xFFFFFFFFFFFFFFFF],
    (two (.memWrite a 7)).engines[0]? = some (running (regs 0x43 0x1000 16 0x2000 16)) ∧
    (running (regs 0x43 0x1000 16 0x2000 16)).phase = .running ∧ (two (.memWrite a 7)).memBacked a = true ∧
    (two (.memWrite a 7)).agenda = .memWrite a 7 :: [] := by decide +kernel
theorem test_witness_HostAccess_read : ∀ a ∈ [0x1000, 0x200F, 0x2010, 0xFFFFFFFFFFFFFFFF],
    (two (.memRead a)).engines[0]? = some (running (regs 0x43 0x1000 16 0x2000 16)) ∧
    (two (.memRead a)).memBacked a = true ∧ (two (.memRead a)).agenda = .memRead a :: [] := by decide +kernel
theorem test_witness_HostByte :
    (mk [running (regs 0x43 0x1000 16 0x2000 16)] [] [.memWrite 0x2010 7, .memRead 0x2010]).memBacked 0x2010 = true ∧
    (mk [running (regs 0x43 0x1000 16 0x2000 16)] [] [.memWrite 0x2010 7, .memRead 0x2010]).agenda =
      .memWrite 0x2010 7 :: .memRead 0x2010 :: [] ∧
    ∀ e ∈ (mk [running (regs 0x43 0x1000 16 0x2000 16)] [] [.memWrite 0x2010 7, .memRead 0x2010]).engines,
      e.LeavesAlone 0x2010 := by
  refine ⟨by decide +kernel, by decide, fun e he _ x hx => ?_⟩
  rw [List.mem_singleton.mp he,
    show (running (regs 0x43 0x1000 16 0x2000 16)).latched.writes = [{ start := 0x2000, len := 16 }] by decide +kernel,
    List.mem_singleton] at hx
  rw [hx]
  decide
theorem test_witness_Reset : (two (.reset 0)).engines[0]? = some (running (regs 0x43 0x1000 16 0x2000 16)) ∧
    (two (.reset 0)).agenda = .reset 0 :: [] := by decide

/-! ### Changes and invariants -/

/-- The next step of a state answers a next state. -/
theorem step_after (s : State) (h : isNext (step s) = true) : step s = .next (after (step s)) := next_after h

/-- A state whose next step runs a command of engine 0 with key words and round keys. -/
def keyState : State :=
  mk [{ running (regs 0x40 0 0 0 0) with rk := keyExpansion (List.replicate 32 0), keyValid := true }] (memOf []) [.run 0]

theorem test_witness_Phase_start : step (wr 1 0x000 1) = .next (after (step (wr 1 0x000 1))) ∧
    ((after (step (wr 1 0x000 1))).engines[1]?).map (·.phase) = some .running :=
  ⟨step_after _ (by decide +kernel), by decide +kernel⟩
theorem test_witness_Phase_run : step (two (.run 0)) = .next (after (step (two (.run 0)))) ∧
    ((after (step (two (.run 0)))).engines[0]?).map (·.phase) = some .idle :=
  ⟨step_after _ (by decide +kernel), by decide +kernel⟩
theorem test_witness_Header : step { cmdState 0x02 (hdr 6 1) 256 with agenda := [.run 0] } =
      .next (after (step { cmdState 0x02 (hdr 6 1) 256 with agenda := [.run 0] })) ∧
    ((after (step { cmdState 0x02 (hdr 6 1) 256 with agenda := [.run 0] })).engines[0]?).map (·.hdrFlags) = some 1 :=
  ⟨step_after _ (by decide +kernel), by decide +kernel⟩
theorem test_witness_KeyStore : step (mk [running (regs 0x40 0 0 0 0)] [] [.run 0]) =
      .next (after (step (mk [running (regs 0x40 0 0 0 0)] [] [.run 0]))) ∧
    ((after (step (mk [running (regs 0x40 0 0 0 0)] [] [.run 0]))).engines[0]?).map (·.keyValid) = some true ∧
    ((after (step (mk [running (regs 0x40 0 0 0 0)] [] [.run 0]))).engines[0]?).map (·.rk) ≠
      some (running (regs 0x40 0 0 0 0)).rk :=
  ⟨step_after _ (by decide +kernel), by decide +kernel⟩
theorem test_witness_Operands : step (wr 1 0x008 7) = .next (after (step (wr 1 0x008 7))) ∧
    ((after (step (wr 1 0x008 7))).engines[1]?).map (·.regs) ≠ some (regs 0x44 0x5000 16 0x6000 16) :=
  ⟨step_after _ (by decide +kernel), by decide +kernel⟩
theorem test_witness_Memory : step { cmdState 0x01 [] 272 with mem := Memory.cells 0x2000 [0x00], agenda := [.run 0] } =
      .next (after (step { cmdState 0x01 [] 272 with mem := Memory.cells 0x2000 [0x00], agenda := [.run 0] })) ∧
    (after (step { cmdState 0x01 [] 272 with mem := Memory.cells 0x2000 [0x00], agenda := [.run 0] })).readByte 0x2000 ≠
      ({ cmdState 0x01 [] 272 with mem := Memory.cells 0x2000 [0x00], agenda := [.run 0] } : State).readByte 0x2000 :=
  ⟨step_after _ (by decide +kernel), by decide +kernel⟩
theorem test_witness_RunHolds : keyState.AllEngines Engine.RunHolds ∧ step keyState = .next (after (step keyState)) := by
  refine ⟨fun e he => ?_, step_after _ (by decide +kernel)⟩
  rw [List.mem_singleton.mp he]
  exact fun _ => ⟨rfl, rfl, rfl, rfl⟩
theorem test_witness_KeyHolds : keyState.AllEngines Engine.KeyHolds ∧ ∀ e ∈ keyState.engines, e.keyValid = true := by
  refine ⟨fun e he => ?_, fun e he => ?_⟩
  · rw [List.mem_singleton.mp he]
    intro _
    decide +kernel
  · rw [List.mem_singleton.mp he]
theorem test_witness_Canonical : keyState.mem.wf = true ∧ keyState.mem ≠ [] := by decide
theorem test_witness_InRange : keyState.MemoryInRange ∧ keyState.mem ≠ [] := by
  refine ⟨fun c hc => ?_, by decide⟩
  revert c
  decide +kernel
theorem test_witness_KeySchedule : k1.length = 32 := by decide

/-! ### Round trips: an encoder's state, the state after it, and a decoder's state on the artifact and three more bytes -/

/-- The decoder's state on what an encoder left: its source is the artifact, and `extra` after it. -/
def decState (cmd : Word) (t : State) (extra : List Byte) (cap : Nat) : State :=
  { t with
    active := 0
    engines := [{ t.acting with
      phase := .running, latched := regs cmd 0x2000 (t.acting.outLen.value + extra.length) 0x6000 cap }]
    mem := t.mem.write (0x2000 + t.acting.outLen.value) extra }

/-- A string that is read in two pieces. -/
theorem readBytes_add (s : State) (a n k : Nat) : s.readBytes a (n + k) = s.readBytes a n ++ s.readBytes (a + n) k := by
  simp [State.readBytes, List.range_add, Nat.add_assoc]

/-- The source of a decoder's test state is the artifact and the bytes after it. -/
theorem dec_source (cmd : Word) (t : State) (extra : List Byte) (cap : Nat)
    (h : t.acting.outLen.value + extra.length < 2 ^ 64) :
    (decState cmd t extra cap).source = t.readBytes 0x2000 t.acting.outLen.value ++ extra := by
  have h1 : (decState cmd t extra cap).source = (t.writeBytes (0x2000 + t.acting.outLen.value) extra).readBytes
      (Reg64.ofNat 0x2000).value (Reg64.ofNat (t.acting.outLen.value + extra.length)).value := rfl
  rw [h1, ofNat_value h, ofNat_value (by decide), readBytes_add, readBytes_write]
  refine congrArg (· ++ extra) (List.map_congr_left fun i hi => ?_)
  rw [List.mem_range] at hi
  exact readByte_write_outside _ _ _ _ (.inl (by omega))

/-- The premises of a round trip on the state after the encoder: the encoder is ready and succeeds, the decoder is ready on
its artifact with `extra` after it, and the source fits the decoder's destination. -/
def RoundTripPremises (i j : Instr) (s : State) (cmd : Word) (extra : List Byte) (cap : Nat) : Prop :=
  s.Ready i ∧ exec i s = .next (after (exec i s)) ∧ (after (exec i s)).acting.err = .ok ∧
    (decState cmd (after (exec i s)) extra cap).Ready j ∧
    (decState cmd (after (exec i s)) extra cap).source =
      (after (exec i s)).readBytes 0x2000 (after (exec i s)).acting.outLen.value ++ extra ∧
    s.slen ≤ (decState cmd (after (exec i s)) extra cap).cap

/-- The premises of a round trip, from what is to be evaluated. -/
theorem roundTrip {i j : Instr} {s : State} (cmd : Word) (extra : List Byte) (cap : Nat)
    (hs : s.active < s.engines.length ∧ s.acting.raced = false ∧ s.preCheck i = none)
    (ht : isNext (exec i s) = true ∧ (after (exec i s)).acting.err = .ok ∧
      (after (exec i s)).acting.outLen.value + extra.length < 2 ^ 64)
    (hu : (decState cmd (after (exec i s)) extra cap).active < (decState cmd (after (exec i s)) extra cap).engines.length ∧
      (decState cmd (after (exec i s)) extra cap).acting.raced = false ∧
      (decState cmd (after (exec i s)) extra cap).preCheck j = none)
    (hc : s.slen ≤ (decState cmd (after (exec i s)) extra cap).cap) : RoundTripPremises i j s cmd extra cap :=
  ⟨ready_of hs, next_after ht.1, ht.2.1, ready_of hu, dec_source _ _ _ _ ht.2.2, hc⟩

theorem test_witness_HuffmanRoundTrip : RoundTripPremises .hufEnc .hufDec (cmdState 0x10 abra 308) 0x11 [1, 2, 3] 11 :=
  roundTrip _ _ _ (by decide +kernel) (by decide +kernel) (by decide +kernel) (by decide +kernel)
theorem test_witness_LzwRoundTrip : RoundTripPremises .lzwEnc .lzwDec (cmdState 0x20 abra 0x200) 0x21 [1, 2, 3] 11 :=
  roundTrip _ _ _ (by decide +kernel) (by decide +kernel) (by decide +kernel) (by decide +kernel)
theorem test_witness_RleRoundTrip : RoundTripPremises .rleEnc .rleDec (cmdState 0x30 hello 0x200) 0x31 [1, 2, 3] 5 :=
  roundTrip _ _ _ (by decide +kernel) (by decide +kernel) (by decide +kernel) (by decide +kernel)
theorem test_witness_AesRoundTrip_block : block.length = 16 := by decide
theorem test_witness_AesRoundTrip :
    RoundTripPremises .aesEnc .aesDec (keyed k1 (cmdState 0x41 hello 288)) 0x42 [] 5 :=
  roundTrip _ _ _ (by decide +kernel) (by decide +kernel) (by decide +kernel) (by decide +kernel)
theorem test_witness_AesRoundTrip_raw :
    RoundTripPremises .aesRawEnc .aesRawDec (keyed k1 (cmdState 0x43 block 16)) 0x44 [] 16 :=
  roundTrip _ _ _ (by decide +kernel) (by decide +kernel) (by decide +kernel) (by decide +kernel)
theorem test_witness_AesRoundTrip_keys :
    (decState 0x42 (after (exec .aesEnc (keyed k1 (cmdState 0x41 hello 288)))) [] 5).acting.rk = keyExpansion k1 := by
  decide +kernel

end Sys2Proof.Tests
end

section
/-! SUPPORT and PROOFS of the statements of 10_state.md: the register map and what a register write leaves, what an execution
step leaves of an engine, the invariants of every engine, and then the statements themselves. -/

namespace Sys2Proof.Machine

/-! ## The register map (10_state.md R32) -/

/-- The registers of R40 but the key: what an IDLE write stores and a read returns. -/
def readableOperands : List Reg :=
  [.cmd, .srcAddrLo, .srcAddrHi, .srcLenLo, .srcLenHi, .dstAddrLo, .dstAddrHi, .dstCapLo, .dstCapHi, .nameAddrLo,
   .nameAddrHi, .nameLen, .hflagsIn, .hsizeInLo, .hsizeInHi]

/-- The registers that no host write changes (10_state.md R32, R47). -/
def readOnlyRegs : List Reg := [.outLenLo, .outLenHi, .hdrSizeLo, .hdrSizeHi, .hdrFlags, .keyStatus, .reserved]

/-- Every register but `reserved` has one place in the map. -/
theorem regMap_idxOf : ∀ k < 32, regMap.getD k .reserved ≠ .reserved → regMap.idxOf (regMap.getD k .reserved) = k := by
  decide

/-- The last eight entries of the map are the key. -/
theorem regMap_key : ∀ k < 32, 24 ≤ k → (regMap.getD k .reserved).isKey = true := by decide

/-- Past the map every offset is reserved. -/
theorem regAt_of_ge {off : Nat} (h : 0x080 ≤ off) : regAt off = .reserved := by
  have hge : regMap.length ≤ off / 4 := by
    show 32 ≤ off / 4
    omega
  simp [regAt, List.getD_eq_getElem?_getD, List.getElem?_eq_none hge]

/-- A register that is not reserved stands inside the map. -/
theorem lt_of_regAt_ne_reserved {off : Nat} (h : regAt off ≠ .reserved) : off < 0x080 := by
  by_contra hge
  exact h (regAt_of_ge (Nat.not_lt.mp hge))

/-- No register but the reserved one stands at two offsets. -/
theorem regAt_injective {off o : Nat} (h4 : off % 4 = 0) (ho4 : o % 4 = 0) (hr : regAt off ≠ .reserved)
    (h : regAt o = regAt off) : o = off := by
  have hoff := lt_of_regAt_ne_reserved hr
  have hro : regAt o ≠ .reserved := by rwa [h]
  have ho := lt_of_regAt_ne_reserved hro
  have hindex : o / 4 = off / 4 :=
    calc o / 4 = regMap.idxOf (regAt o) := (regMap_idxOf (o / 4) (by omega) hro).symm
      _ = regMap.idxOf (regAt off) := by rw [h]
      _ = off / 4 := regMap_idxOf (off / 4) (by omega) hr
  omega

/-- KEYi stands at 0x060 + 4i. -/
theorem regAt_key : ∀ i : Fin 8, regAt (0x060 + 4 * i.val) = .key i := by decide

/-- From 0x060 on there are the key and the reserved offsets only. -/
theorem regAt_key_or_reserved {off : Nat} (h : 0x060 ≤ off) : (regAt off).isKey = true ∨ regAt off = .reserved := by
  by_cases hlt : off < 0x080
  · exact .inl (regMap_key (off / 4) (by omega) (by omega))
  · exact .inr (regAt_of_ge (Nat.not_lt.mp hlt))

/-! ## Register writes and reads -/

/-- A write of a read-only or reserved register changes no operand. -/
theorem write_readOnly (r : OperandRegs) {reg : Reg} (v : Word) (h : reg ∈ readOnlyRegs) : r.write reg v = r := by
  simp only [readOnlyRegs, List.mem_cons, List.not_mem_nil, or_false] at h
  rcases h with rfl | rfl | rfl | rfl | rfl | rfl | rfl <;> rfl

section WriteReg

variable (e : Engine) (reg : Reg) (v : Word)

@[simp] theorem writeReg_phase : (e.writeReg reg v).phase = e.phase := by unfold Engine.writeReg; split <;> rfl
@[simp] theorem writeReg_hdrSize : (e.writeReg reg v).hdrSize = e.hdrSize := by unfold Engine.writeReg; split <;> rfl
@[simp] theorem writeReg_hdrFlags : (e.writeReg reg v).hdrFlags = e.hdrFlags := by unfold Engine.writeReg; split <;> rfl
@[simp] theorem writeReg_rk : (e.writeReg reg v).rk = e.rk := by unfold Engine.writeReg; split <;> rfl
@[simp] theorem writeReg_latched : (e.writeReg reg v).latched = e.latched := by unfold Engine.writeReg; split <;> rfl
@[simp] theorem writeReg_busy_eq : (e.writeReg reg v).busy = e.busy := by simp [Engine.busy]

/-- KEY_VALID after a write other than to CTRL: cleared by a KEY write in phase IDLE, else kept (10_state.md R46). -/
theorem writeReg_keyValid :
    (e.writeReg reg v).keyValid = if e.busy = false ∧ reg.isKey = true then false else e.keyValid := by
  cases hb : e.busy <;> simp [Engine.writeReg, hb]

/-- The operand registers after a write other than to CTRL (10_state.md R40). -/
theorem writeReg_regs : (e.writeReg reg v).regs = if e.busy = true then e.regs else e.regs.write reg v := by
  cases hb : e.busy <;> simp [Engine.writeReg, hb]

variable {e reg}

/-- An IDLE write of a register that is neither STATUS nor the key changes the operand registers alone. -/
theorem writeReg_operand (hb : e.busy = false) (hs : reg ≠ .status) (hk : reg.isKey = false) :
    e.writeReg reg v = { e with regs := e.regs.write reg v } := by
  simp [Engine.writeReg, hb, hs, hk]

/-- An IDLE write of KEYi stores the word and clears KEY_VALID. -/
theorem writeReg_key (i : Fin 8) (hb : e.busy = false) :
    e.writeReg (.key i) v = { e with regs := { e.regs with keys := e.regs.keys.set i v }, keyValid := false } := by
  simp [Engine.writeReg, hb, Reg.isKey, OperandRegs.write]

/-- A write of a read-only or reserved register changes nothing of an engine, in either phase. -/
theorem writeReg_readOnly (h : reg ∈ readOnlyRegs) : e.writeReg reg v = e := by
  have hs : reg ≠ .status := by rintro rfl; exact absurd h (by decide)
  have hk : reg.isKey = false := by
    cases reg with
    | key i => simp [readOnlyRegs] at h
    | _ => rfl
  rcases writeReg_spec e reg v with ⟨-, hw⟩ | ⟨hb, -⟩
  · exact hw
  · rw [writeReg_operand v hb hs hk, write_readOnly _ v h]

/-- A written operand register reads back, and every other register reads as before. -/
theorem readReg_write (h : reg ∈ readableOperands) (reg' : Reg) :
    ({ e with regs := e.regs.write reg v } : Engine).readReg reg' = if reg' = reg then v else e.readReg reg' := by
  simp only [readableOperands, List.mem_cons, List.not_mem_nil, or_false] at h
  rcases h with rfl | rfl | rfl | rfl | rfl | rfl | rfl | rfl | rfl | rfl | rfl | rfl | rfl | rfl | rfl <;>
    cases reg' <;> rfl

/-- The key registers read 0 (10_state.md R46). -/
theorem readReg_of_isKey (h : reg.isKey = true) : e.readReg reg = 0 := by
  cases reg with
  | key i => rfl
  | _ => simp [Reg.isKey] at h

end WriteReg

/-- STATUS, bit by bit: BUSY, DONE, ERR in bits 11:8, and 0 elsewhere (10_state.md R34). -/
theorem statusWord_fields (e : Engine) :
    e.statusWord.getLsbD 0 = e.busy ∧ e.statusWord.getLsbD 1 = e.done ∧ e.statusWord.extractLsb' 8 4 = e.err.code ∧
      e.statusWord.extractLsb' 2 6 = 0 ∧ e.statusWord.extractLsb' 12 20 = 0 := by
  unfold Engine.statusWord
  generalize e.err.code = c
  cases e.busy <;> cases e.done <;> revert c <;> decide

/-- CTRL reads IRQ_EN in bit 1 (10_state.md R33). -/
theorem ctrlWord_eq (e : Engine) : e.ctrlWord = if e.irqEn then 0x00000002 else 0 := by
  unfold Engine.ctrlWord
  cases e.irqEn <;> rfl

/-- KEY_STATUS reads KEY_VALID in bit 0 (10_state.md R45). -/
theorem keyStatusWord_eq (e : Engine) : e.keyStatusWord = if e.keyValid then 0x00000001 else 0 := by
  unfold Engine.keyStatusWord
  cases e.keyValid <;> rfl

/-! ## Register accesses as steps -/

/-- Where an event is next, the step is that event. -/
theorem step_event {s : State} {ev : Event} {rest : List Event} (h : s.agenda = ev :: rest) :
    step s = onEvent ev { s with agenda := rest } := by
  simp only [step, h]

/-- Changing one engine is setting it in the engine list. -/
theorem mapEngine_eq_set {s : State} {k : Nat} {e : Engine} (f : Engine → Engine) (h : s.engines[k]? = some e) :
    s.mapEngine k f = { s with engines := s.engines.set k (f e) } := by
  simp [State.mapEngine, List.modify_eq_set_getElem?, h]

/-- A write of a register other than CTRL is a write to that engine alone. -/
theorem step_writeReg {s : State} {e off : Nat} {f : Engine} {v : Word} {rest : List Event}
    (hf : s.engines[e]? = some f) (ho : off < 0x100) (h4 : off % 4 = 0) (h0 : off ≠ 0)
    (h : s.agenda = .regWrite (s.regAddr e off) 4 v :: rest) :
    step s = .next { s with agenda := rest, engines := s.engines.set e (f.writeReg (regAt off) v) } := by
  have hc : regAt off ≠ .ctrl := fun hr => h0 ((regAt_ctrl h4).mp hr)
  rw [step_regWrite (List.getElem?_eq_some_iff.mp hf).1 ho h4 h, State.writeRegister, if_neg hc]
  exact congrArg Host.Outcome.next (mapEngine_eq_set (s := { s with agenda := rest }) _ hf)

/-- A register access of another width or at an unaligned offset is refused, whatever it would do. -/
theorem onRegister_odd (s : State) {e off width : Nat} (k : Nat → Reg → State) (he : e < s.engines.length)
    (ho : off < 0x100) (hodd : width ≠ 4 ∨ off % 4 ≠ 0) :
    s.onRegister (s.regAddr e off) width k = .refused (.registerAccess (s.regAddr e off) width) := by
  have hw : ¬ (width = 4 ∧ off % 4 = 0) := by omega
  simp only [State.onRegister, blockOf_regAddr s he ho, hw, if_false]

/-! ## What an event leaves of an engine -/

/-- The register updates of a command, by its latched word: HDR_RD's, which without a race come with OK only, AES_KEYEXP's,
or none. -/
def UpdatesAllowed (f : Engine) (u : RegUpdate) (err : Status) : Prop :=
  u = .none ∨
  (decode f.latched.cmd = .ok .hdrRd ∧ (∃ v w, u = .header v w) ∧ (f.raced = false → err = .ok)) ∨
  (decode f.latched.cmd = .ok .aesKeyexp ∧ u = .roundKeys (keyExpansion f.latched.keyBytes))

/-- An execution step leaves the completion of an engine with the register updates of its command. -/
theorem runLeaves_complete {f g : Engine} (h : RunLeaves f g) :
    ∃ u err n, g = (f.update u).complete err n ∧ UpdatesAllowed f u err := by
  rcases h with ⟨_, -, rfl⟩ | ⟨i, hd, ⟨-, hr, u, err, n, rfl, hu⟩ | ⟨err, rfl⟩ | ⟨s, o, hact, hb, rfl⟩⟩
  · exact ⟨.none, _, _, rfl, .inl rfl⟩
  · refine ⟨u, err, n, rfl, ?_⟩
    rcases hu with ⟨rfl, hv⟩ | ⟨-, hn⟩
    · exact .inr (.inl ⟨hd, hv, fun hq => by simp [hr] at hq⟩)
    · exact .inl hn
  · exact ⟨.none, _, _, rfl, .inl rfl⟩
  · refine ⟨o.update, _, _, rfl, ?_⟩
    rcases body_update hb with ⟨rfl, hv⟩ | ⟨rfl, hk⟩ | ⟨-, -, hn⟩
    · exact .inr (.inl ⟨hd, hv, fun _ => rfl⟩)
    · exact .inr (.inr ⟨hd, by rw [hk, State.ops, hact]⟩)
    · exact .inl hn

/-- A host write changes neither the header registers nor RK, and does not set KEY_VALID. -/
theorem writeLeaves_keeps {f g : Engine} {off : Nat} {v : Word} (h : WriteLeaves f g off v) :
    g.hdrSize = f.hdrSize ∧ g.hdrFlags = f.hdrFlags ∧ g.rk = f.rk ∧ (g.keyValid = true → f.keyValid = true) := by
  rcases h with ⟨-, -, -, r, rfl⟩ | ⟨-, -, rfl⟩ | ⟨-, rfl⟩
  · exact ⟨rfl, rfl, rfl, id⟩
  · exact ⟨rfl, rfl, rfl, id⟩
  · refine ⟨by simp, by simp, by simp, fun hk => ?_⟩
    rw [writeReg_keyValid] at hk
    split at hk
    · cases hk
    · exact hk

/-- A host write that changes an operand register is a write of it in phase IDLE. -/
theorem writeLeaves_regs {f g : Engine} {off : Nat} {v : Word} (h : WriteLeaves f g off v) (hr : g.regs ≠ f.regs) :
    f.busy = false ∧ g.regs = f.regs.write (regAt off) v := by
  rcases h with ⟨-, -, -, r, rfl⟩ | ⟨-, -, rfl⟩ | ⟨-, rfl⟩
  · exact absurd rfl hr
  · exact absurd rfl hr
  · cases hb : f.busy with
    | true => exact absurd (by rw [writeReg_busy _ _ hb]) hr
    | false => exact ⟨rfl, by simp [writeReg_regs, hb]⟩

/-! ## Invariants of every engine -/

/-- A property of engines that races, host writes, execution steps and resets keep is kept by every step. -/
theorem allEngines_step {P : Engine → Prop} {s t : State}
    (mark : ∀ f r, P f → P { f with raced := r })
    (write : ∀ f g off v, P f → WriteLeaves f g off v → P g)
    (run : ∀ f g, P f → f.busy = true → RunLeaves f g → P g)
    (reset : ∀ rk, P { Engine.reset with rk := rk })
    (hs : s.AllEngines P) (h : step s = .next t) : t.AllEngines P := by
  intro g hg
  obtain ⟨k, hk⟩ := List.mem_iff_getElem?.mp hg
  have hlt : k < s.engines.length := (step_fixed h).2 ▸ (List.getElem?_eq_some_iff.mp hk).1
  have hf : s.engines[k]? = some s.engines[k] := List.getElem?_eq_getElem hlt
  have hPf : P s.engines[k] := hs _ (List.getElem_mem hlt)
  rcases step_engine h hf hk with ⟨r, rfl, -⟩ | ⟨off, v, -, -, -, hl⟩ | ⟨-, hb, hl⟩ | ⟨-, rk, rfl⟩
  · exact mark _ r hPf
  · exact write _ g off v hPf hl
  · exact run _ g hPf hb hl
  · exact reset rk

/-- An IDLE engine holds no command. -/
theorem runHolds_of_idle {e : Engine} (h : e.busy = false) : e.RunHolds := fun hb => absurd hb (by simp [h])

/-- START clears DONE, ERR and OUT_LEN and latches the operands; no other host write touches a RUNNING engine's. -/
theorem runHolds_write {f g : Engine} {off : Nat} {v : Word} (hf : f.RunHolds) (h : WriteLeaves f g off v) :
    g.RunHolds := by
  rcases h with ⟨-, -, -, r, rfl⟩ | ⟨-, -, rfl⟩ | ⟨-, rfl⟩
  · exact fun _ => ⟨rfl, rfl, rfl, rfl⟩
  · exact hf
  · cases hb : f.busy with
    | true => rwa [writeReg_busy _ _ hb]
    | false => exact runHolds_of_idle (by simp [hb])

/-- After its execution step an engine is IDLE. -/
theorem runHolds_run {f g : Engine} (h : RunLeaves f g) : g.RunHolds := by
  obtain ⟨u, err, n, rfl, -⟩ := runLeaves_complete h
  exact runHolds_of_idle rfl

/-- Without KEY_VALID nothing is said of RK. -/
theorem keyHolds_of_invalid {e : Engine} (h : e.keyValid = false) : e.KeyHolds := fun hv => absurd hv (by simp [h])

/-- The key bytes come from the key registers alone. -/
theorem keyBytes_congr {r q : OperandRegs} (h : r.keys = q.keys) : r.keyBytes = q.keyBytes := by
  have hbyte : r.keyByte = q.keyByte := by
    funext n
    simp only [OperandRegs.keyByte, h]
  simp only [OperandRegs.keyBytes, hbyte]

/-- Only a KEY write changes the key bytes, and it clears KEY_VALID. -/
theorem keyHolds_write {f g : Engine} {off : Nat} {v : Word} (hf : f.KeyHolds) (h : WriteLeaves f g off v) :
    g.KeyHolds := by
  rcases h with ⟨-, -, -, r, rfl⟩ | ⟨-, -, rfl⟩ | ⟨-, rfl⟩
  · exact hf
  · exact hf
  · rcases writeReg_spec f (regAt off) v with ⟨-, hw⟩ | ⟨-, hw⟩
    · rwa [hw]
    · rw [hw]
      intro hv
      cases hk : (regAt off).isKey with
      | true => simp [hk] at hv
      | false =>
        have hkeys : (f.regs.write (regAt off) v).keyBytes = f.regs.keyBytes := keyBytes_congr (write_keys _ v hk)
        simp only [hkeys]
        exact hf (by simpa [hk] using hv)

/-- AES_KEYEXP expands the latched key, which is the register's; no other command touches the key. -/
theorem keyHolds_run {f g : Engine} (hrun : f.RunHolds) (hf : f.KeyHolds) (hb : f.busy = true) (h : RunLeaves f g) :
    g.KeyHolds := by
  obtain ⟨u, err, n, rfl, rfl | ⟨-, ⟨v, w, rfl⟩, -⟩ | ⟨-, rfl⟩⟩ := runLeaves_complete h
  · exact hf
  · exact hf
  · obtain ⟨-, -, -, hlatched⟩ := hrun hb
    intro _
    simp [hlatched]

/-! ## The invariants (10_state.md R34, R40, R45, R49, R53) -/

/-- Settles O46: each kind of event keeps `RunHolds` of the engine it touches. -/
theorem runningEngineHoldsItsCommand : Obligations.RunningEngineHoldsItsCommand := by
  intro s t hs h
  exact allEngines_step (fun _ _ hf => hf) (fun _ _ _ _ hf hl => runHolds_write hf hl)
    (fun _ _ _ _ hl => runHolds_run hl) (fun _ => runHolds_of_idle rfl) hs h

/-- Settles O47: the two invariants are kept together, since AES_KEYEXP expands the latched key. -/
theorem keyValidMeansExpanded : Obligations.KeyValidMeansExpanded := by
  intro s t hrun hkey h
  have both : t.AllEngines (fun e => e.RunHolds ∧ e.KeyHolds) := by
    refine allEngines_step (fun _ _ hf => hf) ?_ ?_ ?_ (fun e he => ⟨hrun e he, hkey e he⟩) h
    · rintro f g off v ⟨hr, hk⟩ hl
      exact ⟨runHolds_write hr hl, keyHolds_write hk hl⟩
    · rintro f g ⟨hr, hk⟩ hb hl
      exact ⟨runHolds_run hl, keyHolds_run hr hk hb hl⟩
    · exact fun rk => ⟨runHolds_of_idle rfl, keyHolds_of_invalid rfl⟩
  exact fun e he => (both e he).2

/-- Every engine of the machine right after reset is the engine right after reset. -/
theorem reset_engines {g : Engine} (h : g ∈ State.reset.engines) : g = Engine.reset := by
  rcases List.mem_cons.mp h with rfl | h
  · rfl
  · exact List.eq_of_mem_replicate h

/-- Every register of an engine right after reset reads 0. -/
theorem readReg_reset (reg : Reg) : Engine.reset.readReg reg = 0 := by cases reg <;> rfl

/-- Settles O40: all engines are the reset engine, whose registers read 0. -/
theorem resetStateValues : Obligations.ResetStateValues := by
  refine ⟨Nat.succ_pos _, fun g hg => ?_⟩
  rw [reset_engines hg]
  exact ⟨rfl, fun off => readReg_reset (regAt off), rfl, rfl, rfl⟩

/-- Settles O50: a reset engine is IDLE without a valid key, and memory lists nothing. -/
theorem resetMeetsInvariants : Obligations.ResetMeetsInvariants := by
  refine ⟨fun g hg => ?_, fun g hg => ?_, reset_mem_wf, fun c hc => absurd hc List.not_mem_nil⟩
  · rw [reset_engines hg]
    exact runHolds_of_idle rfl
  · rw [reset_engines hg]
    exact keyHolds_of_invalid rfl

/-! ## The host's register accesses (10_state.md R32 to R47) -/

/-- Settles O10: in each of the three cases the write leaves the engine as it is. -/
theorem ignoredRegisterWrites : Obligations.IgnoredRegisterWrites := by
  intro s e off f v rest hf ho h4 hag hcase
  have h0 : off ≠ 0 := by
    rcases hcase with ⟨-, h0⟩ | hmem | hge
    · exact h0
    · rintro rfl
      exact absurd hmem (by decide)
    · omega
  have hkeep : f.writeReg (regAt off) v = f := by
    rcases hcase with ⟨hp, -⟩ | hmem | hge
    · exact writeReg_busy _ _ ((busy_iff f).mpr hp)
    · have hro : ∀ o ∈ [0x00C, 0x048, 0x04C, 0x050, 0x054, 0x058, 0x05C], regAt o ∈ readOnlyRegs := by decide
      exact writeReg_readOnly v (hro off hmem)
    · exact writeReg_readOnly v (by rw [regAt_of_ge hge]; decide)
  obtain ⟨hlt, rfl⟩ := List.getElem?_eq_some_iff.mp hf
  rw [step_writeReg hf ho h4 h0 hag, hkeep, List.set_getElem_self]

/-- The offsets of the operand registers but the key (10_state.md R32). -/
def operandOffsets : List Nat :=
  [0x008, 0x010, 0x014, 0x018, 0x01C, 0x020, 0x024, 0x028, 0x02C, 0x030, 0x034, 0x038, 0x03C, 0x040, 0x044]

/-- The operand offsets are aligned, inside the block, and hold the operand registers. -/
theorem operandOffsets_spec :
    ∀ o ∈ operandOffsets, o < 0x100 ∧ o % 4 = 0 ∧ o ≠ 0 ∧ regAt o ∈ readableOperands := by decide

/-- An operand register is not STATUS, no key register and not reserved. -/
theorem readableOperands_spec :
    ∀ reg ∈ readableOperands, reg ≠ .status ∧ reg.isKey = false ∧ reg ≠ .reserved := by decide

/-- Settles O11: the write changes the operand registers alone, by the map's register at the offset. -/
theorem writtenOperandReadsBack : Obligations.WrittenOperandReadsBack := by
  intro s e off f v rest hf hp hoff hag
  obtain ⟨ho, h4, h0, hreg⟩ := operandOffsets_spec off hoff
  obtain ⟨hs, hk, hr⟩ := readableOperands_spec _ hreg
  have hb : f.busy = false := by simp [Engine.busy, hp]
  have hstep := step_writeReg hf ho h4 h0 hag
  rw [writeReg_operand v hb hs hk] at hstep
  refine ⟨_, _, hstep, rfl, by rw [readReg_write v hreg, if_pos rfl], fun o _ ho4 hne => ?_, write_keys _ v hk, rfl, rfl, rfl,
    ?_, ?_, ?_, ?_, ?_, ?_, ?_, ?_, ?_, ?_, ?_, ?_, ?_, ?_, ?_⟩
  · rw [readReg_write v hreg, if_neg fun heq => hne (regAt_injective h4 ho4 hr heq)]
  all_goals
    rintro rfl
    rfl

/-- Settles O12: offset 0x060 + 4i holds KEYi, and an IDLE write of it is `writeReg_key`. -/
theorem keyWriteClearsKeyValid : Obligations.KeyWriteClearsKeyValid := by
  intro s e i f v rest hf hp hag
  have hb : f.busy = false := by simp [Engine.busy, hp]
  have hi := i.isLt
  have hstep := step_writeReg hf (by omega) (by omega) (by omega) hag
  rw [regAt_key, writeReg_key v i hb] at hstep
  exact ⟨_, _, hstep, rfl, rfl, by rw [regAt_key]; rfl⟩

/-- Settles O13: the value is `readReg` of the map's register. -/
theorem registerReadsShowTheState : Obligations.RegisterReadsShowTheState := by
  intro s e off f rest hf ho h4 hag
  have hstep := step_regRead (List.getElem?_eq_some_iff.mp hf).1 ho h4 hag
  have hget : s.engines.getD e Engine.reset = f := by simp [List.getD_eq_getElem?_getD, hf]
  rw [hget] at hstep
  refine ⟨_, hstep, ?ctrl, ?status, ?_, ?_, ?_, ?_, ?_, ?_, ?_, ?_, ?_, ?_, ?_, ?_, ?_, ?_, ?_, ?_, ?_, ?_, ?_, ?_,
    ?keyStatus, ?zero⟩
  case ctrl =>
    rintro rfl
    exact ctrlWord_eq f
  case status =>
    rintro rfl
    have hbusy : f.busy = decide (f.phase = .running) := by simp [Engine.busy, beq_eq_decide]
    exact hbusy ▸ statusWord_fields f
  case keyStatus =>
    rintro rfl
    exact keyStatusWord_eq f
  case zero =>
    rintro (hge | rfl)
    · rcases regAt_key_or_reserved hge with hk | hr
      · exact readReg_of_isKey hk
      · rw [hr]
        rfl
    · rfl
  all_goals
    rintro rfl
    rfl

/-- Settles O14: reads and writes go through the one check of `onRegister`. -/
theorem oddRegisterAccessRefused : Obligations.OddRegisterAccessRefused := by
  intro s e off width v rest he ho hodd
  refine ⟨fun hag => ?_, fun hag => ?_⟩
  · rw [step_event hag, onEvent, hostRegWrite]
    exact onRegister_odd { s with agenda := rest } _ he ho hodd
  · rw [step_event hag, onEvent, hostRegRead]
    exact onRegister_odd { s with agenda := rest } _ he ho hodd

/-! ## Outputs beyond the capacity (10_state.md R39, 60_exceptions.md R363) -/

/-- A ready command whose pseudocode raises an error ends with that error. -/
theorem exec_fails {i : Instr} {s : State} {err : Status} (h : s.Ready i) (hb : bodyOf i s = .error err) :
    ∃ t, exec i s = .next t ∧ s.FailsInBody t err :=
  ⟨_, by rw [exec_eq, run_error h hb], raiseInBody_spec s err h.acting⟩

/-- A field of the beginning of a byte string. -/
theorem slice_take {a : List Byte} {i n m : Nat} (h : i + n ≤ m) : slice (a.take m) i n = slice a i n := by
  simp only [slice, List.drop_take, List.take_take]
  congr 1
  omega

/-- A shorter read gives the beginning of a longer one. -/
theorem readBytes_take (s : State) (a n m : Nat) : (s.readBytes a n).take m = s.readBytes a (min n m) := by
  simp only [State.readBytes, ← List.map_take, List.take_range, Nat.min_comm]

/-- The magic of the header bytes alone is that of the whole source. -/
theorem rd32_headerBytes (s : State) : rd32 (s.readBytes s.ops.source.start (min s.slen 272)) 0 = rd32 s.source 0 := by
  rw [← readBytes_take, rd32, slice_take (by omega)]
  rfl

/-- A decoder whose header declares more than fits raises IoFailure before it decodes. -/
theorem withArtifact_beyond {s : State} (rest : Nat → List Byte → Except Status Output) (hl : 272 ≤ s.slen)
    (hm : rd32 s.source 0 = s.platform.magic.toNat) (hc : s.cap < rd64 s.source 4) :
    s.withArtifact rest = .error .ioFailure := by
  rw [State.withArtifact, parseHeader_ok.mpr ⟨hl, hm, rfl⟩, andThen_ok, if_pos hc]

/-- Each decoder begins with the header. -/
theorem decoder_withArtifact (s : State) :
    ∀ i ∈ [Instr.hufDec, .lzwDec, .rleDec, .aesDec], ∃ rest, bodyOf i s = s.withArtifact rest := by
  intro i hi
  simp only [List.mem_cons, List.not_mem_nil, or_false] at hi
  rcases hi with rfl | rfl | rfl | rfl
  · exact ⟨fun orig input => andThen (huffDecode orig input) (exactSize orig), rfl⟩
  · exact ⟨fun orig input => andThen (lzwUnpack orig input) (exactSize orig), rfl⟩
  · exact ⟨fun orig input => andThen (rleDecodeFrom orig [] (input.drop 272)) (fun out => .ok (Output.ofBytes out)), rfl⟩
  · exact ⟨fun orig input =>
      let c := input.drop Config.hdrLen
      if c.length % 16 ≠ 0 then .error .corruptInput
      else if c.length = 0 then .error .paddingInvalid
      else andThen (pkcs7Unpad (ecbDec s.acting.rk c)) (exactSize orig), rfl⟩

/-- HDR_RD of a header of the right magic raises IoFailure where the name field does not fit. -/
theorem hdrRdBody_beyond {s : State} (hl : 272 ≤ s.slen) (hm : rd32 s.source 0 = s.platform.magic.toNat)
    (hc : s.cap < 256) : hdrRdBody s = .error .ioFailure := by
  have hp := parseHeader_ok.mpr ⟨hl, (rd32_headerBytes s).trans hm, rfl⟩
  rw [hdrRdBody, Config.hdrLen, hp, andThen_ok, Config.nameField, if_pos hc]

/-- Settles O28: each body raises IoFailure at its capacity check. -/
theorem outputBeyondCapacityIsIoFailure : Obligations.OutputBeyondCapacityIsIoFailure := by
  refine fun s => ⟨fun hr hc => exec_fails hr ?_, fun hl hm => ⟨fun hr hc => ?_, fun i hi hr hc => ?_⟩⟩
  · exact if_pos hc
  · exact exec_fails hr (hdrRdBody_beyond hl hm hc)
  · obtain ⟨rest, hbody⟩ := decoder_withArtifact s i hi
    exact exec_fails hr (hbody.trans (withArtifact_beyond rest hl hm hc))

/-! ## What only certain events change (10_state.md R40, R44, R45, R48) -/

/-- Settles O42: of all that a step can do to an engine, only a reset and an HDR_RD touch the header registers. -/
theorem headerRegistersChangeOnlyByHdrRd : Obligations.HeaderRegistersChangeOnlyByHdrRd := by
  intro s t k f g h hf hg hne
  rcases step_engine h hf hg with ⟨r, rfl, -⟩ | ⟨off, v, -, -, -, hl⟩ | ⟨hrun, hb, hl⟩ | ⟨hreset, -⟩
  · simp at hne
  · obtain ⟨hsize, hflags, -, -⟩ := writeLeaves_keeps hl
    simp [hsize, hflags] at hne
  · obtain ⟨u, err, n, rfl, rfl | ⟨hd, -, herr⟩ | ⟨-, rfl⟩⟩ := runLeaves_complete hl
    · simp at hne
    · exact .inr ⟨hrun, (busy_iff f).mp hb, hd, herr⟩
    · simp at hne
  · exact .inl hreset

/-- Settles O43: only a reset and AES_KEYEXP touch RK, and a reset clears KEY_VALID. -/
theorem keyStoreChangesOnlyByKeyexp : Obligations.KeyStoreChangesOnlyByKeyexp := by
  intro s t k f g h hf hg
  rcases step_engine h hf hg with ⟨r, rfl, -⟩ | ⟨off, v, -, -, -, hl⟩ | ⟨hrun, hb, hl⟩ | ⟨hreset, rk, rfl⟩
  · exact ⟨fun hne => absurd rfl hne, fun hg hf => by simp [hf] at hg⟩
  · obtain ⟨-, -, hrk, hkv⟩ := writeLeaves_keeps hl
    exact ⟨fun hne => absurd hrk hne, fun hg hf => by simp [hkv hg] at hf⟩
  · have hp := (busy_iff f).mp hb
    obtain ⟨u, err, n, rfl, rfl | ⟨-, ⟨v, w, rfl⟩, -⟩ | ⟨hd, -⟩⟩ := runLeaves_complete hl
    · exact ⟨fun hne => absurd rfl hne, fun hg hf => by simp [hf] at hg⟩
    · exact ⟨fun hne => absurd rfl hne, fun hg hf => by simp [hf] at hg⟩
    · exact ⟨fun _ => .inr ⟨hrun, hp, hd⟩, fun _ _ => ⟨hrun, hp, hd⟩⟩
  · exact ⟨fun _ => .inl hreset, fun hg => absurd hg (by simp [Engine.reset])⟩

/-- Settles O44: marking a race and completion keep the operand registers. -/
theorem operandsChangeOnlyByTheHost : Obligations.OperandsChangeOnlyByTheHost := by
  intro s t k f g h hf hg hne
  rcases step_engine h hf hg with ⟨r, rfl, -⟩ | ⟨off, v, hw, ho, h4, hl⟩ | ⟨-, -, hl⟩ | ⟨hreset, -⟩
  · exact absurd rfl hne
  · obtain ⟨hb, hregs⟩ := writeLeaves_regs hl hne
    have hidle : f.phase = .idle := by
      cases hp : f.phase with
      | idle => rfl
      | running => simp [(busy_iff f).mpr hp] at hb
    exact .inr ⟨hidle, off, v, ho, h4, hw, hregs⟩
  · obtain ⟨u, err, n, rfl, -⟩ := runLeaves_complete hl
    simp at hne
  · exact .inl hreset

end Sys2Proof.Machine
end

section
/-! SUPPORT and PROOFS of the statements of 20_memory.md: the predicates on buffers, what each event does to the memory and to
the race marks, one induction for the properties of memory that every step keeps, and then the statements themselves. -/

namespace Sys2Proof.Machine

/-! ## Buffers (20_memory.md R76, R77) -/

/-- Two buffers overlap exactly when they share an address. -/
theorem overlaps_iff (x y : Config.Region) :
    overlaps x y = true ↔ ∃ a, covers x a = true ∧ covers y a = true := by
  simp only [overlaps, Bool.and_eq_true, decide_eq_true_eq, covers_iff]
  constructor
  · intro h
    exact ⟨max x.start y.start, by omega, by omega⟩
  · rintro ⟨a, hx, hy⟩
    omega

/-- An address is backed when no unbacked range covers it. -/
theorem memValid_iff (p : Config.Platform) (a : Nat) :
    memValid p a = true ↔ ∀ r ∈ p.unbacked, covers r a = false := by
  simp [memValid]

/-- A buffer overlaps no unbacked range exactly when each of its addresses is backed. -/
theorem no_unbacked_overlap_iff (p : Config.Platform) (x : Config.Region) :
    p.unbacked.all (fun r => !overlaps x r) = true ↔ ∀ a, covers x a = true → memValid p a = true := by
  simp only [List.all_eq_true, Bool.not_eq_true', ← Bool.not_eq_true, overlaps_iff, memValid_iff, not_exists, not_and]
  exact ⟨fun h a ha r hr => h r hr a ha, fun h r hr a ha => h a ha r hr⟩

/-- The host can access an address that exists and is backed. -/
theorem memBacked_iff (s : State) (a : Nat) :
    s.memBacked a = true ↔ a < 2 ^ s.platform.addrW ∧ memValid s.platform a = true := by
  simp [State.memBacked]

/-- The region that the command of a valid word writes. -/
theorem writes_of_decode {r : OperandRegs} {i : Instr} (h : decode r.cmd = .ok i) : r.writes = writeBuffers i r := by
  simp only [OperandRegs.writes, OperandRegs.command, h]

/-- Past the pre-checks the destination is in range. -/
theorem preCheck_dest {s : State} {i : Instr} (h : s.preCheck i = none) (hd : usesDest i = true) :
    rangeOK s.platform s.ops.dest = true := by
  simp only [State.preCheck, check_none, Bool.and_eq_true, Bool.not_eq_true', not_and, Bool.not_eq_false] at h
  obtain ⟨-, -, -, hdest, -⟩ := h
  exact hdest hd

/-! ## What an event does to memory -/

/-- A byte written by itself reads back. -/
theorem readByte_write_self (s : State) (a : Nat) (b : Byte) : (s.writeBytes a [b]).readByte a = b :=
  readByte_write_inside s a [b] 0 Nat.one_pos

/-- A byte written by itself changes no other. -/
theorem readByte_write_ne (s : State) {a x : Nat} (b : Byte) (h : x ≠ a) :
    (s.writeBytes a [b]).readByte x = s.readByte x :=
  readByte_write_outside s a [b] x (by rw [List.length_singleton]; omega)

/-- A host register write does not touch memory. -/
theorem hostRegWrite_memory {addr width : Nat} {v : Word} {s t : State} (h : hostRegWrite addr width v s = .next t) :
    t.mem = s.mem ∧ t.openRegions = s.openRegions := by
  obtain ⟨e, off, -, -, -, -, -, rfl⟩ := hostRegWrite_cases addr width v s t h
  rcases writeRegister_cases s e (regAt off) v with ⟨-, -, -, hq⟩ | ⟨-, -, hq⟩ | ⟨-, hq⟩ <;>
    exact ⟨by rw [hq]; rfl, by rw [hq]; rfl⟩

/-- A host register read does not touch memory. -/
theorem hostRegRead_memory {addr width : Nat} {s t : State} (h : hostRegRead addr width s = .next t) :
    t.mem = s.mem ∧ t.openRegions = s.openRegions := by
  obtain ⟨e, off, -, -, -, -, -, rfl⟩ := hostRegRead_cases addr width s t h
  exact ⟨rfl, rfl⟩

/-- A host read of a byte changes no byte, race or not. -/
theorem hostMemRead_memory {a : Nat} {s t : State} (h : hostMemRead a s = .next t) :
    t.mem = s.mem ∧ t.openRegions = s.openRegions := by
  obtain ⟨-, ⟨-, rfl⟩ | ⟨-, rfl⟩⟩ := hostMemRead_cases a s t h <;> exact ⟨rfl, rfl⟩

/-- An execution step changes a byte only inside the destination of the RUNNING engine that takes it. -/
theorem runEngine_memory {e a : Nat} {s t : State} (h : runEngine e s = .next t)
    (hc : t.readByte a ≠ s.readByte a) : ∃ f, s.engines[e]? = some f ∧ ¬ f.LeavesAlone a := by
  obtain ⟨f, hf, ⟨-, rfl⟩ | ⟨hp, i, hd, hx⟩ | ⟨-, err, -, rfl⟩⟩ := runEngine_cases e s t h
  · exact absurd rfl hc
  · obtain ⟨hdst, hcov⟩ := exec_memory hx hc
    have hact : ({ s with active := e } : State).acting = f := acting_eq _ hf
    rw [State.ops, hact] at hcov
    have hmem : f.latched.dest ∈ f.latched.writes := by simp [writes_of_decode hd, writeBuffers, hdst]
    exact ⟨f, hf, fun hl => by simp [hl ((busy_iff f).mpr hp) _ hmem] at hcov⟩
  · exact absurd rfl hc

/-- A reset changes a byte only inside the destination of the command it abandons (70_reset_and_hazards.md R391). -/
theorem platformReset_memory {e a : Nat} {s t : State} (h : platformReset e s = .next t)
    (hc : t.readByte a ≠ s.readByte a) : ∃ f, s.engines[e]? = some f ∧ ¬ f.LeavesAlone a := by
  obtain ⟨f, s1, hf, rfl, rfl⟩ := platformReset_cases e s t h
  refine ⟨f, hf, fun hl => hc (readByte_fold f.abandoned s a fun r hr => ?_)⟩
  unfold Engine.abandoned at hr
  split at hr
  next hb => exact hl hb r hr
  next => exact absurd hr List.not_mem_nil

/-! ## Properties of memory that every step keeps -/

/-- A property of memories that leaving a region at any value keeps, and writing where the platform has memory. -/
structure KeptByWriters (p : Config.Platform) (P : Memory → Prop) : Prop where
  forget : ∀ m r, P m → P (m.forget r)
  write : ∀ m a bs, (∀ x, a ≤ x → x < a + bs.length → x < 2 ^ p.addrW ∧ memValid p x = true) → P m → P (m.write a bs)

section Kept

variable {P : Memory → Prop} {s t : State}

/-- The output of a successful command is written inside its destination, which is in range, or is empty. -/
theorem finish_kept {i : Instr} {o : Output} (hP : KeptByWriters s.platform P) (hp : s.preCheck i = none)
    (ho : bodyOf i s = .ok o) (hs : P s.mem) : P (s.finish o).mem := by
  refine hP.write s.mem s.dst o.bytes (fun x hge hlt => ?_) hs
  rcases body_fits ho with ⟨hd, hl⟩ | ⟨-, hl⟩
  · have hcap : x < s.dst + s.cap := by omega
    exact rangeOK_backed (preCheck_dest hp hd) ((covers_iff s.ops.dest x).mpr ⟨hge, hcap⟩)
  · rw [hl, List.length_nil] at hlt
    omega

/-- A command leaves its destination at any value, writes its output there, or does not touch memory. -/
theorem exec_kept {i : Instr} (hP : KeptByWriters s.platform P) (hs : P s.mem) (h : exec i s = .next t) :
    P t.mem := by
  rw [exec_eq] at h
  rcases runCommand_cases i _ s t h with ⟨-, -, rfl⟩ | ⟨err, -, rfl⟩ | ⟨err, -, -, rfl⟩ | ⟨o, hp, ho, rfl⟩
  · exact hP.forget _ _ hs
  · exact hs
  · exact hP.forget _ _ hs
  · exact finish_kept hP hp ho hs

/-- An execution step is that of the command, or leaves memory as it is. -/
theorem runEngine_kept {e : Nat} (hP : KeptByWriters s.platform P) (hs : P s.mem) (h : runEngine e s = .next t) :
    P t.mem := by
  obtain ⟨f, -, ⟨-, rfl⟩ | ⟨-, i, -, hx⟩ | ⟨-, err, -, rfl⟩⟩ := runEngine_cases e s t h
  · exact hs
  · exact exec_kept (s := { s with active := e }) hP hs hx
  · exact hs

/-- A reset leaves regions at any value. -/
theorem platformReset_kept {e : Nat} (hP : KeptByWriters s.platform P) (hs : P s.mem)
    (h : platformReset e s = .next t) : P t.mem := by
  obtain ⟨f, s1, -, rfl, rfl⟩ := platformReset_cases e s t h
  exact List.foldlRecOn (motive := fun u : State => P u.mem) f.abandoned _ hs (fun u hu r _ => hP.forget u.mem r hu)

/-- Every step keeps a property of memory that its writers keep. -/
theorem memory_step (hP : KeptByWriters s.platform P) (hs : P s.mem) (h : step s = .next t) : P t.mem := by
  rcases step_cases s t h with ⟨ev, rest, -, hev⟩ | ⟨e, -, -, hr⟩ | ⟨-, -, rfl⟩
  · cases ev with
    | regWrite addr width v => rwa [(hostRegWrite_memory hev).1]
    | regRead addr width => rwa [(hostRegRead_memory hev).1]
    | memWrite a b =>
      obtain ⟨hb, rfl⟩ := hostMemWrite_cases a b _ t hev
      refine hP.write s.mem a [b] (fun x hge hlt => ?_) hs
      rw [List.length_singleton] at hlt
      obtain rfl : x = a := by omega
      exact (memBacked_iff s x).mp hb
    | memRead a => rwa [(hostMemRead_memory hev).1]
    | run e => exact runEngine_kept (s := { s with agenda := rest }) hP hs hev
    | reset e => exact platformReset_kept (s := { s with agenda := rest }) hP hs hev
  · exact runEngine_kept hP hs hr
  · exact hs

end Kept

/-- The cells after a write are old ones or lie in the written block. -/
theorem mem_write {m : Memory} {a : Nat} {bs : List Byte} {c : Host.Cell} (h : c ∈ m.write a bs) :
    c ∈ m ∨ (a ≤ c.1 ∧ c.1 < a + bs.length) := by
  unfold Memory.write at h
  split at h
  next => exact .inl h
  next =>
    rcases List.mem_append.mp h with h | h
    · rcases List.mem_append.mp h with h | h
      · exact .inl (List.mem_of_mem_filter h)
      · exact .inr (mem_cells h)
    · exact .inl (List.mem_of_mem_filter h)

/-- The writers keep the canonical form. -/
theorem wf_kept (p : Config.Platform) : KeptByWriters p (fun m => m.wf = true) where
  forget := forget_wf
  write := fun m a bs _ => write_wf m a bs

/-- The writers list only addresses that exist and that the platform backs. -/
theorem inRange_kept (p : Config.Platform) :
    KeptByWriters p (fun m => ∀ c ∈ m, c.1 < 2 ^ p.addrW ∧ memValid p c.1 = true) where
  forget := fun _ _ hm c hc => hm c (List.mem_of_mem_filter hc)
  write := fun _ _ _ hb hm c hc => (mem_write hc).elim (hm c) (fun ⟨hge, hlt⟩ => hb c.1 hge hlt)

/-- Memory is in range when each listed address exists and is backed. -/
theorem memoryInRange_iff (s : State) :
    s.MemoryInRange ↔ ∀ c ∈ s.mem, c.1 < 2 ^ s.platform.addrW ∧ memValid s.platform c.1 = true := by
  simp only [State.MemoryInRange, memBacked_iff]

/-- Settles O48: writes and regions left at any value keep the canonical form. -/
theorem memoryStaysCanonical : Obligations.MemoryStaysCanonical := by
  intro s t hs h
  exact memory_step (wf_kept s.platform) hs h

/-- Settles O49: the host writes backed bytes only, and a command writes inside a destination that passed RangeOK. -/
theorem memoryStaysInRange : Obligations.MemoryStaysInRange := by
  intro s t hs h
  obtain ⟨hplat, -⟩ := step_fixed h
  rw [memoryInRange_iff] at hs ⊢
  rw [hplat]
  exact memory_step (inRange_kept s.platform) hs h

/-! ## Races (20_memory.md R79, R84) -/

/-- Marking races by a condition sets the mark of a RUNNING engine exactly when its latched operands meet it. -/
theorem markRaced_running {s : State} {k : Nat} {g : Engine} (p : OperandRegs → Bool) (hg : s.engines[k]? = some g)
    (hb : g.busy = true) :
    ∃ g', (s.markRaced p).engines[k]? = some g' ∧ g'.raced = (g.raced || p g.latched) := by
  rw [markRaced_engine, hg, Option.map_some]
  refine ⟨_, rfl, ?_⟩
  rw [hb]
  cases p g.latched <;> simp

/-- Marking races leaves alone what the engines left alone. -/
theorem markRaced_leavesAlone {s : State} {a : Nat} (p : OperandRegs → Bool) (h : ∀ e ∈ s.engines, e.LeavesAlone a) :
    ∀ e ∈ (s.markRaced p).engines, e.LeavesAlone a := by
  intro g hg
  obtain ⟨e, he, rfl⟩ := List.mem_map.mp hg
  split <;> exact h e he

/-- No running command's destination covers an address exactly when every engine leaves it alone. -/
theorem noWriter_iff (s : State) (a : Nat) :
    s.engines.any (fun e => e.busy && e.latched.writes.any (fun x => covers x a)) = false ↔
      ∀ e ∈ s.engines, e.LeavesAlone a := by
  simp [Engine.LeavesAlone]

/-- The next event is a host write of a backed byte: it is stored, race or not (log entry 7). -/
theorem step_memWrite {s : State} {a : Nat} {b : Byte} {rest : List Event} (hm : s.memBacked a = true)
    (ha : s.agenda = .memWrite a b :: rest) :
    step s = .next ((({ s with agenda := rest } : State).markRaced
      (fun r => (r.reads ++ r.writes).any (fun x => covers x a))).writeBytes a [b]) := by
  rw [step_event ha, onEvent, hostMemWrite]
  exact if_pos hm

/-- The next event is a host read of a backed byte that some running command writes: a race. -/
theorem step_memRead_race {s : State} {a : Nat} {rest : List Event} (hm : s.memBacked a = true)
    (hw : ¬ ∀ e ∈ s.engines, e.LeavesAlone a) (ha : s.agenda = .memRead a :: rest) :
    step s = .next { ({ s with agenda := rest } : State).markRaced (fun r => r.writes.any (fun x => covers x a)) with
      hostData := .byte (Config.freeHostRead s.draws), draws := s.draws + 1 } := by
  rw [← noWriter_iff, Bool.not_eq_false] at hw
  rw [step_event ha, onEvent, hostMemRead]
  exact (if_pos hm).trans (if_pos hw)

/-- The next event is a host read of a backed byte that no running command writes: it returns the byte. -/
theorem step_memRead_quiet {s : State} {a : Nat} {rest : List Event} (hm : s.memBacked a = true)
    (hw : ∀ e ∈ s.engines, e.LeavesAlone a) (ha : s.agenda = .memRead a :: rest) :
    step s = .next { s with agenda := rest, hostData := .byte (s.readByte a) } := by
  rw [← noWriter_iff, ← Bool.not_eq_true] at hw
  rw [step_event ha, onEvent, hostMemRead]
  exact (if_pos hm).trans (if_neg hw)

/-- The engine of a number that has one. -/
theorem engines_getD {s : State} {e : Nat} {f : Engine} (h : s.engines[e]? = some f) :
    s.engines.getD e Engine.reset = f := by
  simp [List.getD_eq_getElem?_getD, h]

/-- A write of CTRL with bit 0 set is START acceptance by an IDLE engine. -/
theorem step_start {s : State} {e : Nat} {f : Engine} {v : Word} {rest : List Event} (hf : s.engines[e]? = some f)
    (hb : f.busy = false) (ha : s.agenda = .regWrite (s.regAddr e 0x000) 4 v :: rest) (hv : v.getLsbD 0 = true) :
    step s = .next (({ s with agenda := rest } : State).acceptStart e (v.getLsbD 1)) := by
  have hidle : (v.getLsbD 0 && !(s.engines.getD e Engine.reset).busy) = true := by
    rw [hv, engines_getD hf, hb, Bool.not_false, Bool.and_true]
  rw [step_regWrite (List.getElem?_eq_some_iff.mp hf).1 (by decide) (by decide) ha, State.writeRegister]
  exact congrArg Host.Outcome.next ((if_pos rfl).trans (if_pos hidle))

/-- Settles O35: a raced command ends in `finishRaced`, which updates at most the header registers. -/
theorem racedCommandStaysConfined : Obligations.RacedCommandStaysConfined := by
  intro i s hd ha hr
  have hexec : exec i s = .next (s.finishRaced i) := by simp [exec_eq, runCommand, hd, hr]
  have hact := finishRaced_acting s i ha
  refine ⟨_, hexec, ?phase, ?done, ?regs, ?irqEn, fun hi => ?header, ?key, finishRaced_others s i, fun a hc => ?memory⟩
  case memory => rw [finishRaced_readByte, readByte_openRegion s _ a hc]
  case header =>
    rw [if_neg hi] at hact
    constructor <;> simp [hact]
  case key =>
    by_cases hi : i = .hdrRd
    · rw [if_pos hi] at hact
      constructor <;> simp [hact]
    · rw [if_neg hi] at hact
      constructor <;> simp [hact]
  all_goals simp [hact]

/-- Settles O36: the START marks the new command by `any` over the running ones, and each of them by its own conflict. -/
theorem conflictingStartRacesBoth : Obligations.ConflictingStartRacesBoth := by
  intro s e k f g v rest hf hfp hg hgp ha hv
  have hb : f.busy = false := by simp [Engine.busy, hfp]
  have hgb : g.busy = true := (busy_iff g).mpr hgp
  have hne : k ≠ e := by
    rintro rfl
    obtain rfl : f = g := Option.some.inj (hf.symm.trans hg)
    simp [hb] at hgb
  have hself := acceptStart_self (s := { s with agenda := rest }) (v.getLsbD 1) hf hb
  have hother := acceptStart_other { s with agenda := rest } (v.getLsbD 1) hne
  simp only [engines_getD hf, hg, Option.map_some, hgb, Bool.true_and] at hother
  refine ⟨_, _, _, step_start hf hb ha hv, hself, hother, fun hc => ⟨?_, by simp [hc]⟩, fun hc => by simp [hc],
    fun hnone => ?_⟩
  · exact List.any_eq_true.mpr ⟨g, List.mem_of_getElem? hg, by simp [hgb, hc]⟩
  · simpa using hnone

/-- Settles O37: a write marks by all buffers, a read by the destination, and where no engine writes the byte a read marks
nothing. -/
theorem hostAccessRaces : Obligations.HostAccessRaces := by
  intro s k a g rest hg hp hm
  have hb : g.busy = true := (busy_iff g).mpr hp
  refine ⟨fun b ha => ?write, fun ha => ?read⟩
  case write =>
    obtain ⟨g', hg', hr⟩ := markRaced_running (s := { s with agenda := rest })
      (fun r => (r.reads ++ r.writes).any (fun x => covers x a)) hg hb
    exact ⟨_, g', step_memWrite hm ha, hg', readByte_write_self _ a b, hr⟩
  case read =>
    by_cases hw : ∀ e ∈ s.engines, e.LeavesAlone a
    · have hnone : g.latched.writes.any (fun x => covers x a) = false := by
        simpa using hw g (List.mem_of_getElem? hg) hb
      exact ⟨_, g, step_memRead_quiet hm hw ha, hg, by rw [hnone, Bool.or_false]⟩
    · obtain ⟨g', hg', hr⟩ := markRaced_running (s := { s with agenda := rest })
        (fun r => r.writes.any (fun x => covers x a)) hg hb
      exact ⟨_, g', step_memRead_race hm hw ha, hg', hr⟩

/-! ## The host's memory accesses (20_memory.md R70, R74) -/

/-- Settles O38: the write stores the byte, and since no running command writes there the read returns it. -/
theorem hostByteReadsBack : Obligations.HostByteReadsBack := by
  intro s a b rest hm hl ha
  have halone := markRaced_leavesAlone (fun r => (r.reads ++ r.writes).any (fun x => covers x a)) hl
  refine ⟨_, _, step_memWrite hm ha, step_memRead_quiet hm halone rfl, ?_, rfl, fun x hx => ?_⟩
  · exact congrArg HostData.byte (readByte_write_self _ a b)
  · exact readByte_write_ne _ b hx

/-! ## What changes a byte (20_memory.md R77, 70_reset_and_hazards.md R391) -/

/-- Settles O45: of all events only a host write of the byte, an execution step and a reset change a byte. -/
theorem memoryChangesOnlyByItsWriter : Obligations.MemoryChangesOnlyByItsWriter := by
  intro s t a h hc
  have untouched : ¬ (t.mem = s.mem ∧ t.openRegions = s.openRegions) :=
    fun ⟨hm, ho⟩ => hc (readByte_congr hm ho a)
  rcases step_cases s t h with ⟨ev, rest, ha, hev⟩ | ⟨e, ha, hfi, hr⟩ | ⟨-, -, rfl⟩
  · cases ev with
    | regWrite addr width v => exact absurd (hostRegWrite_memory hev) untouched
    | regRead addr width => exact absurd (hostRegRead_memory hev) untouched
    | memWrite a' b =>
      obtain ⟨-, rfl⟩ := hostMemWrite_cases a' b _ t hev
      by_cases haa : a = a'
      · exact .inl ⟨b, rest, haa ▸ ha⟩
      · exact absurd (readByte_write_ne _ b haa) hc
    | memRead a' => exact absurd (hostMemRead_memory hev) untouched
    | run e =>
      obtain ⟨f, hf, hl⟩ := runEngine_memory (s := { s with agenda := rest }) hev hc
      exact .inr ⟨e, f, hf, hl, .inl (.inl ⟨rest, ha⟩)⟩
    | reset e =>
      obtain ⟨f, hf, hl⟩ := platformReset_memory (s := { s with agenda := rest }) hev hc
      exact .inr ⟨e, f, hf, hl, .inr ⟨rest, ha⟩⟩
  · obtain ⟨f, hf, hl⟩ := runEngine_memory hr hc
    exact .inr ⟨e, f, hf, hl, .inl (.inr ⟨ha, hfi⟩)⟩
  · exact absurd rfl hc

/-! ## The range check (20_memory.md R76) -/

/-- Settles O51: overlapping an unbacked range is sharing a byte with it. -/
theorem rangeCheckIsByteWise : Obligations.RangeCheckIsByteWise := by
  intro p a n
  have hbytes : (∀ x, covers { start := a, len := n } x = true → memValid p x = true) ↔
      ∀ k, k < n → memValid p (a + k) = true := by
    simp only [covers_iff]
    refine ⟨fun h k hk => h (a + k) (by omega), fun h x ⟨hge, hlt⟩ => ?_⟩
    have hvalid := h (x - a) (by omega)
    rwa [Nat.add_sub_cancel' hge] at hvalid
  simp only [rangeOK, Bool.or_eq_true, beq_iff_eq, Bool.and_eq_true, decide_eq_true_eq, no_unbacked_overlap_iff, hbytes]
  by_cases hn : n = 0
  · simp [hn]
  · have hlt : a + n ≤ 2 ^ p.addrW → a < 2 ^ p.addrW := by omega
    simp only [hn, false_or]
    exact and_congr_right fun h => (and_iff_right (hlt h)).symm

end Sys2Proof.Machine
end

section
/-! SUPPORT and PROOFS of the statements of 30_encoding.md: the command word and the opcode map, the bitstream, the errors and
the output length of each command, and which artifacts the decoders reject, each part with the statements it settles. -/

namespace Sys2Proof.Machine

/-! ## The command word (30_encoding.md R100, R101) -/

/-- The assigned opcodes are the opcodes of the commands. -/
theorem mem_assignedOpcodes_iff (op : BitVec 8) : op ∈ assignedOpcodes ↔ ∃ i : Instr, op = i.opcode := by
  refine ⟨fun h => ?_, ?_⟩
  · simp only [assignedOpcodes, List.mem_cons, List.not_mem_nil, or_false] at h
    rcases h with h | h | h | h | h | h | h | h | h | h | h | h | h | h
    exacts [⟨.nop, h⟩, ⟨.hdrWr, h⟩, ⟨.hdrRd, h⟩, ⟨.hufEnc, h⟩, ⟨.hufDec, h⟩, ⟨.lzwEnc, h⟩, ⟨.lzwDec, h⟩, ⟨.rleEnc, h⟩,
      ⟨.rleDec, h⟩, ⟨.aesKeyexp, h⟩, ⟨.aesEnc, h⟩, ⟨.aesDec, h⟩, ⟨.aesRawEnc, h⟩, ⟨.aesRawDec, h⟩]
  · rintro ⟨i, rfl⟩
    cases i <;> decide

/-- The opcode of a command selects it. -/
theorem decodeOpcode_opcode (i : Instr) : decodeOpcode i.opcode = .ok i := by cases i <;> rfl

/-- An opcode that is not assigned selects no command. -/
theorem decodeOpcode_unassigned {op : BitVec 8} (h : op ∉ assignedOpcodes) :
    decodeOpcode op = .error (.unassignedOpcode op) := by
  simp only [assignedOpcodes, List.mem_cons, List.not_mem_nil, or_false, not_or] at h
  simp only [decodeOpcode, h, if_false]

/-- Two commands have two opcodes. -/
theorem opcode_injective {i j : Instr} (h : i.opcode = j.opcode) : i = j := by
  have hd := decodeOpcode_opcode i
  rw [h, decodeOpcode_opcode j, Except.ok.injEq] at hd
  exact hd.symm

/-- An opcode selects a command exactly when it is that command's. -/
theorem decodeOpcode_ok_iff (op : BitVec 8) (i : Instr) : decodeOpcode op = .ok i ↔ op = i.opcode := by
  by_cases hop : op ∈ assignedOpcodes
  · obtain ⟨j, rfl⟩ := (mem_assignedOpcodes_iff op).mp hop
    rw [decodeOpcode_opcode, Except.ok.injEq]
    exact ⟨congrArg Instr.opcode, opcode_injective⟩
  · have hne : op ≠ i.opcode := fun h => hop ((mem_assignedOpcodes_iff op).mpr ⟨i, h⟩)
    simp only [decodeOpcode_unassigned hop, hne, reduceCtorEq]

/-- A word is its reserved field above its opcode: no bit lies outside the two. -/
theorem rsv_append_op (w : Word) : (splitWord w).rsv ++ (splitWord w).op = w := BitVec.extractLsb'_append_extractLsb'

/-- The fields of a word that is put together from them. -/
theorem splitWord_append (rsv : BitVec 24) (op : BitVec 8) : splitWord (rsv ++ op) = { op := op, rsv := rsv } := by
  rw [splitWord, BitVec.extractLsb'_append_eq_right, BitVec.extractLsb'_append_eq_left]

/-- A word decodes to a command exactly when its reserved field is 0 and its opcode is the command's. -/
theorem decode_ok_iff (w : Word) (i : Instr) :
    decode w = .ok i ↔ (splitWord w).rsv = 0 ∧ (splitWord w).op = i.opcode := by
  by_cases hr : (splitWord w).rsv = 0
  · simp only [decode, hr, if_true, decodeOpcode_ok_iff, true_and]
  · simp only [decode, hr, if_false, reduceCtorEq, false_and]

/-- An invalid word decodes to no command. -/
theorem decode_invalid {w : Word} (h : (splitWord w).rsv ≠ 0 ∨ (splitWord w).op ∉ assignedOpcodes) :
    ∃ err, decode w = .error err := by
  cases hd : decode w with
  | error err => exact ⟨err, rfl⟩
  | ok i =>
    obtain ⟨hrsv, hop⟩ := (decode_ok_iff w i).mp hd
    rcases h with h | h
    · exact absurd hrsv h
    · exact absurd ((mem_assignedOpcodes_iff _).mpr ⟨i, hop⟩) h

/-- The execution step of a RUNNING engine whose word decodes to no command completes with UnsupportedAlgorithm. -/
theorem runEngine_invalid {s : State} {e : Nat} {f : Engine} {err : DecodeError} (hf : s.engines[e]? = some f)
    (hp : f.phase = .running) (hd : decode f.latched.cmd = .error err) :
    runEngine e s = .next (({ s with active := e } : State).raise .unsupportedAlgorithm) := by
  simp only [runEngine, hf, hp, hd, execInvalid]

/-- Settles O1: both sides say that the reserved field is 0 and the opcode is the command's, and a word is these two fields. -/
theorem wordDecodesOnlyAsItsCommand : Obligations.WordDecodesOnlyAsItsCommand := by
  intro w i
  rw [decode_ok_iff, encode]
  refine ⟨fun ⟨hrsv, hop⟩ => ?_, ?_⟩
  · rw [← hrsv, ← hop, rsv_append_op]
  · rintro rfl
    rw [splitWord_append]
    exact ⟨rfl, rfl⟩

/-- The bytes of a command's word decode to the command. -/
theorem decodeBytes_of_word {b0 b1 b2 b3 : Byte} {i : Instr} (h : wordOfBytes b0 b1 b2 b3 = encode i) :
    decodeBytes [b0, b1, b2, b3] = .ok i := (wordDecodesOnlyAsItsCommand _ i).mpr h

/-- Settles O2: the four bytes are those of the command's word. -/
theorem familyWordsDecode : Obligations.FamilyWordsDecode :=
  ⟨decodeBytes_of_word rfl, decodeBytes_of_word rfl, decodeBytes_of_word rfl, decodeBytes_of_word rfl,
    decodeBytes_of_word rfl, decodeBytes_of_word rfl⟩

/-- Settles O3: the word decodes to no command, so the step is a completion that touches nothing else. -/
theorem invalidWordCompletesUnsupported : Obligations.InvalidWordCompletesUnsupported := by
  intro s e f rest hf hp hag hinvalid
  obtain ⟨err, hd⟩ := decode_invalid hinvalid
  refine ⟨_, ?_, raise_spec _ _ (List.getElem?_eq_some_iff.mp hf).1⟩
  rw [step_event hag, onEvent, runEngine_invalid (s := { s with agenda := rest }) hf hp hd]

/-! ## The bitstream (30_encoding.md R113) -/

/-- The number whose n binary digits are `f 0` to `f (n - 1)`, the first the most significant: bit n - 1 - j is `f j`. -/
theorem testBit_foldl_digits (f : Nat → Bool) (n j : Nat) (hj : j < n) :
    ((List.range n).foldl (fun acc k => 2 * acc + (f k).toNat) 0).testBit (n - 1 - j) = f j := by
  induction n with
  | zero => omega
  | succ n ih =>
    simp only [List.range_succ, List.foldl_append, List.foldl_cons, List.foldl_nil]
    have hdigit (a : Nat) (b : Bool) (k : Nat) :
        (2 * a + b.toNat).testBit k = if k < 1 then b.toNat.testBit k else a.testBit (k - 1) := by
      simpa using Nat.testBit_two_pow_mul_add a (i := 1) b.toNat_lt k
    rw [hdigit]
    by_cases hlast : j = n
    · subst hlast
      rw [if_pos (by omega)]
      cases hf : f j <;> simp
    · rw [if_neg (by omega), ← ih (by omega)]
      congr 1
      omega

/-- The bits of a byte, the first the most significant. -/
theorem byteOfBits_getLsbD (f : Nat → Bool) {j : Nat} (hj : j < 8) : (byteOfBits f).getLsbD (7 - j) = f j := by
  rw [byteOfBits, BitVec.getLsbD_ofNat, testBit_foldl_digits f 8 j hj]
  simp only [show 7 - j < 8 by omega, decide_true, Bool.true_and]

@[simp] theorem packBits_length (bits : List Bool) : (packBits bits).length = (bits.length + 7) / 8 := by
  simp [packBits]

/-- Settles O52: bit k stands in byte k / 8, at place k % 8 from its most significant bit. -/
theorem packedBitsReadBack : Obligations.PackedBitsReadBack := by
  intro bits
  refine ⟨packBits_length bits, fun k hk => ?_⟩
  rw [packBits_length] at hk
  have hbyte : (packBits bits).getD (k / 8) 0 = byteOfBits (fun j => bits.getD (8 * (k / 8) + j) false) := by
    have hlt : k / 8 < (bits.length + 7) / 8 := by omega
    simp [packBits, List.getD_eq_getElem?_getD, hlt]
  rw [streamBit, hbyte, byteOfBits_getLsbD _ (Nat.mod_lt k (by decide)), Nat.div_add_mod]
  by_cases h : k < bits.length <;> simp [List.getD_eq_getElem?_getD, h]

/-! ## The codes of errors (30_encoding.md R112, 60_exceptions.md R361) -/

/-- A check in front of the rest: the error is raised where the check fails or the rest raises it. -/
theorem check_error_iff {α : Type} {p : Prop} [Decidable p] {err : Status} {rest : Except Status α} :
    (if p then .error err else rest) = .error err ↔ p ∨ rest = .error err := by
  by_cases hp : p <;> simp [hp]

/-- A check in front of the rest, where it raises some error: its own, or the rest's. -/
theorem check_error {α : Type} {p : Prop} [Decidable p] {err err' : Status} {rest : Except Status α}
    (h : (if p then .error err' else rest) = .error err) : err = err' ∨ rest = .error err := by
  by_cases hp : p
  · rw [if_pos hp, Except.error.injEq] at h
    exact .inl h.symm
  · rw [if_neg hp] at h
    exact .inr h

/-- A check in front of a rest that can only raise the check's error. -/
theorem check_only {α : Type} {p : Prop} [Decidable p] {err err' : Status} {rest : Except Status α}
    (h : (if p then .error err' else rest) = .error err) (hrest : rest = .error err → err = err') : err = err' :=
  (check_error h).elim id hrest

theorem exactSize_error {orig : Nat} {out : List Byte} {err : Status} (h : exactSize orig out = .error err) :
    err = .sizeMismatch := check_only h nofun

theorem fitOutput_error {cap : Nat} {out : List Byte} {err : Status} (h : fitOutput cap out = .error err) :
    err = .ioFailure := check_only h nofun

theorem huffEncode_error {input : List Byte} {err : Status} (h : huffEncode input = .error err) :
    err = .limitExceeded := check_only h fun h => check_only h nofun

/-- Decoding code bits fails with CorruptInput only. -/
theorem huffSymbols_error {alpha : List SymFreq} {stream : List Byte} {total orig : Nat} {err : Status}
    (h : huffSymbols alpha stream total orig = .error err) : err = .corruptInput := by
  match alpha with
  | [] => exact check_only h nofun
  | [_] => exact check_only h nofun
  | _ :: _ :: _ => exact huffWalk_error h

/-- Each of the six checks of Huffman decoding, and the code bits, fail with CorruptInput only. -/
theorem huffDecode_error {orig : Nat} {input : List Byte} {err : Status} (h : huffDecode orig input = .error err) :
    err = .corruptInput :=
  check_only h fun h => check_only h fun h => check_only h fun h => check_only h fun h => check_only h fun h =>
    check_only h huffSymbols_error

theorem lzwDecode_error {orig : Nat} {codes : List Nat} {err : Status} (h : lzwDecode codes orig = .error err) :
    err = .corruptInput := by
  cases codes with
  | nil => cases h
  | cons c cs => exact check_only h fun h => check_only h lzwDecodeFrom_error

theorem lzwUnpack_error {orig : Nat} {input : List Byte} {err : Status} (h : lzwUnpack orig input = .error err) :
    err = .corruptInput := check_only h fun h => check_only h lzwDecode_error

/-- RLE decoding fails with CorruptInput, or at the end of the source with SizeMismatch. -/
theorem rleDecodeFrom_error {orig : Nat} {out input : List Byte} {err : Status}
    (h : rleDecodeFrom orig out input = .error err) : err = .corruptInput ∨ err = .sizeMismatch := by
  fun_induction rleDecodeFrom orig out input with
  | case1 => exact .inl (Except.error.inj h).symm
  | case2 => exact .inl (Except.error.inj h).symm
  | case3 _ _ _ _ _ _ _ _ _ _ _ ih => exact ih h
  | case4 => cases h
  | case5 => exact .inr (Except.error.inj h).symm
  | case6 => cases h
  | case7 => exact .inl (Except.error.inj h).symm
  | case8 => cases h

theorem pkcs7Unpad_error {q : List Byte} {err : Status} (h : pkcs7Unpad q = .error err) : err = .paddingInvalid :=
  check_only h fun h => check_only h nofun

theorem rawBlocks_error {s : State} {f : List Byte → List Byte} {err : Status} (h : rawBlocks s f = .error err) :
    err = .corruptInput ∨ err = .ioFailure := by
  rcases check_error h with he | h
  · exact .inl he
  · exact .inr (check_only h nofun)

/-- How a decoder fails: its header, its capacity, or the rest. -/
theorem withArtifact_error {s : State} {rest : Nat → List Byte → Except Status Output} {err : Status}
    (h : s.withArtifact rest = .error err) :
    err = .corruptInput ∨ err = .ioFailure ∨ ∃ orig, rest orig s.source = .error err := by
  rcases andThen_eq_error.mp h with hp | ⟨hd, -, h⟩
  · exact .inl (parseHeader_error hp)
  · exact .inr ((check_error h).imp_right fun h => ⟨hd.orig, h⟩)

/-- How HUF_DEC and LZW_DEC fail: CorruptInput, SizeMismatch at the end, or IoFailure. -/
theorem sizedDecoder_error {s : State} {f : Nat → List Byte → Except Status (List Byte)} {err : Status}
    (hf : ∀ orig input err, f orig input = .error err → err = .corruptInput)
    (h : s.withArtifact (fun orig input => andThen (f orig input) (exactSize orig)) = .error err) :
    err ∈ [Status.corruptInput, .sizeMismatch, .ioFailure] := by
  rcases withArtifact_error h with rfl | rfl | ⟨orig, h⟩
  · decide
  · decide
  · rcases andThen_eq_error.mp h with hb | ⟨out, -, hb⟩
    · rw [hf _ _ _ hb]
      decide
    · rw [exactSize_error hb]
      decide

/-- How RLE_DEC fails. -/
theorem rleDecBody_error {s : State} {err : Status} (h : rleDecBody s = .error err) :
    err ∈ [Status.corruptInput, .sizeMismatch, .ioFailure] := by
  rcases withArtifact_error h with rfl | rfl | ⟨orig, h⟩
  · decide
  · decide
  · rcases andThen_eq_error.mp h with hb | ⟨out, -, hb⟩
    · rcases rleDecodeFrom_error hb with rfl | rfl <;> decide
    · cases hb

/-- How AES_DEC fails, once it runs. -/
theorem aesDecBody_error {s : State} {err : Status} (h : aesDecBody s = .error err) :
    err ∈ [Status.corruptInput, .sizeMismatch, .paddingInvalid, .ioFailure] := by
  rcases withArtifact_error h with rfl | rfl | ⟨orig, h⟩
  · decide
  · decide
  rcases check_error h with rfl | h
  · decide
  rcases check_error h with rfl | h
  · decide
  rcases andThen_eq_error.mp h with hb | ⟨out, -, hb⟩
  · rw [pkcs7Unpad_error hb]
    decide
  · rw [exactSize_error hb]
    decide

/-- The errors of a command's pseudocode are those of its row in 60_exceptions.md R361. -/
theorem body_error_mem_causes {i : Instr} {s : State} {err : Status} (h : bodyOf i s = .error err) : err ∈ causes i := by
  cases i with
  | nop => cases h
  | aesKeyexp => cases h
  | hdrWr => simp [check_only (err' := .ioFailure) h nofun, causes]
  | hdrRd =>
    rcases andThen_eq_error.mp h with hp | ⟨hd, -, h⟩
    · simp [parseHeader_error hp, causes]
    · simp [check_only (err' := .ioFailure) h nofun, causes]
  | hufEnc =>
    rcases andThen_eq_error.mp h with hb | ⟨body, -, hb⟩
    · simp [huffEncode_error hb, causes]
    · simp [fitOutput_error hb, causes]
  | lzwEnc =>
    rcases check_error h with rfl | hb
    · simp [causes]
    · simp [fitOutput_error hb, causes]
  | rleEnc => simp [fitOutput_error h, causes]
  | aesEnc => simp [fitOutput_error h, causes]
  | aesRawEnc => rcases rawBlocks_error h with rfl | rfl <;> simp [causes]
  | aesRawDec => rcases rawBlocks_error h with rfl | rfl <;> simp [causes]
  | hufDec => exact sizedDecoder_error (f := huffDecode) (fun _ _ _ => huffDecode_error) h
  | lzwDec => exact sizedDecoder_error (f := lzwUnpack) (fun _ _ _ => lzwUnpack_error) h
  | rleDec => exact rleDecBody_error h
  | aesDec => exact List.mem_append_left [.missingKey] (aesDecBody_error h)

/-- OK is no error of a command. -/
theorem ok_notMem_causes (i : Instr) : Status.ok ∉ causes i := by cases i <;> decide

/-! ## The output lengths (30_encoding.md R119) -/

/-- A string put together from pieces of one length. -/
theorem flatMap_length_const {α : Type} (xs : List α) (f : α → List Byte) (n : Nat) (h : ∀ x, (f x).length = n) :
    (xs.flatMap f).length = n * xs.length := by
  simp [List.length_flatMap, h, Nat.mul_comm]

/-- The body of a Huffman artifact: n, the table, T and the packed bits. -/
theorem huffEncode_length {input body : List Byte} (h : huffEncode input = .ok body) :
    body.length = 8 + 5 * (alphabet input).length + ((huffBits input).length + 7) / 8 := by
  simp only [huffEncode] at h
  split at h
  · cases h
  · split at h
    · cases h
    · cases h
      simp only [tableBytes, List.length_append, leBytes_length, packBits_length,
        flatMap_length_const _ (fun x : SymFreq => x.sym :: leBytes 4 x.freq) 5 (by simp)]
      omega

@[simp] theorem lzwBody_length (codes : List Nat) : (lzwBody codes).length = 4 + 2 * codes.length := by
  rw [lzwBody, List.length_append, leBytes_length, flatMap_length_const codes _ 2 (by simp)]

@[simp] theorem rleBody_length (runs : List Run) : (rleBody runs).length = 5 * runs.length :=
  flatMap_length_const runs _ 5 (by simp)

/-- The name field of a parsed header is whole. -/
theorem hdrRd_name_length {s : State} {hd : Header}
    (hp : parseHeader s.platform.magic (s.readBytes s.ops.source.start (min s.slen 272)) s.slen = .ok hd) :
    hd.name.length = 256 := by
  obtain ⟨hl, -, rfl⟩ := parseHeader_ok.mp hp
  simp only [slice_length, readBytes_length]
  omega

/-- The output of a successful command is as long as its format says. -/
theorem body_length {i : Instr} {s : State} {o : Output} (h : bodyOf i s = .ok o) :
    o.bytes.length = s.outputLength i := by
  have declared {hd : Header} (hp : parseHeader s.platform.magic s.source s.slen = .ok hd) :
      hd.orig = rd64 s.source 4 := by
    obtain ⟨-, -, rfl⟩ := parseHeader_ok.mp hp
    rfl
  cases i with
  | nop =>
    cases h
    rfl
  | aesKeyexp =>
    cases h
    rfl
  | hdrWr =>
    obtain ⟨-, rfl⟩ := hdrWrBody_ok h
    exact mkHeader_length _ _ _ _ (nameField_length s)
  | hdrRd =>
    obtain ⟨hd, hp, -, rfl⟩ := hdrRdBody_ok h
    exact hdrRd_name_length hp
  | hufEnc =>
    obtain ⟨body, hb, h⟩ := andThen_eq_ok.mp h
    rw [(encoder_ok h).2.2, List.length_append, artifactHeader_length, huffEncode_length hb, State.outputLength]
    omega
  | lzwEnc =>
    simp only [bodyOf, lzwEncBody] at h
    split at h
    · cases h
    · rw [(encoder_ok h).2.2, List.length_append, artifactHeader_length, lzwBody_length, State.outputLength]
      omega
  | rleEnc => rw [(encoder_ok h).2.2, List.length_append, artifactHeader_length, rleBody_length, State.outputLength]
  | aesEnc =>
    rw [(encoder_ok h).2.2, List.length_append, artifactHeader_length, ecbEnc_length, pkcs7Pad_length, source_length,
      State.outputLength, Nat.mul_div_cancel_left _ (by decide)]
  | hufDec =>
    obtain ⟨hd, hp, -, hl, -⟩ := decoder_ok (f := huffDecode) h
    exact hl.trans (declared hp)
  | lzwDec =>
    obtain ⟨hd, hp, -, hl, -⟩ := decoder_ok (f := lzwUnpack) h
    exact hl.trans (declared hp)
  | rleDec =>
    obtain ⟨hd, hp, -, hl, -⟩ := rleDecBody_ok h
    exact hl.trans (declared hp)
  | aesDec =>
    obtain ⟨hd, hp, -, hl, -⟩ := aesDecBody_ok h
    exact hl.trans (declared hp)
  | aesRawEnc =>
    obtain ⟨h16, -, rfl⟩ := rawBlocks_ok h
    simp only [Output.ofBytes, ecbEnc_length, source_length, State.outputLength]
    omega
  | aesRawDec =>
    obtain ⟨h16, -, rfl⟩ := rawBlocks_ok h
    simp only [Output.ofBytes, ecbDec_length, source_length, State.outputLength]
    omega

/-- The length of an output fits in OUT_LEN. -/
theorem body_length_lt {i : Instr} {s : State} {o : Output} (h : bodyOf i s = .ok o) : o.bytes.length < 2 ^ 64 := by
  rcases body_fits h with ⟨-, hle⟩ | ⟨-, hnil⟩
  · exact lt_of_le_of_lt hle (value_lt _)
  · simp [hnil]

/-- Settles O34: without an error the command has finished with the output of its pseudocode. -/
theorem outputLengths : Obligations.OutputLengths := by
  intro i s t hr hx hok
  rw [exec_eq] at hx
  cases hb : bodyOf i s with
  | ok o =>
    rw [run_ok hr hb, Host.Outcome.next.injEq] at hx
    subst hx
    rw [← body_length hb]
    exact (finish_posted s o hr.acting (body_length_lt hb)).outLen
  | error err =>
    rw [run_error hr hb, Host.Outcome.next.injEq] at hx
    subst hx
    obtain rfl : err = .ok := by simpa [raiseInBody_acting s err hr.acting] using hok
    exact absurd (body_error_mem_causes hb) (ok_notMem_causes i)

/-! ## What HUF_DEC rejects (42_huffman.md R204, R206) -/

/-- Bits against a tree: they start with a code, or they are a part of one. -/
theorem path_or_cut (t : HuffTree) (bits : List Bool) :
    (∃ p ∈ t.paths, ∃ rest, bits = p.2 ++ rest) ∨ (∃ p ∈ t.paths, bits ≠ p.2 ∧ bits <+: p.2) := by
  induction t generalizing bits with
  | leaf sym => exact .inl ⟨(sym, []), by simp [HuffTree.paths], bits, rfl⟩
  | node l r ihl ihr =>
    cases bits with
    | nil =>
      obtain ⟨⟨sym, p⟩, hp⟩ := List.exists_mem_of_ne_nil _ (paths_ne_nil (.node l r))
      refine .inr ⟨_, hp, ?_, List.nil_prefix⟩
      rintro rfl
      exact nil_notMem_paths_node hp
    | cons b bits =>
      have ih : ∀ bits, (∃ p ∈ (if b then r else l).paths, ∃ rest, bits = p.2 ++ rest) ∨
          (∃ p ∈ (if b then r else l).paths, bits ≠ p.2 ∧ bits <+: p.2) := by
        cases b
        · exact ihl
        · exact ihr
      rcases ih bits with ⟨⟨sym, p⟩, hp, rest, rfl⟩ | ⟨⟨sym, p⟩, hp, hne, hpre⟩
      · exact .inl ⟨(sym, b :: p), mem_paths_node.mpr hp, rest, rfl⟩
      · refine .inr ⟨(sym, b :: p), mem_paths_node.mpr hp, ?_, ?_⟩
        · simpa using hne
        · simpa using hpre

/-- The code of a symbol that has one is listed with it. -/
theorem codeOf_listed {codes : List (Byte × List Bool)} (hn : (codes.map (·.1)).Nodup) {b : Byte}
    (h : b ∈ codes.map (·.1)) : (b, codeOf codes b) ∈ codes := by
  obtain ⟨⟨sym, p⟩, hp, rfl⟩ := List.mem_map.mp h
  rwa [codeOf_mem hn hp]

section Walk

variable {l r : HuffTree} (hn : (HuffTree.node l r).leaves.Nodup)

include hn

/-- Any bits are the codes of some symbols, and then nothing or a part of one more code. -/
theorem bits_as_codes (bits : List Bool) :
    ∃ (syms : List Byte) (rest : List Bool), (∀ b ∈ syms, b ∈ (HuffTree.node l r).leaves) ∧
      bits = syms.flatMap (codeOf (HuffTree.node l r).paths) ++ rest ∧
      (rest ≠ [] → ∃ p ∈ (HuffTree.node l r).paths, rest ≠ p.2 ∧ rest <+: p.2) := by
  induction hlen : bits.length using Nat.strong_induction_on generalizing bits with
  | _ n ih =>
    rcases path_or_cut (.node l r) bits with ⟨⟨sym, p⟩, hp, tail, rfl⟩ | hcut
    · have hne : p ≠ [] := by
        rintro rfl
        exact nil_notMem_paths_node hp
      have hpos := List.length_pos_iff.mpr hne
      have hsplit : p.length + tail.length = n := by simpa using hlen
      obtain ⟨syms, rest, hsyms, rfl, hrest⟩ := ih tail.length (by omega) tail rfl
      refine ⟨sym :: syms, rest, List.forall_mem_cons.mpr ⟨List.mem_map_of_mem hp, hsyms⟩, ?_, hrest⟩
      rw [List.flatMap_cons, codeOf_mem hn hp, List.append_assoc]
    · exact ⟨[], bits, nofun, rfl, fun _ => hcut⟩

/-- The walk along the codes of symbols: as many more symbols, unless they are more than the declared size. -/
theorem huffWalk_codes {orig : Nat} {syms out : List Byte} (rest : List Bool)
    (hs : ∀ b ∈ syms, b ∈ (HuffTree.node l r).leaves) (ho : out.length ≤ orig) :
    huffWalk (.node l r) orig (.node l r) out (syms.flatMap (codeOf (HuffTree.node l r).paths) ++ rest) =
      if orig < out.length + syms.length then .error .corruptInput
      else huffWalk (.node l r) orig (.node l r) (out ++ syms) rest := by
  induction syms generalizing out with
  | nil => simp [Nat.not_lt.mpr ho]
  | cons b syms ih =>
    obtain ⟨hb, hs⟩ := List.forall_mem_cons.mp hs
    rw [List.flatMap_cons, List.append_assoc, huffWalk_code _ _ _ _ (codeOf_listed hn hb)]
    by_cases hfull : out.length = orig
    · rw [if_pos hfull, if_pos (by simp; omega)]
    · have hl : (out ++ [b]).length = out.length + 1 := by simp
      rw [if_neg hfull, ih hs (by omega), hl, List.append_assoc, List.singleton_append, List.length_cons,
        Nat.add_right_comm out.length 1, Nat.add_assoc]

/-- The walk from the root fails exactly on the bits of `BitsCorrupt`. -/
theorem huffWalk_error_iff (orig : Nat) (bits : List Bool) :
    huffWalk (.node l r) orig (.node l r) [] bits = .error .corruptInput ↔
      BitsCorrupt (HuffTree.node l r).paths orig bits := by
  constructor
  · intro h
    obtain ⟨syms, rest, hsyms, rfl, hrest⟩ := bits_as_codes hn bits
    refine ⟨syms, rest, hsyms, rfl, ?_⟩
    by_contra hno
    obtain ⟨hfits, hwhole⟩ := not_or.mp hno
    have hnil : rest = [] := by
      by_contra hne
      exact hwhole ⟨hne, hrest hne⟩
    rw [huffWalk_codes hn rest hsyms (Nat.zero_le _), if_neg (by simpa using hfits), hnil, huffWalk, if_pos rfl] at h
    cases h
  · rintro ⟨syms, rest, hsyms, rfl, hmore | ⟨hne, ⟨sym, p⟩, hp, hnp, hpre⟩⟩
    · rw [huffWalk_codes hn rest hsyms (Nat.zero_le _), if_pos (by simpa using hmore)]
    · rw [huffWalk_codes hn rest hsyms (Nat.zero_le _),
        huffWalk_cut _ _ _ hp hpre hnp (fun h => absurd h hne) (Nat.le_refl _), ite_self]

end Walk

/-- Decoding the code bits of an alphabet of distinct symbols fails as 42_huffman.md R204 and R206 say, by the size of the
alphabet. -/
theorem huffSymbols_error_iff {alpha : List SymFreq} (hn : (alpha.map (·.sym)).Nodup) (stream : List Byte)
    (total orig : Nat) :
    huffSymbols alpha stream total orig = .error .corruptInput ↔
      (alpha.length = 0 ∧ total ≠ 0) ∨ (alpha.length = 1 ∧ orig < total) ∨
        (2 ≤ alpha.length ∧ BitsCorrupt (huffCodes alpha) orig ((List.range total).map (streamBit stream))) := by
  match alpha with
  | [] => simp [huffSymbols]
  | [x] => simp [huffSymbols]
  | x :: y :: xs =>
    have hleaves := (huffTree_leaves x (y :: xs)).nodup_iff.mpr hn
    obtain ⟨l, r, htree⟩ := huffTree_node x y xs
    rw [htree] at hleaves
    simp only [huffSymbols, huffCodes, htree, huffWalk_error_iff hleaves]
    simp

/-- The stored table is what the decoder reads. -/
theorem readTable_eq_storedTable (src : List Byte) : readTable src 276 (storedCount src) = storedTable src := by
  refine List.map_congr_left fun i _ => ?_
  rw [Nat.add_right_comm 276 (5 * i) 1]

@[simp] theorem storedTable_length (src : List Byte) : (storedTable src).length = storedCount src := by
  simp [storedTable]

/-- A bit of a part of a byte string, by its place in the whole. -/
theorem streamBit_slice (src : List Byte) (p n k : Nat) (h : k / 8 < n) :
    streamBit (slice src p n) k = (src.getD (p + k / 8) 0).getLsbD (7 - k % 8) := by
  rw [streamBit]
  congr 1
  simp [slice, List.getD_eq_getElem?_getD, List.getElem?_take_of_lt h]

/-- The stored bits are those the decoder reads. -/
theorem slice_bits_eq_storedBits (src : List Byte) :
    (List.range (storedTotal src)).map
        (streamBit (slice src (280 + 5 * storedCount src) ((storedTotal src + 7) / 8))) = storedBits src := by
  refine List.map_congr_left fun k hk => ?_
  rw [List.mem_range] at hk
  exact streamBit_slice src _ _ k (by omega)

/-- A stored table fails its checks for a repeated symbol, a zero frequency, or frequencies of another sum. -/
theorem tableOK_false_iff (alpha : List SymFreq) (orig : Nat) :
    (!tableOK alpha orig) = true ↔
      ¬ (alpha.map (·.sym)).Nodup ∨ (∃ x ∈ alpha, x.freq = 0) ∨ (alpha.map (·.freq)).sum ≠ orig := by
  simp [tableOK, or_assoc]

/-- Huffman decoding in the terms of the artifact's bytes. -/
theorem huffDecode_eq (orig : Nat) (src : List Byte) :
    huffDecode orig src =
      if src.length < 276 then .error .corruptInput
      else if 256 < storedCount src then .error .corruptInput
      else if src.length < 276 + 5 * storedCount src then .error .corruptInput
      else if !tableOK (storedTable src) orig then .error .corruptInput
      else if src.length < 280 + 5 * storedCount src then .error .corruptInput
      else if src.length < 280 + 5 * storedCount src + (storedTotal src + 7) / 8 then .error .corruptInput
      else huffSymbols (storedTable src)
        (slice src (280 + 5 * storedCount src) ((storedTotal src + 7) / 8)) (storedTotal src) orig := by
  have hoff : 272 + 4 + 5 * rd32 src 272 + 4 = 280 + 5 * storedCount src := by
    rw [storedCount]
    omega
  simp only [huffDecode, Config.hdrLen, hoff]
  rw [← readTable_eq_storedTable]
  rfl

/-- Huffman decoding fails exactly on the sources of `HuffmanCorrupt`. -/
theorem huffDecode_error_iff (orig : Nat) (src : List Byte) :
    huffDecode orig src = .error .corruptInput ↔ HuffmanCorrupt orig src := by
  simp only [huffDecode_eq, check_error_iff, tableOK_false_iff, HuffmanCorrupt, or_assoc]
  refine or_congr_right (or_congr_right (or_congr_right (or_congr_right' fun hn => ?_)))
  rw [huffSymbols_error_iff (not_not.mp hn), slice_bits_eq_storedBits, storedTable_length]

/-! ## What LZW_DEC and RLE_DEC reject (43_lzw.md R242, R244; 44_rle.md R272) -/

/-- LZW decoding that succeeds has met a first code below 256, and each later code within the dictionary of its place. -/
theorem lzwDecode_ok {codes : List Nat} {orig : Nat} {res : List Byte} (h : lzwDecode codes orig = .ok res) (j : Nat)
    (hj : j < codes.length) : (j = 0 → codes[j] < 256) ∧ (1 ≤ j → codes[j] ≤ 255 + j ∧ codes[j] < 4096) := by
  cases codes with
  | nil => simp at hj
  | cons c cs =>
    simp only [lzwDecode] at h
    split at h
    · cases h
    next hc =>
      split at h
      · cases h
      cases j with
      | zero => exact ⟨fun _ => Nat.not_le.mp hc, nofun⟩
      | succ j =>
        have hinit : lzwInit.length = 256 := by simp [lzwInit]
        obtain ⟨hle, hcap⟩ := lzwDecodeFrom_ok (by omega) h j (by simpa using hj)
        refine ⟨nofun, fun _ => ⟨?_, hcap⟩⟩
        rw [List.getElem_cons_succ]
        omega

/-- LZW decoding that succeeds was given no source of `LzwCorrupt`. -/
theorem lzwUnpack_ok {orig : Nat} {src res : List Byte} (h : lzwUnpack orig src = .ok res) : ¬ LzwCorrupt src := by
  simp only [lzwUnpack] at h
  split at h
  · cases h
  next hshort =>
    split at h
    · cases h
    next hcut =>
      have hcode (j : Nat) (hj : j < rd32 src 272) := lzwDecode_ok h j (by simpa using hj)
      simp only [List.getElem_map, List.getElem_range] at hcode
      rintro (hc | hc | ⟨hpos, hc⟩ | ⟨j, h1, hj, hc⟩)
      · exact hshort hc
      · exact hcut hc
      · exact absurd ((hcode 0 hpos).1 rfl) (Nat.not_lt.mpr hc)
      · obtain ⟨hle, hcap⟩ := (hcode j hj).2 h1
        omega

/-- LZW decoding fails on every source of `LzwCorrupt`. -/
theorem lzwUnpack_corrupt {src : List Byte} (orig : Nat) (h : LzwCorrupt src) :
    lzwUnpack orig src = .error .corruptInput := by
  cases hu : lzwUnpack orig src with
  | ok res => exact absurd h (lzwUnpack_ok hu)
  | error err => rw [lzwUnpack_error hu]

/-- RLE decoding, short of the declared size, at the end of the source or in a pair that is cut off. -/
theorem rleDecodeFrom_short {orig : Nat} {out rest : List Byte} (ho : out.length < orig) (hr : rest.length < 5) :
    rleDecodeFrom orig out rest = .error (if rest = [] then .sizeMismatch else .corruptInput) := by
  unfold rleDecodeFrom
  split
  · simp only [List.length_cons] at hr
    omega
  · simp [ho]
  next hne => simp [ho, show rest ≠ [] from hne]

/-- RLE decoding, short of the declared size, at a run of length 0 or one past the declared size. -/
theorem rleDecodeFrom_badRun {orig : Nat} {out rest : List Byte} (ho : out.length < orig) (hr : 5 ≤ rest.length)
    (hbad : rd32 rest 0 = 0 ∨ orig < out.length + rd32 rest 0) :
    rleDecodeFrom orig out rest = .error .corruptInput := by
  match rest with
  | b0 :: b1 :: b2 :: b3 :: b :: rest =>
    have hrun : rd32 (b0 :: b1 :: b2 :: b3 :: b :: rest) 0 = leNat [b0, b1, b2, b3] := rfl
    rw [hrun] at hbad
    simp only [rleDecodeFrom, ho, if_true, check_error_iff]
    exact hbad.imp_right .inl

/-! ## The decoders' errors as statuses -/

/-- A decoder's own error, and an output of another length than declared, are errors of its pseudocode. -/
theorem sized_error {x : Except Status (List Byte)} {orig : Nat} {err : Status}
    (h : x = .error err ∨ (err = .sizeMismatch ∧ ∃ out, x = .ok out ∧ out.length ≠ orig)) :
    andThen x (exactSize orig) = .error err := by
  rcases h with rfl | ⟨rfl, out, rfl, hne⟩
  · rfl
  · exact if_pos hne

/-- The status of a ready command is that of its pseudocode. -/
theorem exec_err_iff {i : Instr} {s : State} (hr : s.Ready i) {err : Status} (hne : err ≠ .ok) :
    ∃ t, exec i s = .next t ∧ (t.acting.err = err ↔ bodyOf i s = .error err) := by
  cases hb : bodyOf i s with
  | ok o =>
    refine ⟨_, by rw [exec_eq, run_ok hr hb], ?_⟩
    simp [finish_acting s o hr.acting, hne.symm]
  | error e =>
    refine ⟨_, by rw [exec_eq, run_error hr hb], ?_⟩
    simp [raiseInBody_acting s e hr.acting]

/-- The check of the length at the end adds no CorruptInput to the decoder's own. -/
theorem sized_corrupt_iff {x : Except Status (List Byte)} {orig : Nat} :
    andThen x (exactSize orig) = .error .corruptInput ↔ x = .error .corruptInput := by
  rw [andThen_eq_error]
  refine ⟨fun h => h.resolve_right ?_, .inl⟩
  rintro ⟨out, -, h⟩
  exact absurd (exactSize_error h) (by decide)

/-- The runs that RLE_DEC has read, as bytes. -/
theorem runs_bytes_length (runs : List Run) :
    (runs.flatMap (fun r => List.replicate r.len r.byte)).length = (runs.map (·.len)).sum := by
  simp [List.length_flatMap]

/-- RLE decoding of stored runs short of the declared size goes on with what follows them. -/
theorem rleDecodeFrom_after_runs {s : State} {orig : Nat} {runs : List Run} {rest : List Byte} {err : Status}
    (hruns : s.HoldsRuns runs rest) (hshort : (runs.map (·.len)).sum < orig)
    (herr : ∀ out : List Byte, out.length = (runs.map (·.len)).sum → rleDecodeFrom orig out rest = .error err) :
    rleDecodeFrom orig [] (s.source.drop 272) = .error err := by
  obtain ⟨hsrc, hlen⟩ := hruns
  rw [hsrc, rleDecodeFrom_runs rest hlen (by simpa using hshort.le), List.nil_append]
  exact herr _ (runs_bytes_length runs)

/-- Settles O30: the status is the pseudocode's error, and the decoding functions fail where their rules say. -/
theorem decoderErrorsAreReported : Obligations.DecoderErrorsAreReported := by
  intro s h hp hc
  have hhuf : bodyOf .hufDec s = andThen (huffDecode h.orig s.source) (exactSize h.orig) := by
    rw [bodyOf, hufDecBody, withArtifact_parsed hp hc]
  have hlzw : bodyOf .lzwDec s = andThen (lzwUnpack h.orig s.source) (exactSize h.orig) := by
    rw [bodyOf, lzwDecBody, withArtifact_parsed hp hc]
  have hrle {err : Status} (he : rleDecodeFrom h.orig [] (s.source.drop 272) = .error err) :
      bodyOf .rleDec s = .error err := by
    rw [bodyOf, rleDecBody, withArtifact_parsed hp hc, Config.hdrLen, he, andThen_error]
  refine ⟨fun hr => ⟨fun err he => exec_fails hr (hhuf ▸ sized_error he), ?_⟩,
    fun hr => ⟨fun err he => exec_fails hr (hlzw ▸ sized_error he), fun hcorrupt => ?_⟩,
    fun hr => ⟨fun err he => exec_fails hr (hrle he), fun runs rest hruns hshort => ?_⟩⟩
  · obtain ⟨t, hx, hiff⟩ := exec_err_iff hr (err := .corruptInput) (by decide)
    rw [hhuf, sized_corrupt_iff, huffDecode_error_iff] at hiff
    exact ⟨t, hx, hiff⟩
  · exact exec_fails hr (by rw [hlzw, lzwUnpack_corrupt _ hcorrupt, andThen_error])
  · refine ⟨fun hnil => ?_, fun ⟨hpos, hlt⟩ => ?_, fun hlen hbad => ?_⟩ <;>
      refine exec_fails hr (hrle (rleDecodeFrom_after_runs hruns hshort fun out ho => ?_))
    · rw [rleDecodeFrom_short (by omega) (by simp [hnil]), if_pos hnil]
    · rw [rleDecodeFrom_short (by omega) hlt, if_neg (List.length_pos_iff.mp hpos)]
    · exact rleDecodeFrom_badRun (by omega) hlen (by rwa [ho])

end Sys2Proof.Machine
end

section
/-! SUPPORT and PROOFS of the statements of 40_engine_common.md: what an execution step and a run without events do to the
engines, what a host write does to a phase, the pre-checks, and then the statements themselves. -/

namespace Sys2Proof.Machine

/-! ## The execution step (40_engine_common.md R153, R154) -/

/-- BUSY reads 0 exactly in phase IDLE. -/
theorem busy_false_iff (e : Engine) : e.busy = false ↔ e.phase = .idle := by
  unfold Engine.busy
  cases e.phase <;> decide

/-- The acting engine stands in the engine list at `active`. -/
theorem engines_active {s : State} (h : s.active < s.engines.length) : s.engines[s.active]? = some s.acting := by
  rw [List.getElem?_eq_getElem h, acting_eq s (List.getElem?_eq_getElem h)]

/-- The execution step of a RUNNING engine whose word decodes to a command runs that command. -/
theorem runEngine_valid {s : State} {e : Nat} {f : Engine} {i : Instr} (hf : s.engines[e]? = some f)
    (hp : f.phase = .running) (hd : decode f.latched.cmd = .ok i) : runEngine e s = exec i { s with active := e } := by
  simp only [runEngine, hf, hp, hd]

/-- With an empty agenda the step is the execution step of the RUNNING engine of the lowest number (log entry 8). -/
theorem step_lowest {s : State} {e : Nat} (ha : s.agenda = []) (he : s.engines.findIdx? Engine.busy = some e) :
    step s = runEngine e s := by
  simp only [step, ha, he]

/-- With an empty agenda and every engine IDLE a step changes nothing. -/
theorem step_allIdle {s : State} (ha : s.agenda = []) (he : s.engines.findIdx? Engine.busy = none) :
    step s = .next s := by
  simp only [step, ha, he]

/-- Running a command answers a next state, whatever its pseudocode does (60_exceptions.md R376). -/
theorem exec_next (i : Instr) (s : State) : ∃ t, exec i s = .next t := by
  rw [exec_eq, runCommand]
  split
  next => exact ⟨_, rfl⟩
  next =>
    cases s.preCheck i with
    | some err => exact ⟨_, rfl⟩
    | none => cases bodyOf i s with
      | error err => exact ⟨_, rfl⟩
      | ok o => exact ⟨_, rfl⟩

/-- However a command ends, its engine is then IDLE with DONE set (40_engine_common.md R156). -/
theorem exec_completes {i : Instr} {s t : State} (h : exec i s = .next t) (ha : s.active < s.engines.length) :
    t.acting.phase = .idle ∧ t.acting.done = true := by
  rcases exec_acting h ha with ⟨-, -, u, err, n, hact, -⟩ | ⟨err, hact⟩ | ⟨o, -, hact⟩
  all_goals
    rw [hact]
    exact ⟨rfl, rfl⟩

/-- The execution step of a RUNNING engine completes it, with a valid word or not, and keeps every other engine. -/
theorem runEngine_completes {s : State} {e : Nat} {f : Engine} (hf : s.engines[e]? = some f) (hp : f.phase = .running) :
    ∃ t g, runEngine e s = .next t ∧ ({ s with active := e } : State).OthersKept t ∧ t.engines[e]? = some g ∧
      g.phase = .idle ∧ g.done = true := by
  have he : e < s.engines.length := (List.getElem?_eq_some_iff.mp hf).1
  cases hd : decode f.latched.cmd with
  | error err =>
    exact ⟨_, _, runEngine_invalid hf hp hd, raise_others _ _, mapEngine_self _ e _ hf, rfl, rfl⟩
  | ok i =>
    obtain ⟨t, ht⟩ := exec_next i { s with active := e }
    have ho := exec_others ht
    have hact : t.active = e := ho.active
    have hlt : t.active < t.engines.length := by rw [hact, ho.count]; exact he
    exact ⟨t, t.acting, (runEngine_valid hf hp hd).trans ht, ho, hact ▸ engines_active hlt, exec_completes ht he⟩

/-- Settles O4: both orders of events come to `runEngine`, which decodes the latched word. -/
theorem stepRunsTheDecodedCommand : Obligations.StepRunsTheDecodedCommand := by
  intro s e f i hf hp hd
  refine ⟨fun rest ha => ?_, fun ha he => ?_⟩
  · rw [step_event ha, onEvent, runEngine_valid (s := { s with agenda := rest }) hf hp hd]
  · rw [step_lowest ha he, runEngine_valid hf hp hd]

/-! ## A run with no event to come (40_engine_common.md R156, R161) -/

/-- What a run of execution steps may leave of an engine: it is as it was, or it was RUNNING and has completed. -/
def KeptOrCompleted (f g : Engine) : Prop := g = f ∨ (f.phase = .running ∧ g.phase = .idle ∧ g.done = true)

/-- A completed engine is IDLE, so the rest of a run keeps it. -/
theorem KeptOrCompleted.trans {f g h : Engine} (hfg : KeptOrCompleted f g) (hgh : KeptOrCompleted g h) :
    KeptOrCompleted f h := by
  rcases hfg with rfl | ⟨hf, hg, hd⟩
  · exact hgh
  · rcases hgh with rfl | ⟨-, hh⟩
    · exact .inr ⟨hf, hg, hd⟩
    · exact .inr ⟨hf, hh⟩

/-- Every engine of `s` stands in `t` at its number, as it was or completed. -/
def State.EachKeptOrCompleted (s t : State) : Prop :=
  ∀ (k : Nat) (f : Engine), s.engines[k]? = some f → ∃ g, t.engines[k]? = some g ∧ KeptOrCompleted f g

/-- The engines of numbers below `m` are IDLE. -/
def State.IdleBelow (s : State) (m : Nat) : Prop :=
  ∀ (k : Nat) (f : Engine), k < m → s.engines[k]? = some f → f.phase = .idle

/-- The RUNNING engine of the lowest number is RUNNING, and those of lower numbers are IDLE. -/
theorem findIdx?_busy_some {s : State} {e : Nat} (h : s.engines.findIdx? Engine.busy = some e) :
    (∃ f, s.engines[e]? = some f ∧ f.phase = .running) ∧ s.IdleBelow e := by
  obtain ⟨he, hb, hlow⟩ := List.findIdx?_eq_some_iff_getElem.mp h
  refine ⟨⟨_, List.getElem?_eq_getElem he, (busy_iff _).mp hb⟩, fun k f hk hf => ?_⟩
  obtain ⟨-, rfl⟩ := List.getElem?_eq_some_iff.mp hf
  exact (busy_false_iff _).mp (Bool.eq_false_of_not_eq_true (hlow k hk))

/-- Where no engine is the lowest RUNNING one, all are IDLE. -/
theorem findIdx?_busy_none {s : State} (h : s.engines.findIdx? Engine.busy = none) (m : Nat) : s.IdleBelow m :=
  fun _ f _ hf => (busy_false_iff f).mp (List.findIdx?_eq_none_iff.mp h f (List.mem_of_getElem? hf))

/-- With the engines below `m` IDLE, a step without events leaves those below `m + 1` IDLE: the RUNNING engine of the lowest
number is `m` or a later one, and it completes. -/
theorem step_idleBelow_succ {s : State} {m : Nat} (ha : s.agenda = []) (hm : s.IdleBelow m) :
    ∃ t, step s = .next t ∧ t.agenda = [] ∧ s.EachKeptOrCompleted t ∧ t.IdleBelow (m + 1) := by
  cases he : s.engines.findIdx? Engine.busy with
  | none => exact ⟨s, step_allIdle ha he, ha, fun _ f hf => ⟨f, hf, .inl rfl⟩, findIdx?_busy_none he _⟩
  | some e =>
    obtain ⟨⟨f, hf, hp⟩, hlow⟩ := findIdx?_busy_some he
    obtain ⟨t, g, ht, ho, hg, hgp, hgd⟩ := runEngine_completes hf hp
    refine ⟨t, (step_lowest ha he).trans ht, ho.agenda.trans ha, fun k x hx => ?_, fun k x hk hx => ?_⟩
    · by_cases hke : k = e
      · subst hke
        obtain rfl : x = f := Option.some.inj (hx.symm.trans hf)
        exact ⟨g, hg, .inr ⟨hp, hgp, hgd⟩⟩
      · exact ⟨x, (ho.others k hke).trans hx, .inl rfl⟩
    · by_cases hke : k = e
      · subst hke
        obtain rfl : x = g := Option.some.inj (hx.symm.trans hg)
        exact hgp
      · have hsx : s.engines[k]? = some x := (ho.others k hke).symm.trans hx
        rcases Nat.lt_or_ge k m with hkm | hkm
        · exact hm k x hkm hsx
        · have hme : m ≤ e := by
            by_contra hlt
            simp [hm e f (Nat.not_le.mp hlt) hf] at hp
          exact hlow k x (by omega) hsx

/-- A run of one step more is the step and then the run. -/
theorem run_succ (M : Host.Core) {s t : M.State} (h : M.step s = .next t) (n : Nat) : M.run (n + 1) s = M.run n t := by
  simp only [Host.Core.run, h]

/-- With the engines below `m` IDLE, `n` steps without events leave those below `m + n` IDLE. -/
theorem run_idleBelow_add (n : Nat) {s : State} {m : Nat} (ha : s.agenda = []) (hm : s.IdleBelow m) :
    ∃ t : State, Sys2Proof.core.run n s = .next t ∧ t.engines.length = s.engines.length ∧ s.EachKeptOrCompleted t ∧
      t.IdleBelow (m + n) := by
  induction n generalizing s m with
  | zero => exact ⟨s, rfl, rfl, fun _ f hf => ⟨f, hf, .inl rfl⟩, hm⟩
  | succ n ih =>
    obtain ⟨u, hu, hua, hsu, hum⟩ := step_idleBelow_succ ha hm
    obtain ⟨t, ht, hcount, hut, htm⟩ := ih hua hum
    refine ⟨t, (run_succ Sys2Proof.core hu n).trans ht, hcount.trans (step_fixed hu).2, fun k f hf => ?_,
      by rwa [Nat.add_right_comm] at htm⟩
    obtain ⟨g, hg, hfg⟩ := hsu k f hf
    obtain ⟨x, hx, hgx⟩ := hut k g hg
    exact ⟨x, hx, hfg.trans hgx⟩

/-- Settles O6: after as many steps as engines, the engines below that number, which are all, are IDLE. -/
theorem runningEnginesAllComplete : Obligations.RunningEnginesAllComplete := by
  intro s ha
  have hnone : s.IdleBelow 0 := fun k _ hk => absurd hk (Nat.not_lt_zero k)
  obtain ⟨t, hrun, hcount, heach, hidle⟩ := run_idleBelow_add s.engines.length ha hnone
  refine ⟨t, hrun, hcount, fun k f hf => ?_⟩
  obtain ⟨g, hg, hfg⟩ := heach k f hf
  have hk : k < 0 + s.engines.length := by
    rw [Nat.zero_add]
    exact (List.getElem?_eq_some_iff.mp hf).1
  have hgp : g.phase = .idle := hidle k g hk hg
  refine ⟨g, hg, hgp, ?_⟩
  rcases hfg with rfl | ⟨hr, -, hd⟩
  · exact ⟨fun hr => by simp [hgp] at hr, fun _ => rfl⟩
  · exact ⟨fun _ => hd, fun hi => by simp [hr] at hi⟩

/-! ## The host's writes of CTRL and STATUS (40_engine_common.md R151, R152, R158) -/

/-- Settles O7: the engine starts with its own registers, and at every other engine a START changes at most the race mark. -/
theorem startLatchesOperands : Obligations.StartLatchesOperands := by
  intro s e f v rest hf hp ha hv
  have hb := (busy_false_iff f).mpr hp
  refine ⟨_, _, step_start hf hb ha hv, acceptStart_self (s := { s with agenda := rest }) _ hf hb, rfl, rfl, rfl, rfl,
    zero_value, rfl, rfl, rfl, rfl, rfl, rfl, fun k hk => ?_, rfl, rfl, rfl, rfl⟩
  rw [State.acceptStart, mapEngine_other _ _ _ hk]
  exact markRaced_only { s with agenda := rest } _ k

/-- Settles O8: a CTRL write that does not start stores IRQ_EN. -/
theorem controlWriteWithoutStart : Obligations.ControlWriteWithoutStart := by
  intro s e f v rest hf ha hno
  refine ⟨_, ?_, rfl, rfl⟩
  have hquiet : ¬ (v.getLsbD 0 && !(s.engines.getD e Engine.reset).busy) = true := by
    rw [engines_getD hf]
    rcases hno with hp | hv
    · rw [(busy_iff f).mpr hp, Bool.not_true, Bool.and_false]
      exact Bool.false_ne_true
    · rw [hv, Bool.false_and]
      exact Bool.false_ne_true
  rw [step_regWrite (List.getElem?_eq_some_iff.mp hf).1 (by decide) (by decide) ha, State.writeRegister]
  refine congrArg Host.Outcome.next ((if_pos rfl).trans ((if_neg hquiet).trans ?_))
  exact mapEngine_eq_set (s := { s with agenda := rest }) _ hf

/-- An IDLE write of STATUS clears DONE where its bit 1 is set, and changes nothing else (40_engine_common.md R158). -/
theorem writeReg_status {e : Engine} (v : Word) (hb : e.busy = false) :
    e.writeReg .status v = { e with done := if v.getLsbD 1 = true then false else e.done } := by
  simp [Engine.writeReg, hb, OperandRegs.write, Reg.isKey]

/-- Settles O9: in phase IDLE the write is `writeReg_status`, and while RUNNING it is one of the ignored ones. -/
theorem acknowledgeClearsDone : Obligations.AcknowledgeClearsDone := by
  intro s e f v rest hf ha
  have hstep := step_writeReg hf (by decide) (by decide) (by decide) ha
  refine ⟨fun hp hv => ?_, fun hp hv => ?_, fun hp => ?_⟩
  · have hb := (busy_false_iff f).mpr hp
    have hw : f.writeReg (regAt 0x004) v = { f with done := false } := (writeReg_status v hb).trans (by rw [if_pos hv])
    exact ⟨_, _, hstep, rfl, hw, by rw [hw]; rfl⟩
  · have hb := (busy_false_iff f).mpr hp
    have hw : f.writeReg (regAt 0x004) v = f := (writeReg_status v hb).trans (by rw [if_neg (ne_true_of_eq_false hv)])
    obtain ⟨hlt, rfl⟩ := List.getElem?_eq_some_iff.mp hf
    rw [hstep, hw, List.set_getElem_self]
  · exact ignoredRegisterWrites s e 0x004 f v rest hf (by decide) (by decide) ha (.inl ⟨hp, by decide⟩)

/-! ## The phase (40_engine_common.md R150) -/

/-- A host write changes the phase only as START acceptance. -/
theorem writeLeaves_phase {f g : Engine} {off : Nat} {v : Word} (h : WriteLeaves f g off v) :
    g.phase = f.phase ∨ (off = 0 ∧ v.getLsbD 0 = true ∧ g.phase = .running) := by
  rcases h with ⟨h0, hv, -, r, rfl⟩ | ⟨-, -, rfl⟩ | ⟨-, rfl⟩
  · exact .inr ⟨h0, hv, rfl⟩
  · exact .inl rfl
  · exact .inl (writeReg_phase f _ v)

/-- An engine that keeps its phase is excused from every claim about a change of it. -/
theorem phase_kept {f g : Engine} (h : g.phase = f.phase) {p q : Prop} :
    (f.phase = .idle → g.phase = .running → p) ∧ (f.phase = .running → g.phase = .idle → q) := by
  rw [h]
  exact ⟨fun hi hr => by simp [hi] at hr, fun hr hi => by simp [hr] at hi⟩

/-- Settles O41: of all that a step can do to an engine, a START leaves it RUNNING, an execution step or a reset leaves it
IDLE, and the rest keeps its phase. -/
theorem phaseChangesOnlyByItsEvents : Obligations.PhaseChangesOnlyByItsEvents := by
  intro s t k f g h hf hg
  rcases step_engine h hf hg with ⟨r, rfl, -⟩ | ⟨off, v, hw, -, -, hl⟩ | ⟨hrun, -, hl⟩ | ⟨hreset, rk, rfl⟩
  · exact phase_kept rfl
  · rcases writeLeaves_phase hl with hsame | ⟨rfl, hv, hgr⟩
    · exact phase_kept hsame
    · exact ⟨fun _ _ => ⟨v, hw, hv⟩, fun _ hi => by simp [hgr] at hi⟩
  · obtain ⟨u, err, n, rfl, -⟩ := runLeaves_complete hl
    exact ⟨fun _ hr => by simp at hr, fun _ _ => .inl hrun⟩
  · exact ⟨fun _ hr => by simp [Engine.reset] at hr, fun _ _ => .inr hreset⟩

/-! ## NOP and the pre-checks (40_engine_common.md R155, R159) -/

/-- NOP has no buffer to race on and no pre-check: it finishes with no output. -/
theorem exec_nop (s : State) : exec .nop s = .next (s.finish (Output.ofBytes [])) := rfl

/-- Settles O15: NOP's completion writes the empty string, so no byte changes. -/
theorem nopCompletes : Obligations.NopCompletes := by
  intro s ha
  obtain ⟨hposted, hheader, hkey, hothers, -, houtside⟩ := finish_writesOutput s [] ha (Nat.two_pow_pos 64)
  refine ⟨_, exec_nop s, hposted, hheader, hkey, hothers, fun a => houtside a ?_⟩
  rw [covers_false_iff, List.length_nil, Nat.add_zero]
  exact Nat.lt_or_ge a s.dst

/-- A command that no race touches and a pre-check stops ends with that check's error, before any memory access. -/
theorem exec_preCheck {i : Instr} {s : State} {err : Status} (ha : s.active < s.engines.length)
    (hq : s.acting.raced = false) (hp : s.preCheck i = some err) : ∃ t, exec i s = .next t ∧ s.FailsClean t err := by
  refine ⟨s.raise err, ?_, raise_spec s err ha⟩
  simp [exec_eq, runCommand, hq, hp]

/-- The four AES data commands need a key. -/
theorem needsKey_aesData : ∀ i ∈ [Instr.aesEnc, .aesDec, .aesRawEnc, .aesRawDec], needsKey i = true := by decide

/-- Settles O25: the key is the first pre-check. -/
theorem aesWithoutKeyIsMissingKey : Obligations.AesWithoutKeyIsMissingKey := by
  intro s i hi ha hq hk
  refine exec_preCheck ha hq ?_
  rw [State.preCheck]
  exact if_pos (by rw [needsKey_aesData i hi, hk]; rfl)

/-- A check in front of checks that can only raise the same status. -/
theorem check_same {p : Prop} [Decidable p] {err : Status} {rest : Option Status} (h : rest = none ∨ rest = some err) :
    (if p then some err else rest) = none ∨ (if p then some err else rest) = some err := by
  by_cases hp : p
  · exact .inr (if_pos hp)
  · rwa [if_neg hp]

/-- With the key it needs, a command passes the pre-checks or fails them with IoFailure (40_engine_common.md R155). -/
theorem preCheck_ioFailure {i : Instr} {s : State} (hk : needsKey i = true → s.acting.keyValid = true) :
    s.preCheck i = none ∨ s.preCheck i = some .ioFailure := by
  have hkey : ¬ (needsKey i && !s.acting.keyValid) = true := by
    simpa using hk
  rw [State.preCheck]
  simp only [if_neg hkey]
  exact check_same (check_same (check_same (check_same (check_same (.inl rfl)))))

/-- Settles O26: a command with a bad buffer is not ready, so a pre-check stops it, and not that of the key. -/
theorem badBufferIsIoFailure : Obligations.BadBufferIsIoFailure := by
  intro s i ha hq hk hbad
  rcases preCheck_ioFailure hk with hp | hp
  · have hready : s.Ready i := (ready_iff s i).mpr ⟨ha, hq, hp⟩
    rcases hbad with ⟨hu, hb⟩ | ⟨hu, hb⟩ | ⟨hu, hb⟩ | ⟨hu, hd, hb⟩ | ⟨hu, hd, hb⟩
    · simp [hready.source hu] at hb
    · simp [hready.name hu] at hb
    · simp [hready.dest hu] at hb
    · simp [hready.sourceApart hu hd] at hb
    · simp [hready.nameApart hu hd] at hb
  · exact exec_preCheck ha hq hp

end Sys2Proof.Machine
end

section
/-! SUPPORT and PROOFS of the statements of 41_container.md: what a ready command writes, the header as HDR_RD and the decoders
parse it, and then the statements themselves. -/

namespace Sys2Proof.Machine

/-! ## Commands that write their output at `dst` (41_container.md R181) -/

/-- A ready command whose pseudocode answers bytes and no register of its own writes them at `dst`. -/
theorem exec_writes {i : Instr} {s : State} {out : List Byte} (h : s.Ready i)
    (hb : bodyOf i s = .ok (Output.ofBytes out)) : ∃ t, exec i s = .next t ∧ s.WritesOutput t out :=
  ⟨_, by rw [exec_eq, run_ok h hb], finish_writesOutput s out h.acting (body_length_lt hb)⟩

/-- A ready encoder writes its artifact where it fits. -/
theorem exec_writes_artifact {i : Instr} {s : State} {out : List Byte} (h : s.Ready i)
    (hb : bodyOf i s = fitOutput s.cap out) (hc : out.length ≤ s.cap) :
    ∃ t, exec i s = .next t ∧ s.WritesOutput t out :=
  exec_writes h (hb.trans (if_neg (Nat.not_lt.mpr hc)))

/-- Huffman encoding succeeds where every count fits its field (42_huffman.md R205). -/
theorem huffEncode_ok {input : List Byte} (hf : ∀ x ∈ alphabet input, x.freq < 2 ^ 32)
    (hb : (huffBits input).length < 2 ^ 32) :
    huffEncode input = .ok (leBytes 4 (alphabet input).length ++ tableBytes (alphabet input) ++
      leBytes 4 (huffBits input).length ++ packBits (huffBits input)) := by
  have hany : ¬ (alphabet input).any (fun x => decide (2 ^ 32 ≤ x.freq)) = true := by
    simpa using hf
  exact (if_neg hany).trans (if_neg (Nat.not_le.mpr hb))

/-- Settles O16: a capacity of 272 passes HDR_WR's one check, and the output is the header of R181. -/
theorem hdrWrWritesHeader : Obligations.HdrWrWritesHeader := by
  intro s hr hc
  obtain ⟨t, hx, hw⟩ := exec_writes hr (if_neg (Nat.not_lt.mpr hc))
  exact ⟨t, _, hx, hw, mkHeader_length _ _ _ _ (nameField_length s), rfl⟩

/-- Settles O18: no count raises LimitExceeded, so the artifact is the header and the encoded body. -/
theorem hufEncWritesArtifact : Obligations.HufEncWritesArtifact := by
  intro s out hr hf hb hout hc
  refine exec_writes_artifact hr ?_ hc
  rw [bodyOf, hufEncBody, huffEncode_ok hf hb, andThen_ok, hout]
  simp only [List.append_assoc]
  rfl

/-- Settles O19: the code count fits its field, so the artifact is the header, the count and the codes. -/
theorem lzwEncWritesArtifact : Obligations.LzwEncWritesArtifact := by
  intro s out hr hm hout hc
  have hbody : bodyOf .lzwEnc s = fitOutput s.cap (s.artifactHeader 0x00000000 ++ lzwBody (lzwEncode s.source)) :=
    if_neg (Nat.not_le.mpr hm)
  refine exec_writes_artifact hr ?_ hc
  rw [hbody, hout, lzwBody, List.append_assoc]
  rfl

/-- Settles O20: the pseudocode of RLE_ENC is the capacity check of this artifact. -/
theorem rleEncWritesArtifact : Obligations.RleEncWritesArtifact := by
  rintro s out hr rfl hc
  exact exec_writes_artifact hr rfl hc

/-- Settles O21: the pseudocode of AES_ENC is the capacity check of this artifact. -/
theorem aesEncWritesArtifact : Obligations.AesEncWritesArtifact := by
  rintro s out hr rfl hc
  exact exec_writes_artifact hr rfl hc

/-! ## The header of a source (41_container.md R182) -/

/-- The header bytes alone parse as the whole source does: every field ends within the first 272 bytes. -/
theorem parseHeader_headerBytes (s : State) :
    parseHeader s.platform.magic (s.readBytes s.ops.source.start (min s.slen 272)) s.slen =
      parseHeader s.platform.magic s.source s.slen := by
  have htake : s.readBytes s.ops.source.start (min s.slen 272) = s.source.take 272 := (readBytes_take s _ _ _).symm
  have hmagic : rd32 (s.source.take 272) 0 = rd32 s.source 0 := congrArg leNat (slice_take (by omega))
  have horig : rd64 (s.source.take 272) 4 = rd64 s.source 4 := congrArg leNat (slice_take (by omega))
  have hname : slice (s.source.take 272) 12 256 = slice s.source 12 256 := slice_take (by omega)
  have hflags : rd32 (s.source.take 272) 268 = rd32 s.source 268 := congrArg leNat (slice_take (by omega))
  rw [htake, parseHeader_eq, parseHeader_eq, hmagic, horig, hname, hflags]

/-- A 32-bit field holds a word exactly when its four bytes are the word's. -/
theorem rd32_eq_iff {a : List Byte} {i : Nat} (h : i + 4 ≤ a.length) (w : Word) :
    rd32 a i = w.toNat ↔ slice a i 4 = leBytes 4 w.toNat := by
  have hlen : (slice a i 4).length = 4 := by
    rw [slice_length]
    omega
  have hback := leBytes_leNat (slice a i 4)
  rw [hlen] at hback
  refine ⟨fun hv => ?_, fun hs => ?_⟩
  · rw [← hv, rd32, hback]
  · rw [rd32, hs]
    exact leNat_leBytes w.isLt

/-- The first bytes of a source that is long enough. -/
theorem source_prefix {s : State} {n : Nat} (h : n ≤ s.slen) :
    slice s.source 0 n = s.readBytes s.ops.srcAddr.value n := by
  have htake : s.source.take n = s.readBytes s.ops.srcAddr.value (min s.slen n) := readBytes_take s _ _ _
  rw [slice, List.drop_zero, htake, Nat.min_eq_right h]

/-- A short source and one with another magic do not parse. -/
theorem parseHeader_bad {s : State}
    (h : s.slen < 272 ∨ s.readBytes s.ops.srcAddr.value 4 ≠ leBytes 4 s.platform.magic.toNat) :
    parseHeader s.platform.magic s.source s.slen = .error .corruptInput := by
  rw [parseHeader_eq, if_neg]
  rintro ⟨hl, hm⟩
  rcases h with hs | hne
  · omega
  · rw [rd32_eq_iff (by rw [source_length]; omega), source_prefix (by omega)] at hm
    exact hne hm

/-- HDR_RD and every decoder raise what the parse of the source's header raises, before anything else (R185). -/
theorem body_of_parse_error {s : State} {err : Status} (hp : parseHeader s.platform.magic s.source s.slen = .error err) :
    ∀ i ∈ [Instr.hdrRd, .hufDec, .lzwDec, .rleDec, .aesDec], bodyOf i s = .error err := by
  intro i hi
  rcases List.mem_cons.mp hi with rfl | hi
  · rw [bodyOf, hdrRdBody, Config.hdrLen, parseHeader_headerBytes, hp, andThen_error]
  · obtain ⟨rest, hbody⟩ := decoder_withArtifact s i hi
    rw [hbody, State.withArtifact, hp, andThen_error]

/-- HDR_RD of a header of the right magic, where the name field fits: its output in terms of the whole source. -/
theorem hdrRdBody_of_header {s : State} (hl : 272 ≤ s.slen) (hm : rd32 s.source 0 = s.platform.magic.toNat)
    (hc : 256 ≤ s.cap) :
    hdrRdBody s = .ok
      { bytes := slice s.source 12 256
        update := .header (Reg64.ofNat (rd64 s.source 4)) (BitVec.ofNat 32 (rd32 s.source 268)) } := by
  rw [hdrRdBody, Config.hdrLen, parseHeader_headerBytes, parseHeader_ok.mpr ⟨hl, hm, rfl⟩, andThen_ok,
    Config.nameField, if_neg (Nat.not_lt.mpr hc)]

/-- A successful HDR_RD: the acting engine's header registers hold what the pseudocode gave them, and its key is kept. -/
theorem finish_header {s : State} (bs : List Byte) (v : Reg64) (w : Word) (h : s.active < s.engines.length) :
    s.KeyKept (s.finish { bytes := bs, update := .header v w }) ∧
      (s.finish { bytes := bs, update := .header v w }).acting.hdrSize = v ∧
      (s.finish { bytes := bs, update := .header v w }).acting.hdrFlags = w := by
  rw [State.KeyKept, finish_acting s _ h]
  exact ⟨⟨rfl, rfl⟩, rfl, rfl⟩

/-- Settles O17: the size and the flags are fields of 64 and 32 bits, so the registers hold them whole. -/
theorem hdrRdReturnsHeader : Obligations.HdrRdReturnsHeader := by
  intro s hr hl hm hc
  have hb : bodyOf .hdrRd s = _ := hdrRdBody_of_header hl hm hc
  have hlen : (slice s.source 12 256).length = 256 := by
    rw [slice_length, source_length]
    omega
  have hposted := finish_posted s _ hr.acting (body_length_lt hb)
  rw [hlen] at hposted
  obtain ⟨hkey, hsize, hflags⟩ := finish_header (slice s.source 12 256) (Reg64.ofNat (rd64 s.source 4))
    (BitVec.ofNat 32 (rd32 s.source 268)) hr.acting
  refine ⟨_, by rw [exec_eq, run_ok hr hb], hposted, hkey, finish_others s _, hlen, finish_wrote s _, ?_, ?_⟩
  · rw [hsize, ofNat_value (rd64_lt _ _)]
  · rw [hflags, BitVec.toNat_ofNat, Nat.mod_eq_of_lt (rd32_lt _ _)]

/-- Settles O27: the header does not parse, and the parse comes before every check of the capacity. -/
theorem badHeaderIsCorruptInput : Obligations.BadHeaderIsCorruptInput :=
  fun _ i hi hr hbad => exec_fails hr (body_of_parse_error (parseHeader_bad hbad) i hi)

end Sys2Proof.Machine
end

section
/-! SUPPORT and PROOFS of the statements of 42_huffman.md: the alphabet of an input, the codes of a tree, the fields of an
artifact read back, the round trip of the Huffman codec, and then the limits of the encoders and the output of the decoders. -/

namespace Sys2Proof.Machine

/-! ## The alphabet (42_huffman.md R200) -/

/-- The entry of a byte value in the alphabet, where it occurs. -/
def alphabetEntry (input : List Byte) (n : Nat) : Option SymFreq :=
  if input.count (BitVec.ofNat 8 n) = 0 then none
  else some { sym := BitVec.ofNat 8 n, freq := input.count (BitVec.ofNat 8 n) }

/-- The alphabet goes through the byte values in ascending order. -/
theorem alphabet_eq_filterMap (input : List Byte) : alphabet input = (List.range 256).filterMap (alphabetEntry input) := rfl

/-- An entry holds its byte value, and the number of its occurrences, which is not 0. -/
theorem alphabetEntry_eq_some_iff {input : List Byte} {n : Nat} {x : SymFreq} :
    alphabetEntry input n = some x ↔ BitVec.ofNat 8 n = x.sym ∧ 0 < x.freq ∧ x.freq = input.count x.sym := by
  obtain ⟨b, f⟩ := x
  by_cases h0 : input.count (BitVec.ofNat 8 n) = 0
  · simp only [alphabetEntry, h0, if_true, reduceCtorEq, false_iff]
    rintro ⟨rfl, hpos, hfreq⟩
    omega
  · simp only [alphabetEntry, h0, if_false, Option.some.injEq, SymFreq.mk.injEq]
    constructor
    · rintro ⟨rfl, rfl⟩
      exact ⟨rfl, Nat.pos_of_ne_zero h0, rfl⟩
    · rintro ⟨rfl, -, rfl⟩
      exact ⟨rfl, rfl⟩

/-- The alphabet lists the symbols that occur, each with its frequency. -/
theorem mem_alphabet_iff (input : List Byte) (x : SymFreq) :
    x ∈ alphabet input ↔ 0 < x.freq ∧ x.freq = input.count x.sym := by
  simp only [alphabet_eq_filterMap, List.mem_filterMap, List.mem_range, alphabetEntry_eq_some_iff]
  constructor
  · rintro ⟨n, -, -, hx⟩
    exact hx
  · exact fun hx => ⟨x.sym.toNat, x.sym.isLt, by simp, hx⟩

/-- A symbol is in the alphabet exactly when it occurs. -/
theorem mem_alphabet_syms_iff (input : List Byte) (b : Byte) : b ∈ (alphabet input).map (·.sym) ↔ b ∈ input := by
  rw [← List.count_pos_iff (a := b) (l := input), List.mem_map]
  constructor
  · rintro ⟨x, hx, rfl⟩
    obtain ⟨hpos, hfreq⟩ := (mem_alphabet_iff input x).mp hx
    exact hfreq ▸ hpos
  · exact fun hpos => ⟨{ sym := b, freq := input.count b }, (mem_alphabet_iff input _).mpr ⟨hpos, rfl⟩, rfl⟩

/-- The alphabet is in ascending order, because a byte value below 256 is that of its symbol. -/
theorem alphabet_ascending (input : List Byte) : (alphabet input).Pairwise (fun x y => x.sym < y.sym) := by
  refine List.pairwise_filterMap.mpr (List.pairwise_lt_range.imp_of_mem ?_)
  intro m n hm hn hlt x hx y hy
  rw [List.mem_range] at hm hn
  obtain ⟨hxsym, -⟩ := alphabetEntry_eq_some_iff.mp hx
  obtain ⟨hysym, -⟩ := alphabetEntry_eq_some_iff.mp hy
  rw [← hxsym, ← hysym, BitVec.lt_def, BitVec.toNat_ofNat, BitVec.toNat_ofNat, Nat.mod_eq_of_lt hm, Nat.mod_eq_of_lt hn]
  exact hlt

/-- The symbols of the alphabet are distinct. -/
theorem alphabet_syms_nodup (input : List Byte) : ((alphabet input).map (·.sym)).Nodup :=
  List.pairwise_map.mpr ((alphabet_ascending input).imp BitVec.ne_of_lt)

/-- The alphabet has at most 256 entries. -/
theorem alphabet_length_le (input : List Byte) : (alphabet input).length ≤ 256 :=
  (List.length_filterMap_le _ _).trans_eq List.length_range

/-- The frequencies of the alphabet sum to the length of the input. -/
theorem alphabet_freq_sum (input : List Byte) : ((alphabet input).map (·.freq)).sum = input.length := by
  have hfreq : (alphabet input).map (·.freq) = ((alphabet input).map (·.sym)).map input.count := by
    rw [List.map_map]
    exact List.map_congr_left fun x hx => ((mem_alphabet_iff input x).mp hx).2
  have hsyms : ((alphabet input).map (·.sym)).toFinset = input.toFinset := by
    ext b
    simp only [List.mem_toFinset, mem_alphabet_syms_iff]
  rw [hfreq, ← List.sum_toFinset _ (alphabet_syms_nodup input), hsyms, List.sum_toFinset_count_eq_length]

/-- The alphabet of an input passes the decoder's checks on a stored table (42_huffman.md R206). -/
theorem tableOK_alphabet (input : List Byte) : tableOK (alphabet input) input.length = true := by
  simp only [tableOK, Bool.and_eq_true, decide_eq_true_eq, List.all_eq_true, bne_iff_ne, beq_iff_eq]
  exact ⟨⟨alphabet_syms_nodup input, fun x hx => Nat.ne_of_gt ((mem_alphabet_iff input x).mp hx).1⟩,
    alphabet_freq_sum input⟩

/-- Settles O53: membership and order of the alphabet, which say it whole. -/
theorem alphabetCountsSymbols : Obligations.AlphabetCountsSymbols :=
  fun input => ⟨fun _ _ => mem_alphabet_iff input _, alphabet_ascending input⟩

/-! ## The codes of a tree (42_huffman.md R202) -/

/-- Neither of two codes is the beginning of the other. -/
def Incomparable (p q : Byte × List Bool) : Prop := ¬ p.2 <+: q.2 ∧ ¬ q.2 <+: p.2

/-- Paths that go to the same side compare as they do below it. -/
theorem incomparable_same_side (b : Bool) {p q : Byte × List Bool} (h : Incomparable p q) :
    Incomparable (p.1, b :: p.2) (q.1, b :: q.2) := by
  simpa [Incomparable, List.cons_prefix_cons] using h

/-- Paths that go to different sides differ in their first bit. -/
theorem incomparable_other_side (p q : Byte × List Bool) : Incomparable (p.1, false :: p.2) (q.1, true :: q.2) := by
  simp [Incomparable, List.cons_prefix_cons]

/-- No path of a tree is the beginning of another. -/
theorem paths_prefixFree (t : HuffTree) : t.paths.Pairwise Incomparable := by
  induction t with
  | leaf sym => exact List.pairwise_singleton _ _
  | node l r ihl ihr =>
    refine List.pairwise_append.mpr ⟨?_, ?_, ?_⟩
    · exact List.pairwise_map.mpr (ihl.imp (incomparable_same_side false))
    · exact List.pairwise_map.mpr (ihr.imp (incomparable_same_side true))
    · rintro _ hp _ hq
      obtain ⟨p, -, rfl⟩ := List.mem_map.mp hp
      obtain ⟨q, -, rfl⟩ := List.mem_map.mp hq
      exact incomparable_other_side p q

/-- A tree has one leaf or more. -/
theorem leaves_length_pos (t : HuffTree) : 0 < t.leaves.length := by
  rw [HuffTree.leaves, List.length_map]
  exact List.length_pos_iff.mpr (paths_ne_nil t)

/-- A path is shorter than the number of leaves: each inner node on it has a leaf on its other side. -/
theorem path_length_lt (t : HuffTree) : ∀ p ∈ t.paths, p.2.length < t.leaves.length := by
  induction t with
  | leaf sym => simp [HuffTree.paths, leaves_leaf]
  | node l r ihl ihr =>
    have hl := leaves_length_pos l
    have hr := leaves_length_pos r
    intro p hp
    rw [leaves_node, List.length_append]
    rcases List.mem_append.mp hp with hp | hp
    · obtain ⟨q, hq, rfl⟩ := List.mem_map.mp hp
      have := ihl q hq
      simp only [List.length_cons]
      omega
    · obtain ⟨q, hq, rfl⟩ := List.mem_map.mp hp
      have := ihr q hq
      simp only [List.length_cons]
      omega

/-- Settles O54: the codes are the paths of a tree whose root is an inner node and whose leaves are the symbols. -/
theorem huffmanCodesPrefixFree : Obligations.HuffmanCodesPrefixFree := by
  intro x y xs
  have hleaves := huffTree_leaves x (y :: xs)
  refine ⟨paths_prefixFree _, hleaves, fun p hp => ⟨?_, ?_⟩⟩
  · obtain ⟨l, r, htree⟩ := huffTree_node x y xs
    rw [huffCodes, htree] at hp
    refine List.length_pos_iff.mpr fun hnil => ?_
    have : (p.1, []) ∈ (HuffTree.node l r).paths := hnil ▸ hp
    exact nil_notMem_paths_node this
  · have hlt := path_length_lt _ p hp
    rw [hleaves.length_eq] at hlt
    simp only [List.length_map, List.length_cons] at hlt
    omega

/-! ## Fields of an artifact (20_memory.md R71, 30_encoding.md R112) -/

/-- The middle of three pieces. -/
theorem slice_append_middle (a b c : List Byte) : slice (a ++ (b ++ c)) a.length b.length = b := by
  simp [slice]

/-- A stored field of n bytes reads back, whatever stands before and after it. -/
theorem leNat_slice_leBytes (a c : List Byte) {n v i : Nat} (hi : a.length = i) (hv : v < 256 ^ n) :
    leNat (slice (a ++ (leBytes n v ++ c)) i n) = v := by
  have hmid := slice_append_middle a (leBytes n v) c
  rw [leBytes_length, hi] at hmid
  rw [hmid, leNat_leBytes hv]

/-- A stored 32-bit field reads back. -/
theorem rd32_field (a c : List Byte) {v i : Nat} (hi : a.length = i) (hv : v < 2 ^ 32) :
    rd32 (a ++ (leBytes 4 v ++ c)) i = v := leNat_slice_leBytes a c hi (by simpa using hv)

/-- A stored 64-bit field reads back. -/
theorem rd64_field (a c : List Byte) {v i : Nat} (hi : a.length = i) (hv : v < 2 ^ 64) :
    rd64 (a ++ (leBytes 8 v ++ c)) i = v := leNat_slice_leBytes a c hi (by simpa using hv)

/-- A stored table reads back, where each frequency fits its field. -/
theorem readTable_tableBytes (a c : List Byte) (alpha : List SymFreq) (h : ∀ x ∈ alpha, x.freq < 2 ^ 32) :
    readTable (a ++ (tableBytes alpha ++ c)) a.length alpha.length = alpha := by
  induction alpha generalizing a with
  | nil => rfl
  | cons x xs ih =>
    obtain ⟨hx, hxs⟩ := List.forall_mem_cons.mp h
    have hsym : (a ++ (tableBytes (x :: xs) ++ c)).getD a.length 0 = x.sym := by
      simp [tableBytes, List.getD_eq_getElem?_getD]
    have hfreq : rd32 (a ++ (tableBytes (x :: xs) ++ c)) (a.length + 1) = x.freq := by
      have hfield := rd32_field (a ++ [x.sym]) (tableBytes xs ++ c) (List.length_append ..) hx
      simpa [tableBytes] using hfield
    have hrest : readTable (a ++ (tableBytes (x :: xs) ++ c)) (a ++ (x.sym :: leBytes 4 x.freq)).length xs.length = xs := by
      have hafter := ih (a ++ (x.sym :: leBytes 4 x.freq)) hxs
      simpa [tableBytes] using hafter
    rw [readTable, List.length_cons, List.range_succ_eq_map, List.map_cons, List.map_map, Nat.mul_zero, Nat.add_zero,
      hsym, hfreq]
    refine congrArg (x :: ·) ((List.map_congr_left fun i _ => ?_).trans hrest)
    have hoff : a.length + 5 * (i + 1) = (a ++ (x.sym :: leBytes 4 x.freq)).length + 5 * i := by
      simp only [List.length_append, List.length_cons, leBytes_length]
      omega
    simp only [Function.comp_apply, Nat.succ_eq_add_one, hoff]

/-- The header in front of an artifact parses, and declares the length of the encoder's source (41_container.md R181, R182). -/
theorem parseHeader_artifactHeader (s : State) (fl : Word) (rest : List Byte) :
    ∃ h, parseHeader s.platform.magic (s.artifactHeader fl ++ rest) (s.artifactHeader fl ++ rest).length = .ok h ∧
      h.orig = s.slen := by
  have hlen : 272 ≤ (s.artifactHeader fl ++ rest).length := by simp
  have hsrc : s.artifactHeader fl ++ rest = leBytes 4 s.platform.magic.toNat ++
      (leBytes 8 s.slen ++ (s.nameField ++ (leBytes 4 fl.toNat ++ rest))) := by
    simp [State.artifactHeader, mkHeader]
  have hmagic : rd32 (s.artifactHeader fl ++ rest) 0 = s.platform.magic.toNat := by
    rw [hsrc, ← List.nil_append (leBytes 4 s.platform.magic.toNat ++ _)]
    exact rd32_field [] _ rfl s.platform.magic.isLt
  have horig : rd64 (s.artifactHeader fl ++ rest) 4 = s.slen := by
    rw [hsrc]
    exact rd64_field _ _ (leBytes_length _ _) (value_lt _)
  exact ⟨_, parseHeader_ok.mpr ⟨hlen, hmagic, rfl⟩, horig⟩

/-! ## The round trip (42_huffman.md R207) -/

/-- The bits of a packed string are that string. -/
theorem streamBit_packBits (bits : List Bool) :
    (List.range bits.length).map (streamBit (packBits bits)) = bits := by
  obtain ⟨hlen, hbit⟩ := packedBitsReadBack bits
  refine List.ext_getElem (by simp) fun k _ hk => ?_
  rw [List.getElem_map, List.getElem_range, hbit k (by omega), dif_pos hk]

/-- The codes of symbols of an alphabet decode to these symbols: by the size of the alphabet, no bits, one bit a symbol, or
the walk along the codes. -/
theorem huffSymbols_codes {alpha : List SymFreq} {syms : List Byte} {bits : List Bool}
    (hn : (alpha.map (·.sym)).Nodup) (hs : ∀ b ∈ syms, b ∈ alpha.map (·.sym))
    (hbits : syms.flatMap (codeOf (huffCodes alpha)) = bits) :
    huffSymbols alpha (packBits bits) bits.length syms.length = .ok syms := by
  match alpha with
  | [] =>
    obtain rfl : syms = [] := List.eq_nil_iff_forall_not_mem.mpr fun b hb => nomatch hs b hb
    subst hbits
    rfl
  | [x] =>
    have hall : syms = List.replicate syms.length x.sym :=
      List.eq_replicate_iff.mpr ⟨rfl, fun b hb => by simpa using hs b hb⟩
    have htotal : bits.length = syms.length := by
      rw [← hbits, hall]
      simp [huffCodes, codeOf]
    rw [huffSymbols, htotal, if_neg (Nat.lt_irrefl _), ← hall]
  | x :: y :: xs =>
    obtain ⟨l, r, htree⟩ := huffTree_node x y xs
    have hleaves := huffTree_leaves x (y :: xs)
    rw [htree] at hleaves
    have hwalk := huffWalk_codes (hleaves.nodup_iff.mpr hn) (orig := syms.length) (out := []) []
      (fun b hb => hleaves.mem_iff.mpr (hs b hb)) (Nat.zero_le _)
    rw [huffCodes, htree] at hbits
    rw [List.append_nil, hbits] at hwalk
    rw [huffSymbols, htree, streamBit_packBits, hwalk, if_neg (by simp), List.nil_append, huffWalk, if_pos rfl]

/-- The code bits of an input decode to the input. -/
theorem huffSymbols_huffBits (input : List Byte) :
    huffSymbols (alphabet input) (packBits (huffBits input)) (huffBits input).length input.length = .ok input :=
  huffSymbols_codes (alphabet_syms_nodup input) (fun b hb => (mem_alphabet_syms_iff input b).mpr hb) rfl

/-- Huffman encoding that succeeds: every count fits its field, and the body is n, the table, T and the packed bits. -/
theorem huffEncode_eq_ok {input body : List Byte} (h : huffEncode input = .ok body) :
    (∀ x ∈ alphabet input, x.freq < 2 ^ 32) ∧ (huffBits input).length < 2 ^ 32 ∧
      body = leBytes 4 (alphabet input).length ++ tableBytes (alphabet input) ++
        leBytes 4 (huffBits input).length ++ packBits (huffBits input) := by
  simp only [huffEncode] at h
  split at h
  · cases h
  next hfreq =>
    split at h
    · cases h
    next hbits =>
      cases h
      exact ⟨by simpa using hfreq, Nat.not_le.mp hbits, rfl⟩

@[simp] theorem tableBytes_length (alpha : List SymFreq) : (tableBytes alpha).length = 5 * alpha.length :=
  flatMap_length_const alpha _ 5 (by simp)

/-- The fields of a Huffman artifact, as the decoder reads them (30_encoding.md R112). -/
theorem artifact_fields {src header extra : List Byte} {alpha : List SymFreq} {bits : List Bool}
    (hsrc : src = header ++ (leBytes 4 alpha.length ++ (tableBytes alpha ++ (leBytes 4 bits.length ++
      (packBits bits ++ extra)))))
    (hh : header.length = 272) (hn : alpha.length < 2 ^ 32) (hfreq : ∀ x ∈ alpha, x.freq < 2 ^ 32)
    (hbits : bits.length < 2 ^ 32) :
    storedCount src = alpha.length ∧ storedTable src = alpha ∧ storedTotal src = bits.length ∧
      slice src (280 + 5 * alpha.length) ((bits.length + 7) / 8) = packBits bits := by
  have hcount : storedCount src = alpha.length := hsrc ▸ rd32_field _ _ hh hn
  have htable : storedTable src = alpha := by
    rw [← readTable_eq_storedTable, hcount, hsrc, ← List.append_assoc]
    have hback := readTable_tableBytes (header ++ leBytes 4 alpha.length)
      (leBytes 4 bits.length ++ (packBits bits ++ extra)) _ hfreq
    rwa [List.length_append, hh, leBytes_length] at hback
  refine ⟨hcount, htable, ?_, ?_⟩
  · rw [storedTotal, hcount, hsrc, ← List.append_assoc, ← List.append_assoc]
    exact rd32_field _ _ (by simp only [List.length_append, hh, leBytes_length, tableBytes_length]) hbits
  · have hmid := slice_append_middle (header ++ leBytes 4 alpha.length ++ tableBytes alpha ++ leBytes 4 bits.length)
      (packBits bits) extra
    have hoff : 272 + 4 + 5 * alpha.length + 4 = 280 + 5 * alpha.length := by omega
    rw [List.length_append, List.length_append, List.length_append, hh, leBytes_length, tableBytes_length,
      leBytes_length, packBits_length, hoff] at hmid
    simpa only [List.append_assoc, hsrc] using hmid

/-- Huffman decoding undoes Huffman encoding, whatever follows the artifact. -/
theorem huffDecode_huffEncode {input body header : List Byte} (extra : List Byte) (hh : header.length = 272)
    (h : huffEncode input = .ok body) : huffDecode input.length (header ++ body ++ extra) = .ok input := by
  have hbody := huffEncode_length h
  obtain ⟨hfreq, htotal, hfields⟩ := huffEncode_eq_ok h
  have hn := alphabet_length_le input
  have hlen : (header ++ body ++ extra).length = 272 + body.length + extra.length := by
    rw [List.length_append, List.length_append, hh]
  generalize hsrc : header ++ body ++ extra = src at hlen
  rw [hfields] at hsrc
  simp only [List.append_assoc] at hsrc
  obtain ⟨hcount, htable, hstored, hbits⟩ := artifact_fields hsrc.symm hh (by omega) hfreq htotal
  rw [huffDecode_eq, hcount, htable, hstored, hbits, tableOK_alphabet, hlen, if_neg (by omega), if_neg (by omega),
    if_neg (by omega), if_neg (by simp), if_neg (by omega), if_neg (by omega), huffSymbols_huffBits]

/-- A ready command that ends with OK has an output, and left it at `dst`: OUT_LEN bytes. -/
theorem exec_ok_output {i : Instr} {s t : State} (hr : s.Ready i) (hx : exec i s = .next t) (hok : t.acting.err = .ok) :
    ∃ o, bodyOf i s = .ok o ∧ t.readBytes s.dst t.acting.outLen.value = o.bytes := by
  rw [exec_eq] at hx
  cases hb : bodyOf i s with
  | ok o =>
    rw [run_ok hr hb, Host.Outcome.next.injEq] at hx
    subst hx
    refine ⟨o, rfl, ?_⟩
    rw [(finish_posted s o hr.acting (body_length_lt hb)).outLen]
    exact (finish_wrote s o).1
  | error err =>
    rw [run_error hr hb, Host.Outcome.next.injEq] at hx
    subst hx
    obtain rfl : err = .ok := by simpa [raiseInBody_acting s err hr.acting] using hok
    exact absurd (body_error_mem_causes hb) (ok_notMem_causes i)

/-- HUF_DEC and LZW_DEC write what their body decodes to, where it is of the declared size. -/
theorem sizedDecoder_body {s : State} {h : Header} {f : Nat → List Byte → Except Status (List Byte)} {out : List Byte}
    (hp : parseHeader s.platform.magic s.source s.slen = .ok h) (hc : h.orig ≤ s.cap) (hl : out.length = h.orig)
    (hf : f h.orig s.source = .ok out) :
    s.withArtifact (fun orig input => andThen (f orig input) (exactSize orig)) = .ok (Output.ofBytes out) := by
  rw [withArtifact_parsed hp hc, hf, andThen_ok, exactSize, if_neg (not_not.mpr hl)]

/-- Settles O55: the artifact's header declares the length of the input, and decoding its body gives the input. -/
theorem huffmanRoundTrip : Obligations.HuffmanRoundTrip := by
  intro s t u extra hs hx hok hu hmagic hsrc hcap
  obtain ⟨o, hbody, hread⟩ := exec_ok_output hs hx hok
  obtain ⟨body, henc, hfit⟩ := andThen_eq_ok.mp hbody
  rw [hread, (encoder_ok hfit).2.2] at hsrc
  obtain ⟨h, hp, horig⟩ := parseHeader_artifactHeader s 0 (body ++ extra)
  rw [← List.append_assoc, ← hsrc, source_length, ← hmagic] at hp
  have hdec : huffDecode h.orig u.source = .ok s.source := by
    rw [horig, hsrc, ← source_length s]
    exact huffDecode_huffEncode extra (artifactHeader_length s 0) henc
  exact exec_writes hu
    (sizedDecoder_body hp (horig ▸ hcap) ((source_length s).trans horig.symm) (f := huffDecode) hdec)

/-! ## The output of the decoders (42_huffman.md R206, 43_lzw.md R244, 44_rle.md R272, 45_aes.md R305) -/

/-- RLE_DEC writes what the runs decode to. -/
theorem rleDec_body {s : State} {h : Header} {out : List Byte}
    (hp : parseHeader s.platform.magic s.source s.slen = .ok h) (hc : h.orig ≤ s.cap)
    (hf : rleDecodeFrom h.orig [] (s.source.drop 272) = .ok out) : rleDecBody s = .ok (Output.ofBytes out) := by
  rw [rleDecBody, withArtifact_parsed hp hc, Config.hdrLen, hf, andThen_ok]

/-- RLE decoding of runs that spell the declared size, whatever follows them. -/
theorem rleDecodeFrom_holdsRuns {s : State} {runs : List Run} {rest out : List Byte} (hruns : s.HoldsRuns runs rest)
    (hout : out = runs.flatMap (fun r => List.replicate r.len r.byte)) :
    rleDecodeFrom out.length [] (s.source.drop 272) = .ok out := by
  obtain ⟨hsrc, hlen⟩ := hruns
  have hsum : (runs.map (·.len)).sum = out.length := by rw [hout, runs_bytes_length]
  rw [hsrc, rleDecodeFrom_runs rest hlen (by simp [hsum]), List.nil_append, ← hout]
  exact rleDecodeFrom_full rest (Nat.le_refl _)

/-- AES_DEC of a ciphertext of one block or more writes the unpadded decryption, where it is of the declared size. -/
theorem aesDec_body {s : State} {h : Header} {out : List Byte}
    (hp : parseHeader s.platform.magic s.source s.slen = .ok h) (hc : h.orig ≤ s.cap) (hl : out.length = h.orig)
    (hlong : 272 < s.slen) (hblocks : s.slen % 16 = 0)
    (hf : pkcs7Unpad (ecbDec s.acting.rk (s.source.drop 272)) = .ok out) : aesDecBody s = .ok (Output.ofBytes out) := by
  have hlen : (s.source.drop 272).length = s.slen - 272 := by rw [List.length_drop, source_length]
  have hwhole : ¬ (s.source.drop 272).length % 16 ≠ 0 := by omega
  have hsome : ¬ (s.source.drop 272).length = 0 := by omega
  rw [aesDecBody, withArtifact_parsed hp hc, Config.hdrLen]
  simp only [if_neg hwhole, if_neg hsome, hf, andThen_ok]
  exact if_neg (not_not.mpr hl)

/-- Settles O22: each decoder's pseudocode answers the bytes that its decoding function gives. -/
theorem decodersWriteOutput : Obligations.DecodersWriteOutput := by
  intro s h out hp hc hl
  refine ⟨fun hr hf => ?_, fun hr hf => ?_, fun hr hf => ?_, fun hr hlong hblocks hf => ?_,
    fun hr runs rest hruns hout => ?_, fun hr hlong hblocks hpad => ?_⟩
  · exact exec_writes hr (sizedDecoder_body hp hc hl (f := huffDecode) hf)
  · exact exec_writes hr (sizedDecoder_body hp hc hl (f := lzwUnpack) hf)
  · exact exec_writes hr (rleDec_body hp hc hf)
  · exact exec_writes hr (aesDec_body hp hc hl hlong hblocks hf)
  · exact exec_writes hr (rleDec_body hp hc (hl ▸ rleDecodeFrom_holdsRuns hruns hout))
  · obtain ⟨v, h1, h16, hplain⟩ := hpad
    exact exec_writes hr (aesDec_body hp hc hl hlong hblocks (hplain ▸ pkcs7Unpad_padded out h1 h16))

/-! ## The limits of the encoders (42_huffman.md R205, 43_lzw.md R243, 60_exceptions.md R363) -/

/-- A command whose output would not fit in its destination raises an error. -/
theorem body_error_of_beyond {i : Instr} {s : State} (hd : usesDest i = true) (hc : s.cap < s.outputLength i) :
    ∃ err, bodyOf i s = .error err := by
  cases hb : bodyOf i s with
  | error err => exact ⟨err, rfl⟩
  | ok o =>
    rcases body_fits hb with ⟨-, hfits⟩ | ⟨hnone, -⟩
    · rw [body_length hb] at hfits
      omega
    · simp [hd] at hnone

/-- An encoder whose pseudocode comes to the capacity check raises IoFailure where its artifact does not fit. -/
theorem exec_beyond_capacity {i : Instr} {s : State} {out : List Byte} (h : s.Ready i) (hd : usesDest i = true)
    (hb : bodyOf i s = fitOutput s.cap out) (hc : s.cap < s.outputLength i) :
    ∃ t, exec i s = .next t ∧ s.FailsInBody t .ioFailure := by
  obtain ⟨err, herr⟩ := body_error_of_beyond hd hc
  obtain rfl := fitOutput_error (hb ▸ herr)
  exact exec_fails h herr

/-- Huffman encoding raises LimitExceeded where a frequency or the number of code bits does not fit its field. -/
theorem huffEncode_beyond {input : List Byte}
    (h : (∃ x ∈ alphabet input, 2 ^ 32 ≤ x.freq) ∨ 2 ^ 32 ≤ (huffBits input).length) :
    huffEncode input = .error .limitExceeded := by
  simp only [huffEncode, check_error_iff, List.any_eq_true, decide_eq_true_eq]
  exact h.imp_right .inl

/-- Settles O29: a count is checked before the artifact is made, and the capacity after. -/
theorem encodersReportTheirLimits : Obligations.EncodersReportTheirLimits := by
  intro s
  refine ⟨fun hr hlimit => ?_, fun hr hfreq hbits hc => ?_, fun hr hcodes => ?_, fun hr hcodes hc => ?_,
    fun i hi hr hc => ?_⟩
  · exact exec_fails hr (by rw [bodyOf, hufEncBody, huffEncode_beyond hlimit, andThen_error])
  · exact exec_beyond_capacity hr rfl (by rw [bodyOf, hufEncBody, huffEncode_ok hfreq hbits, andThen_ok]) hc
  · exact exec_fails hr (if_pos hcodes)
  · exact exec_beyond_capacity hr rfl (if_neg (Nat.not_le.mpr hcodes)) hc
  · simp only [List.mem_cons, List.not_mem_nil, or_false] at hi
    rcases hi with rfl | rfl
    · exact exec_beyond_capacity hr rfl rfl hc
    · exact exec_beyond_capacity hr rfl rfl hc

end Sys2Proof.Machine
end

section
/-! SUPPORT and PROOFS of the round trip of 43_lzw.md: the codes of an artifact read back, and the decoder's dictionary follows
the encoder's one entry behind. -/

namespace Sys2Proof.Machine

/-! ## The dictionary (43_lzw.md R240) -/

/-- `D0` holds the strings of one byte. -/
theorem mem_lzwInit_iff (w : List Byte) : w ∈ lzwInit ↔ ∃ b, w = [b] := by
  simp only [lzwInit, List.mem_map, List.mem_range]
  constructor
  · rintro ⟨n, -, rfl⟩
    exact ⟨_, rfl⟩
  · rintro ⟨b, rfl⟩
    exact ⟨b.toNat, b.isLt, by simp⟩

theorem lzwInit_length : lzwInit.length = 256 := by simp [lzwInit]

/-- Adding keeps the entries. -/
theorem mem_lzwAdd_of_mem {d : LzwDict} {w e : List Byte} (h : e ∈ d) : e ∈ LzwDict.add d w := by
  unfold LzwDict.add
  split
  · exact List.mem_append_left _ h
  · exact h

/-- An entry after adding that was none before: the dictionary was not full, and it is the last. -/
theorem lzwAdd_new {d : LzwDict} {w e : List Byte} (h : e ∈ LzwDict.add d w) (hn : e ∉ d) :
    e = w ∧ d.length < Config.lzwCap ∧ (LzwDict.add d w).idxOf e = d.length := by
  unfold LzwDict.add at *
  split at h
  next hlt =>
    obtain rfl : e = w := by simpa [hn] using h
    rw [if_pos hlt, List.idxOf_append_of_notMem hn, List.idxOf_cons_self, Nat.add_zero]
    exact ⟨rfl, hlt, rfl⟩
  next => exact absurd h hn

/-- Adding keeps the code of an entry. -/
theorem lzwAdd_idxOf {d : LzwDict} {w e : List Byte} (h : e ∈ d) : (LzwDict.add d w).idxOf e = d.idxOf e := by
  unfold LzwDict.add
  split
  · exact List.idxOf_append_of_mem h
  · rfl

/-- The code of an entry stands for it. -/
theorem getD_idxOf {d : LzwDict} {e : List Byte} (h : e ∈ d) : d.getD (d.idxOf e) [] = e := by
  have hlt := List.idxOf_lt_length_of_mem h
  rw [List.getD_eq_getElem _ _ hlt, List.getElem_idxOf hlt]

/-! ## The encoder (43_lzw.md R241) -/

/-- At the end of the input the encoder emits the code of its match. -/
theorem lzwEncodeFrom_end (d : LzwDict) {w : List Byte} (h : w ≠ []) : lzwEncodeFrom d w [] = [d.idxOf w] := if_neg h

/-- A match that is still in the dictionary with the next byte grows by it. -/
theorem lzwEncodeFrom_grow {d : LzwDict} {w : List Byte} {k : Byte} (rest : List Byte) (h : w ++ [k] ∈ d) :
    lzwEncodeFrom d w (k :: rest) = lzwEncodeFrom d (w ++ [k]) rest := if_pos (List.contains_iff_mem.mpr h)

/-- A match that is longest is emitted and, with the next byte, added. -/
theorem lzwEncodeFrom_emit {d : LzwDict} {w : List Byte} {k : Byte} (rest : List Byte) (h : w ++ [k] ∉ d) :
    lzwEncodeFrom d w (k :: rest) = d.idxOf w :: lzwEncodeFrom (LzwDict.add d (w ++ [k])) [k] rest :=
  if_neg (mt List.contains_iff_mem.mp h)

/-! ## The decoder follows the encoder (43_lzw.md R242, R245) -/

/-- The encoder with dictionary `dEnc` and match `w`, and the decoder with dictionary `d` just after the entry `prev`: the
decoder lacks the one entry that the encoder added when it emitted `prev`, which ends with the first byte of `w`. -/
structure LzwLag (dEnc : LzwDict) (w : List Byte) (d : LzwDict) (prev : List Byte) : Prop where
  /-- The encoder is one entry ahead. -/
  ahead : dEnc = LzwDict.add d (prev ++ w.take 1)
  prev_ne : prev ≠ []
  match_ne : w ≠ []
  match_mem : w ∈ dEnc
  /-- Every single byte is an entry, so that a new match can start. -/
  byte_mem : ∀ b : Byte, [b] ∈ dEnc

namespace LzwLag

variable {dEnc d : LzwDict} {w prev : List Byte} {k : Byte}

/-- The lag stays while the match grows: its first byte does. -/
theorem grow (h : LzwLag dEnc w d prev) (hk : w ++ [k] ∈ dEnc) : LzwLag dEnc (w ++ [k]) d prev where
  ahead := by
    rw [List.take_append_of_le_length (List.length_pos_iff.mpr h.match_ne)]
    exact h.ahead
  prev_ne := h.prev_ne
  match_ne := by simp
  match_mem := hk
  byte_mem := h.byte_mem

/-- The lag after a match was emitted: the decoder catches up, and the encoder has added the next entry. -/
theorem emit (h : LzwLag dEnc w d prev) : LzwLag (LzwDict.add dEnc (w ++ [k])) [k] dEnc w where
  ahead := rfl
  prev_ne := h.match_ne
  match_ne := List.cons_ne_nil _ _
  match_mem := mem_lzwAdd_of_mem (h.byte_mem k)
  byte_mem b := mem_lzwAdd_of_mem (h.byte_mem b)

/-- The decoder finds the match from the encoder's code: it has the entry already, or the match is the entry it lacks. That
one is `prev` with the first byte of the match, which is then the first byte of `prev`: the code KwKwK. -/
theorem lzwEntry_code (h : LzwLag dEnc w d prev) : lzwEntry d prev (dEnc.idxOf w) = some w := by
  have hmem := h.match_mem
  rw [h.ahead] at hmem ⊢
  by_cases hd : w ∈ d
  · rw [lzwAdd_idxOf hd, lzwEntry, if_pos (List.idxOf_lt_length_of_mem hd), getD_idxOf hd]
  · obtain ⟨hw, hfree, hcode⟩ := lzwAdd_new hmem hd
    have hfirst : w.take 1 = prev.take 1 := by
      rw [hw, List.take_append_of_le_length (List.length_pos_iff.mpr h.prev_ne)]
    rw [hcode, lzwEntry, if_neg (Nat.lt_irrefl _), if_pos ⟨rfl, hfree⟩, ← hfirst, ← hw]

/-- The decoder's step on the encoder's code: it outputs the match and then has the encoder's dictionary. -/
theorem lzwDecodeFrom_code (h : LzwLag dEnc w d prev) {orig : Nat} {out : List Byte} (codes : List Nat)
    (hsize : out.length + w.length ≤ orig) :
    lzwDecodeFrom orig d prev out (dEnc.idxOf w :: codes) = lzwDecodeFrom orig dEnc w (out ++ w) codes := by
  rw [lzwDecodeFrom, h.lzwEntry_code]
  simp only [List.length_append, if_neg (Nat.not_lt.mpr hsize), ← h.ahead]

end LzwLag

/-- The decoder outputs the match and the rest of the input, from any two dictionaries in this lag. -/
theorem lzwDecodeFrom_lzwEncodeFrom {orig : Nat} {input out w prev : List Byte} {dEnc d : LzwDict}
    (h : LzwLag dEnc w d prev) (hsize : out.length + w.length + input.length ≤ orig) :
    lzwDecodeFrom orig d prev out (lzwEncodeFrom dEnc w input) = .ok (out ++ w ++ input) := by
  induction input generalizing out w prev dEnc d with
  | nil =>
    rw [lzwEncodeFrom_end _ h.match_ne, h.lzwDecodeFrom_code [] hsize, lzwDecodeFrom, List.append_nil]
  | cons k rest ih =>
    rw [List.length_cons] at hsize
    by_cases hk : w ++ [k] ∈ dEnc
    · rw [lzwEncodeFrom_grow rest hk, ih (h.grow hk) (by simp; omega)]
      simp
    · rw [lzwEncodeFrom_emit rest hk, h.lzwDecodeFrom_code _ (by omega), ih h.emit (by simp; omega)]
      simp

/-- The first code, that of a single byte, is below 256 and decodes to it. -/
theorem lzwDecode_first {orig : Nat} (b : Byte) (codes : List Nat) (h : 1 ≤ orig) :
    lzwDecode (lzwInit.idxOf [b] :: codes) orig = lzwDecodeFrom orig lzwInit [b] [b] codes := by
  have hmem := (mem_lzwInit_iff [b]).mpr ⟨b, rfl⟩
  have hcode := List.idxOf_lt_length_of_mem hmem
  rw [lzwInit_length] at hcode
  rw [lzwDecode, if_neg (Nat.not_le.mpr hcode)]
  simp only [getD_idxOf hmem, List.length_singleton, if_neg (Nat.not_lt.mpr h)]

/-- LZW decoding undoes LZW encoding. -/
theorem lzwDecode_lzwEncode (input : List Byte) : lzwDecode (lzwEncode input) input.length = .ok input := by
  have hbyte (b : Byte) : [b] ∈ lzwInit := (mem_lzwInit_iff _).mpr ⟨b, rfl⟩
  rw [lzwEncode]
  match input with
  | [] => rfl
  | [b] =>
    rw [lzwEncodeFrom_grow [] (hbyte b), lzwEncodeFrom_end _ (by simp), List.nil_append, lzwDecode_first b [] (by simp),
      lzwDecodeFrom]
  | b :: k :: rest =>
    have hpair : [b] ++ [k] ∉ lzwInit := by simp [mem_lzwInit_iff]
    have hlag : LzwLag (LzwDict.add lzwInit ([b] ++ [k])) [k] lzwInit [b] :=
      { ahead := rfl, prev_ne := by simp, match_ne := by simp, match_mem := mem_lzwAdd_of_mem (hbyte k)
        byte_mem := fun c => mem_lzwAdd_of_mem (hbyte c) }
    rw [lzwEncodeFrom_grow _ (hbyte b), List.nil_append, lzwEncodeFrom_emit rest hpair, lzwDecode_first b _ (by simp),
      lzwDecodeFrom_lzwEncodeFrom hlag (by simp; omega)]
    rfl

/-- Every code that the encoder emits fits its field: one that decodes is below 4096. -/
theorem lzwEncode_lt (input : List Byte) : ∀ c ∈ lzwEncode input, c < 2 ^ 16 := by
  intro c hc
  obtain ⟨j, hj, rfl⟩ := List.mem_iff_getElem.mp hc
  obtain ⟨hfirst, hlater⟩ := lzwDecode_ok (lzwDecode_lzwEncode input) j hj
  by_cases h0 : j = 0
  · have := hfirst h0
    omega
  · have := (hlater (by omega)).2
    omega

/-! ## The codes of an artifact (30_encoding.md R114) -/

/-- A stored 16-bit field reads back. -/
theorem rd16_field (a c : List Byte) {v i : Nat} (hi : a.length = i) (hv : v < 2 ^ 16) :
    rd16 (a ++ (leBytes 2 v ++ c)) i = v := leNat_slice_leBytes a c hi (by simpa using hv)

/-- Stored codes read back, where each fits its field. -/
theorem rd16_codes (a c : List Byte) (codes : List Nat) (h : ∀ v ∈ codes, v < 2 ^ 16) :
    (List.range codes.length).map (fun j => rd16 (a ++ (codes.flatMap (leBytes 2) ++ c)) (a.length + 2 * j)) = codes := by
  induction codes generalizing a with
  | nil => rfl
  | cons v vs ih =>
    obtain ⟨hv, hvs⟩ := List.forall_mem_cons.mp h
    have hafter := ih (a ++ leBytes 2 v) hvs
    simp only [List.append_assoc, List.length_append, leBytes_length] at hafter
    rw [List.length_cons, List.range_succ_eq_map, List.map_cons, List.map_map, List.flatMap_cons, List.append_assoc]
    refine congrArg₂ List.cons (rd16_field a _ rfl hv) ((List.map_congr_left fun j _ => ?_).trans hafter)
    simp only [Function.comp_apply, Nat.succ_eq_add_one, Nat.mul_add, Nat.add_assoc, Nat.add_comm]

/-- Unpacking gives what the stored codes decode to, whatever follows the artifact. -/
theorem lzwUnpack_lzwBody (orig : Nat) {header : List Byte} {codes : List Nat} (extra : List Byte)
    (hh : header.length = 272) (hcount : codes.length < 2 ^ 32) (hcodes : ∀ v ∈ codes, v < 2 ^ 16) :
    lzwUnpack orig (header ++ lzwBody codes ++ extra) = lzwDecode codes orig := by
  have hlen : (header ++ lzwBody codes ++ extra).length = 276 + 2 * codes.length + extra.length := by
    simp only [List.length_append, hh, lzwBody_length]
    omega
  have hm : rd32 (header ++ lzwBody codes ++ extra) 272 = codes.length := by
    rw [lzwBody, List.append_assoc, List.append_assoc]
    exact rd32_field header _ hh hcount
  have hread := rd16_codes (header ++ leBytes 4 codes.length) extra codes hcodes
  rw [List.length_append, hh, leBytes_length, ← List.append_assoc, List.append_assoc header] at hread
  simp only [lzwUnpack, hm, hlen]
  rw [if_neg (by omega), if_neg (by omega)]
  exact congrArg (lzwDecode · orig) hread

/-- LZW encoding that succeeds: the number of codes fits its field, and the artifact is the header and the body. -/
theorem lzwEncBody_ok {s : State} {o : Output} (h : lzwEncBody s = .ok o) :
    (lzwEncode s.source).length < 2 ^ 32 ∧ o.bytes = s.artifactHeader 0 ++ lzwBody (lzwEncode s.source) := by
  simp only [lzwEncBody] at h
  split at h
  · cases h
  next hcount => exact ⟨Nat.not_le.mp hcount, (encoder_ok h).2.2⟩

/-- Settles O56: the artifact's header declares the length of the input, and the decoder, whose dictionary is one entry behind
the encoder's, decodes the codes of the body to the input. -/
theorem lzwRoundTrip : Obligations.LzwRoundTrip := by
  intro s t u extra hs hx hok hu hmagic hsrc hcap
  obtain ⟨o, hbody, hread⟩ := exec_ok_output hs hx hok
  obtain ⟨hcount, hartifact⟩ := lzwEncBody_ok hbody
  rw [hread, hartifact] at hsrc
  obtain ⟨h, hp, horig⟩ := parseHeader_artifactHeader s 0 (lzwBody (lzwEncode s.source) ++ extra)
  rw [← List.append_assoc, ← hsrc, source_length, ← hmagic] at hp
  have hdec : lzwUnpack h.orig u.source = .ok s.source := by
    rw [horig, hsrc, lzwUnpack_lzwBody _ extra (artifactHeader_length s 0) hcount (lzwEncode_lt _), ← source_length s]
    exact lzwDecode_lzwEncode s.source
  exact exec_writes hu
    (sizedDecoder_body hp (horig ▸ hcap) ((source_length s).trans horig.symm) (f := lzwUnpack) hdec)

end Sys2Proof.Machine
end

section
/-! SUPPORT and PROOFS of the statements of 44_rle.md: what the runs of an input are, and that the decoder, which takes up any
stored runs, gives the input back from them. -/

namespace Sys2Proof.Machine

/-! ## The runs of an input (44_rle.md R270) -/

/-- The runs spell the bytes that have been counted and those that follow. -/
theorem rleRunsFrom_spell (n : Nat) (b : Byte) (xs : List Byte) :
    (rleRunsFrom n b xs).flatMap (fun r => List.replicate r.len r.byte) = List.replicate n b ++ xs := by
  fun_induction rleRunsFrom n b xs with
  | case1 n b => simp
  | case2 n b x xs hgrow ih =>
    obtain ⟨rfl, -⟩ := hgrow
    rw [ih, List.replicate_succ', List.append_assoc, List.singleton_append]
  | case3 n b x xs _ ih => rw [List.flatMap_cons, ih, List.replicate_one, List.singleton_append]

/-- No run is empty or longer than RUN_MAX, where the count so far is neither. -/
theorem rleRunsFrom_len {n : Nat} (b : Byte) (xs : List Byte) (h1 : 1 ≤ n) (hmax : n ≤ Config.runMax) :
    ∀ r ∈ rleRunsFrom n b xs, 1 ≤ r.len ∧ r.len ≤ Config.runMax := by
  fun_induction rleRunsFrom n b xs with
  | case1 n b => simpa using ⟨h1, hmax⟩
  | case2 n b x xs hgrow ih => exact ih (Nat.le_add_left 1 n) hgrow.2
  | case3 n b x xs _ ih => exact List.forall_mem_cons.mpr ⟨⟨h1, hmax⟩, ih (Nat.le_refl 1) (by decide)⟩

/-- The first run is of the byte that is being counted. -/
theorem rleRunsFrom_head (n : Nat) (b : Byte) (xs : List Byte) : ∀ r ∈ (rleRunsFrom n b xs).head?, r.byte = b := by
  fun_induction rleRunsFrom n b xs with
  | case1 n b => simp
  | case2 n b x xs _ ih => exact ih
  | case3 n b x xs => simp

/-- A run ends only before another byte or at RUN_MAX. -/
theorem rleRunsFrom_chain {n : Nat} (b : Byte) (xs : List Byte) (hmax : n ≤ Config.runMax) :
    (rleRunsFrom n b xs).IsChain (fun r q => r.byte ≠ q.byte ∨ r.len = Config.runMax) := by
  fun_induction rleRunsFrom n b xs with
  | case1 n b => exact .singleton _
  | case2 n b x xs hgrow ih => exact ih hgrow.2
  | case3 n b x xs hcut ih =>
    refine List.isChain_cons.mpr ⟨fun q hq => ?_, ih (by decide)⟩
    rw [rleRunsFrom_head 1 x xs q hq]
    rcases not_and_or.mp hcut with hbyte | hfull
    · exact .inl (Ne.symm hbyte)
    · exact .inr (Nat.le_antisymm hmax (Nat.not_lt.mp hfull))

/-- Settles O57: the count starts at 1 with the first byte, and grows to RUN_MAX at most. -/
theorem runsAreMaximal : Obligations.RunsAreMaximal
  | [] => ⟨rfl, by simp [rleRuns], .nil⟩
  | x :: xs => ⟨rleRunsFrom_spell 1 x xs, rleRunsFrom_len x xs (Nat.le_refl 1) (by decide),
      rleRunsFrom_chain x xs (by decide)⟩

/-! ## The round trip (44_rle.md R273) -/

/-- A source that is an RLE artifact holds the runs of the encoded input, whatever follows them. -/
theorem holdsRuns_artifact {u : State} {header input : List Byte} (extra : List Byte) (hh : header.length = 272)
    (hsrc : u.source = header ++ rleBody (rleRuns input) ++ extra) : u.HoldsRuns (rleRuns input) extra := by
  obtain ⟨-, hlen, -⟩ := runsAreMaximal input
  refine ⟨?_, fun r hr => ?_⟩
  · rw [hsrc, List.append_assoc, List.drop_left' hh, rleBody]
  · obtain ⟨hpos, hmax⟩ := hlen r hr
    exact ⟨hpos, by omega⟩

/-- Settles O58: the artifact's header declares the length of the input, and its body holds the runs, which spell the input. -/
theorem rleRoundTrip : Obligations.RleRoundTrip := by
  intro s t u extra hs hx hok hu hmagic hsrc hcap
  obtain ⟨o, hbody, hread⟩ := exec_ok_output hs hx hok
  obtain ⟨-, -, hartifact⟩ := encoder_ok hbody
  rw [hread, hartifact] at hsrc
  obtain ⟨h, hp, horig⟩ := parseHeader_artifactHeader s 0 (rleBody (rleRuns s.source) ++ extra)
  rw [← List.append_assoc, ← hsrc, source_length, ← hmagic] at hp
  have hruns := holdsRuns_artifact extra (artifactHeader_length s 0) hsrc
  obtain ⟨hspell, -⟩ := runsAreMaximal s.source
  have hdec : rleDecodeFrom h.orig [] (u.source.drop 272) = .ok s.source := by
    rw [horig, ← source_length s]
    exact rleDecodeFrom_holdsRuns hruns hspell.symm
  exact exec_writes hu (rleDec_body hp (horig ▸ hcap) hdec)

end Sys2Proof.Machine
end

section
/-! SUPPORT and PROOFS of the statements of 45_aes.md: multiplication in the field and the column matrices, the inverse
cipher, ECB mode and padding, what the AES commands answer, the key schedule, and the statements themselves. -/

namespace Sys2Proof.Machine

/-! ## The field GF(2^8) (45_aes.md R291) -/

theorem byte_xor_left_comm (a b c : Byte) : a ^^^ (b ^^^ c) = b ^^^ (a ^^^ c) := by
  ac_rfl

theorem byte_xor_xor_cancel (a b : Byte) : a ^^^ b ^^^ b = a := by
  rw [BitVec.xor_assoc, BitVec.xor_self, BitVec.xor_zero]

theorem byte_xor_xor_xor_comm (a b c d : Byte) : a ^^^ b ^^^ (c ^^^ d) = a ^^^ c ^^^ (b ^^^ d) := by
  ac_rfl

/-- Doubling is additive: the shift is, and the reduction is by the sum of the top bits. -/
theorem xtime_xor (a b : Byte) : xtime (a ^^^ b) = xtime a ^^^ xtime b := by
  rw [xtime, xtime, xtime, BitVec.shiftLeft_xor_distrib, BitVec.getLsbD_xor, byte_xor_xor_xor_comm]
  cases a.getLsbD 7 <;> cases b.getLsbD 7 <;> rfl

/-- One round of the multiplication, for bit 7 - i of the left factor. -/
def gmulStep (a b acc : Byte) (i : Nat) : Byte := xtime acc ^^^ (if a.getLsbD (7 - i) then b else 0)

theorem gmul_eq_foldl (a b : Byte) : gmul a b = (List.range 8).foldl (gmulStep a b) 0 := rfl

theorem gmulStep_xor (a b c x y : Byte) (i : Nat) :
    gmulStep a (b ^^^ c) (x ^^^ y) i = gmulStep a b x i ^^^ gmulStep a c y i := by
  rw [gmulStep, gmulStep, gmulStep, xtime_xor, byte_xor_xor_xor_comm]
  cases a.getLsbD (7 - i) <;> simp

theorem foldl_gmulStep_xor (a b c : Byte) (bits : List Nat) (x y : Byte) :
    bits.foldl (gmulStep a (b ^^^ c)) (x ^^^ y) = bits.foldl (gmulStep a b) x ^^^ bits.foldl (gmulStep a c) y := by
  induction bits generalizing x y with
  | nil => rfl
  | cons i bits ih => rw [List.foldl_cons, List.foldl_cons, List.foldl_cons, gmulStep_xor, ih]

/-- Multiplication by a byte is additive. -/
theorem gmul_xor (a b c : Byte) : gmul a (b ^^^ c) = gmul a b ^^^ gmul a c :=
  foldl_gmulStep_xor a b c (List.range 8) 0 0

theorem gmul_zero (a : Byte) : gmul a 0 = 0 := by
  have hsum := gmul_xor a 0 0
  rwa [BitVec.xor_self, BitVec.xor_self] at hsum

/-- The products by the entries of the column matrices, as sums of repeated doublings (45_aes.md R297, R298). -/
theorem gmul_coefficients (b : Byte) :
    gmul 0x01 b = b ∧ gmul 0x02 b = xtime b ∧ gmul 0x03 b = xtime b ^^^ b ∧
      gmul 0x09 b = xtime (xtime (xtime b)) ^^^ b ∧
      gmul 0x0b b = xtime (xtime (xtime b)) ^^^ (xtime b ^^^ b) ∧
      gmul 0x0d b = xtime (xtime (xtime b)) ^^^ (xtime (xtime b) ^^^ b) ∧
      gmul 0x0e b = xtime (xtime (xtime b)) ^^^ (xtime (xtime b) ^^^ xtime b) := by
  have hzero : xtime 0#8 = 0#8 := rfl
  simp [gmul, List.range_succ, hzero, xtime_xor, BitVec.xor_assoc]

/-! ## InvMixColumns undoes MixColumns (45_aes.md R297, R298)

Both matrices are additive and commute with the rotation of a column, so a column of one byte is enough. -/

theorem mixRow_xor (k0 k1 k2 k3 : Byte) (a b : AesWord) :
    mixRow k0 k1 k2 k3 (a.xor b) = mixRow k0 k1 k2 k3 a ^^^ mixRow k0 k1 k2 k3 b := by
  simp only [mixRow, AesWord.xor, gmul_xor]
  ac_rfl

theorem mixColumn_xor (a b : AesWord) : mixColumn (a.xor b) = (mixColumn a).xor (mixColumn b) := by
  simp only [mixColumn, mixRow_xor]
  rfl

theorem invMixColumn_xor (a b : AesWord) : invMixColumn (a.xor b) = (invMixColumn a).xor (invMixColumn b) := by
  simp only [invMixColumn, mixRow_xor]
  rfl

/-- Rotating the coefficients of a row is rotating the column. -/
theorem mixRow_rotWord (k0 k1 k2 k3 : Byte) (a : AesWord) : mixRow k0 k1 k2 k3 (rotWord a) = mixRow k3 k0 k1 k2 a := by
  simp only [mixRow, rotWord]
  ac_rfl

theorem mixColumn_rotWord (a : AesWord) : mixColumn (rotWord a) = rotWord (mixColumn a) := by
  simp only [mixColumn, mixRow_rotWord]
  rfl

theorem invMixColumn_rotWord (a : AesWord) : invMixColumn (rotWord a) = rotWord (invMixColumn a) := by
  simp only [invMixColumn, mixRow_rotWord]
  rfl

/-- The product of the two matrices on a column of one byte: a polynomial identity in which every doubling cancels. -/
theorem invMixColumn_mixColumn_single (b : Byte) : invMixColumn (mixColumn ⟨b, 0, 0, 0⟩) = ⟨b, 0, 0, 0⟩ := by
  have hmix : mixColumn ⟨b, 0, 0, 0⟩ = ⟨xtime b, b, b, xtime b ^^^ b⟩ := by
    simp only [mixColumn, mixRow, gmul_zero, gmul_coefficients]
    simp
  rw [hmix]
  simp only [invMixColumn, mixRow, gmul_coefficients, xtime_xor, AesWord.mk.injEq]
  refine ⟨?_, ?_, ?_, ?_⟩ <;> simp [BitVec.xor_assoc, BitVec.xor_comm, byte_xor_left_comm]

/-- A column is the sum of the rotations of its bytes. -/
theorem word_eq_rotations (a : AesWord) :
    a = ((AesWord.mk a.b0 0 0 0).xor (rotWord (rotWord (rotWord ⟨a.b1, 0, 0, 0⟩)))).xor
      ((rotWord (rotWord ⟨a.b2, 0, 0, 0⟩)).xor (rotWord ⟨a.b3, 0, 0, 0⟩)) := by
  simp [AesWord.xor, rotWord]

theorem invMixColumn_mixColumn (a : AesWord) : invMixColumn (mixColumn a) = a := by
  rw [word_eq_rotations a]
  simp only [mixColumn_xor, invMixColumn_xor, mixColumn_rotWord, invMixColumn_rotWord, invMixColumn_mixColumn_single]

/-! ## The inverse cipher undoes the cipher (45_aes.md R299) -/

theorem invMixColumns_mixColumns (s : AesBlock) : invMixColumns (mixColumns s) = s := by
  simp only [invMixColumns, mixColumns, AesBlock.map, invMixColumn_mixColumn]

/-- The two tables of R292 and R293 are inverse. -/
theorem invSbox_sbox : ∀ x : Byte, invSbox (sbox x) = x := by decide +kernel

theorem invSubBytes_subBytes (s : AesBlock) : invSubBytes (subBytes s) = s := by
  simp only [invSubBytes, subBytes, AesBlock.map, AesWord.map, invSbox_sbox]

theorem invShiftRows_shiftRows (s : AesBlock) : invShiftRows (shiftRows s) = s := rfl

theorem word_xor_xor_cancel (a k : AesWord) : (a.xor k).xor k = a := by
  simp only [AesWord.xor, byte_xor_xor_cancel]

theorem addRoundKey_addRoundKey (w : RoundKeys) (r : Nat) (s : AesBlock) :
    addRoundKey w r (addRoundKey w r s) = s := by
  simp only [addRoundKey, word_xor_xor_cancel]

/-- Rounds n down to 1 of the inverse cipher, from the middle of round n + 1 of the cipher, end in the middle of round 1. -/
theorem invCipherRounds_cipherRounds (w : RoundKeys) (n : Nat) (s : AesBlock) :
    invCipherRounds w n (shiftRows (subBytes (cipherRounds w n s))) = shiftRows (subBytes s) := by
  induction n with
  | zero => rfl
  | succ n ih =>
    rw [invCipherRounds, invShiftRows_shiftRows, invSubBytes_subBytes, cipherRounds, addRoundKey_addRoundKey,
      invMixColumns_mixColumns, ih]

theorem invCipherBlock_cipherBlock (w : RoundKeys) (s : AesBlock) : invCipherBlock w (cipherBlock w s) = s := by
  rw [invCipherBlock, cipherBlock, addRoundKey_addRoundKey, invCipherRounds_cipherRounds, invShiftRows_shiftRows,
    invSubBytes_subBytes, addRoundKey_addRoundKey]

/-- The word at an offset is the four bytes there (45_aes.md R290). -/
theorem wordAt_bytes {bs : List Byte} {i : Nat} (h : i + 4 ≤ bs.length) : (wordAt bs i).bytes = slice bs i 4 := by
  refine List.ext_getElem (by rw [slice_length]; simp [AesWord.bytes]; omega) fun k hk _ => ?_
  have h4 : k < 4 := hk
  have hget : (slice bs i 4)[k] = bs.getD (i + k) 0 := by
    simp only [slice, List.getElem_take, List.getElem_drop]
    rw [List.getD_eq_getElem _ _ (by omega)]
  rw [hget]
  interval_cases k <;> rfl

/-- Two fields that follow each other are one field. -/
theorem slice_append_slice (a : List Byte) (i n m : Nat) : slice a i n ++ slice a (i + n) m = slice a i (n + m) := by
  rw [slice, slice, slice, List.take_add, List.drop_drop]

theorem loadBlock_storeBlock (s : AesBlock) : loadBlock (storeBlock s) = s := rfl

theorem storeBlock_loadBlock {b : List Byte} (h : b.length = 16) : storeBlock (loadBlock b) = b := by
  rw [storeBlock, loadBlock]
  rw [wordAt_bytes (by omega), wordAt_bytes (by omega), wordAt_bytes (by omega), wordAt_bytes (by omega),
    slice_append_slice b 0 4 4, slice_append_slice b 0 8 4, slice_append_slice b 0 12 4]
  exact List.take_of_length_le h.le

theorem invCipher_cipher (w : RoundKeys) {b : List Byte} (h : b.length = 16) : invCipher w (cipher w b) = b := by
  rw [invCipher, cipher, loadBlock_storeBlock, invCipherBlock_cipherBlock, storeBlock_loadBlock h]

/-! ## Mode and padding (45_aes.md R300, R301) -/

/-- A function that a second one undoes on blocks of 16 bytes is undone on a string of whole blocks. -/
theorem ecbBlocks_ecbBlocks {f g : List Byte → List Byte} (hf : ∀ b, (f b).length = 16)
    (hg : ∀ b, b.length = 16 → g (f b) = b) {n : Nat} {d : List Byte} (h : d.length = 16 * n) :
    ecbBlocks g n (ecbBlocks f n d) = d := by
  induction n generalizing d with
  | zero => exact (List.length_eq_zero_iff.mp h).symm
  | succ n ih =>
    rw [ecbBlocks, ecbBlocks, List.take_left' (hf _), List.drop_left' (hf _), hg _ (by rw [List.length_take]; omega),
      ih (by rw [List.length_drop]; omega), List.take_append_drop]

theorem ecbDec_ecbEnc (w : RoundKeys) {d : List Byte} (h : d.length % 16 = 0) : ecbDec w (ecbEnc w d) = d := by
  have hlen : d.length = 16 * (d.length / 16) := by omega
  rw [ecbDec, ecbEnc_length, ← hlen]
  exact ecbBlocks_ecbBlocks (fun _ => rfl) (fun _ => invCipher_cipher w) hlen

theorem pkcs7Unpad_pkcs7Pad (p : List Byte) : pkcs7Unpad (pkcs7Pad p) = .ok p :=
  pkcs7Unpad_padded p (by omega) (by omega)

/-- A string of one block or more with a bad pad does not unpad. -/
theorem pkcs7Unpad_bad {q : List Byte} (hl : 16 ≤ q.length) (h : PaddingBad q) :
    pkcs7Unpad q = .error .paddingInvalid := by
  have hlast : q.getD (q.length - 1) 0 = q.getLastD 0 := by
    rw [List.getLastD_eq_getLast?, List.getLast?_eq_getElem?, List.getD_eq_getElem?_getD]
  simp only [pkcs7Unpad, hlast, check_error_iff]
  rcases h with hzero | hbig | ⟨k, hk, hne⟩
  · exact .inl (.inl hzero)
  · exact .inl (.inr hbig)
  · refine or_iff_not_imp_left.mpr fun hgood => .inl fun heq => hne ?_
    have hv : (q.getLastD 0).toNat ≤ 16 := by omega
    generalize q.getLastD 0 = v at *
    have hpos : q.length - 1 - k = q.length - v.toNat + (v.toNat - 1 - k) := by omega
    rw [List.getD_eq_getElem?_getD, hpos, ← List.getElem?_drop, heq, List.getElem?_replicate, if_pos (by omega)]
    rfl

/-! ## The AES commands (45_aes.md R303 to R307) -/

/-- A raw block command's output, where its two checks pass. -/
theorem rawBlocks_whole {s : State} (f : List Byte → List Byte) (hblocks : s.slen % 16 = 0) (hc : s.slen ≤ s.cap) :
    rawBlocks s f = .ok (Output.ofBytes (f s.source)) :=
  (if_neg (not_not.mpr hblocks)).trans (if_neg (Nat.not_lt.mpr hc))

/-- A raw block command checks its length before anything else. -/
theorem rawBlocks_partial {s : State} (f : List Byte → List Byte) (h : s.slen % 16 ≠ 0) :
    rawBlocks s f = .error .corruptInput := if_pos h

/-- A raw block command whose output does not fit. -/
theorem rawBlocks_beyond {s : State} (f : List Byte → List Byte) (hblocks : s.slen % 16 = 0) (hc : s.cap < s.slen) :
    rawBlocks s f = .error .ioFailure := (if_neg (not_not.mpr hblocks)).trans (if_pos hc)

/-- Settles O24: both checks pass, and ECB keeps the length of whole blocks. -/
theorem aesRawTransformsBlocks : Obligations.AesRawTransformsBlocks := by
  intro s hblocks hc
  have hlen : 16 * (s.source.length / 16) = s.slen := by
    rw [source_length]
    omega
  refine ⟨fun hr => ?_, fun hr => ?_⟩
  · obtain ⟨t, hx, hw⟩ := exec_writes hr (rawBlocks_whole (ecbEnc s.acting.rk) hblocks hc)
    exact ⟨t, hx, (ecbEnc_length _ _).trans hlen, hw⟩
  · obtain ⟨t, hx, hw⟩ := exec_writes hr (rawBlocks_whole (ecbDec s.acting.rk) hblocks hc)
    exact ⟨t, hx, (ecbDec_length _ _).trans hlen, hw⟩

/-- The checks of AES_DEC, where the header parses and the declared size fits. -/
theorem aesDecBody_parsed {s : State} {h : Header} (hp : parseHeader s.platform.magic s.source s.slen = .ok h)
    (hc : h.orig ≤ s.cap) :
    aesDecBody s =
      if s.slen % 16 ≠ 0 then .error .corruptInput
      else if s.slen = 272 then .error .paddingInvalid
      else andThen (pkcs7Unpad (ecbDec s.acting.rk (s.source.drop 272))) (exactSize h.orig) := by
  obtain ⟨hl, -⟩ := parseHeader_ok.mp hp
  have hwhole : (s.source.drop 272).length % 16 = s.slen % 16 := by
    rw [List.length_drop, source_length]
    omega
  have hnone : (s.source.drop 272).length = 0 ↔ s.slen = 272 := by
    rw [List.length_drop, source_length]
    omega
  rw [aesDecBody, withArtifact_parsed hp hc, Config.hdrLen]
  simp only [hwhole, hnone]

/-- Settles O31: each check of the pseudocode is reached where the checks before it pass. -/
theorem aesDataErrors : Obligations.AesDataErrors := by
  intro s
  refine ⟨fun hpart => ⟨fun hr => exec_fails hr (rawBlocks_partial _ hpart),
      fun hr => exec_fails hr (rawBlocks_partial _ hpart)⟩,
    fun hblocks hc => ⟨fun hr => exec_fails hr (rawBlocks_beyond _ hblocks hc),
      fun hr => exec_fails hr (rawBlocks_beyond _ hblocks hc)⟩,
    fun hr h hp hc => ?_⟩
  have hbody : bodyOf .aesDec s = _ := aesDecBody_parsed hp hc
  refine ⟨fun hpart => exec_fails hr (hbody.trans (if_pos hpart)),
    fun hnone => exec_fails hr (hbody.trans (by rw [if_neg (by omega), if_pos hnone])), fun hlong hblocks => ?_⟩
  rw [if_neg (not_not.mpr hblocks), if_neg (by omega)] at hbody
  have hlen : 16 ≤ (ecbDec s.acting.rk (s.source.drop 272)).length := by
    rw [ecbDec_length, List.length_drop, source_length]
    omega
  refine ⟨fun err he => ?_, fun hbad => ?_, fun pt hpt hne => ?_⟩
  · obtain rfl := pkcs7Unpad_error he
    exact ⟨rfl, exec_fails hr (hbody.trans (sized_error (.inl he)))⟩
  · exact exec_fails hr (hbody.trans (sized_error (.inl (pkcs7Unpad_bad hlen hbad))))
  · exact exec_fails hr (hbody.trans (sized_error (.inr ⟨rfl, pt, hpt, hne⟩)))

/-! ## The round trip (45_aes.md R308) -/

/-- AES_DEC of the artifact that AES_ENC makes of another state's source, under the same RK: the header declares the length
of that source, and the body decrypts and unpads to it. -/
theorem aesDecBody_artifact {s u : State} (hrk : u.acting.rk = s.acting.rk) (hmagic : u.platform.magic = s.platform.magic)
    (hsrc : u.source = s.artifactHeader Config.encFlag ++ ecbEnc s.acting.rk (pkcs7Pad s.source))
    (hcap : s.slen ≤ u.cap) : aesDecBody u = .ok (Output.ofBytes s.source) := by
  obtain ⟨h, hp, horig⟩ := parseHeader_artifactHeader s Config.encFlag (ecbEnc s.acting.rk (pkcs7Pad s.source))
  rw [← hsrc, source_length, ← hmagic] at hp
  have hslen : u.slen = 272 + 16 * (s.slen / 16 + 1) := by
    rw [← source_length u, hsrc, List.length_append, artifactHeader_length, ecbEnc_length, pkcs7Pad_length,
      source_length]
    omega
  have hplain : pkcs7Unpad (ecbDec u.acting.rk (u.source.drop 272)) = .ok s.source := by
    rw [hsrc, List.drop_left' (artifactHeader_length s _), hrk, ecbDec_ecbEnc _ (by rw [pkcs7Pad_length]; omega),
      pkcs7Unpad_pkcs7Pad]
  exact aesDec_body hp (horig ▸ hcap) ((source_length s).trans horig.symm) (by omega) (by omega) hplain

/-- AES_RAW_DEC of what AES_RAW_ENC makes of another state's source of whole blocks, under the same RK. -/
theorem aesRawDecBody_encrypted {s u : State} (hrk : u.acting.rk = s.acting.rk) (hblocks : s.slen % 16 = 0)
    (hsrc : u.source = ecbEnc s.acting.rk s.source) (hcap : s.slen ≤ u.cap) :
    aesRawDecBody u = .ok (Output.ofBytes s.source) := by
  have hslen : u.slen = s.slen := by
    rw [← source_length u, hsrc, ecbEnc_length, source_length]
    omega
  have hplain : ecbDec u.acting.rk u.source = s.source := by
    rw [hsrc, hrk, ecbDec_ecbEnc _ (by rw [source_length, hblocks])]
  rw [aesRawDecBody, rawBlocks_whole _ (by omega) (by omega), hplain]

/-- Settles O60: the inverse cipher undoes each step of the cipher in reverse order, so ECB and the padding are undone. -/
theorem aesRoundTrip : Obligations.AesRoundTrip := by
  refine ⟨fun w _ => invCipher_cipher w, fun s t u hrk hok hsrc hcap => ⟨fun hs hx hu hmagic => ?_, fun hs hx hu => ?_⟩⟩
  · obtain ⟨o, hbody, hread⟩ := exec_ok_output hs hx hok
    obtain ⟨-, -, hartifact⟩ := encoder_ok hbody
    exact exec_writes hu (aesDecBody_artifact hrk hmagic (by rw [hsrc, hread, hartifact]) hcap)
  · obtain ⟨o, hbody, hread⟩ := exec_ok_output hs hx hok
    obtain ⟨hblocks, -, rfl⟩ := rawBlocks_ok hbody
    exact exec_writes hu (aesRawDecBody_encrypted hrk hblocks (hsrc.trans hread) hcap)

/-! ## The key (10_state.md R46, 45_aes.md R295, R303) -/

/-- Later words do not change the words before them. -/
theorem expandWords_getD_add (key : List Byte) {n i : Nat} (k : Nat) (h : i < 8 + n) :
    (expandWords key (n + k)).getD i default = (expandWords key n).getD i default := by
  induction k with
  | zero => rfl
  | succ k ih =>
    rw [← Nat.add_assoc, expandWords, List.getD_append _ _ _ _ (by rw [expandWords_length]; omega), ih]

/-- Word i of the schedule stands in every expansion that has run far enough. -/
theorem keyExpansion_getD (key : List Byte) {n i : Nat} (hn : n ≤ 52) (h : i < 8 + n) :
    (keyExpansion key).toList.getD i default = (expandWords key n).getD i default := by
  obtain ⟨k, hk⟩ := Nat.exists_eq_add_of_le hn
  rw [← expandWords_getD_add key k h, ← hk]
  rfl

/-- The first eight words of the schedule are the key's. -/
theorem keyExpansion_key (key : List Byte) {i : Nat} (h : i < 8) :
    (keyExpansion key).toList.getD i default = wordAt key (4 * i) := by
  rw [keyExpansion_getD key (Nat.zero_le _) h]
  simp [expandWords, List.getD_eq_getElem?_getD, h]

/-- Each later word of the schedule is the next word of the expansion before it. -/
theorem keyExpansion_next (key : List Byte) {m : Nat} (h : m < 52) :
    (keyExpansion key).toList.getD (8 + m) default = nextWord (expandWords key m) (8 + m) := by
  have hlen := expandWords_length key m
  rw [keyExpansion_getD key (n := m + 1) h (by omega), expandWords, List.getD_append_right _ _ _ _ (by omega), hlen,
    Nat.sub_self, List.getD_cons_zero]

/-- Settles O59: the two words that the recurrence reads stand in the schedule as in the expansion it continues. -/
theorem keyScheduleRecurrence : Obligations.KeyScheduleRecurrence := by
  refine fun key hkey => ⟨fun i hi => ?_, fun i h8 h60 => ?_⟩
  · rw [keyExpansion_key key hi, wordAt_bytes (by omega)]
  · obtain ⟨m, rfl⟩ := Nat.exists_eq_add_of_le h8
    intro w
    have hread : ∀ j, j < 8 + m → w j = (expandWords key m).getD j default :=
      fun j hj => keyExpansion_getD key (by omega) hj
    have hnext : w (8 + m) = nextWord (expandWords key m) (8 + m) := keyExpansion_next key (by omega)
    rw [hnext, nextWord, hread _ (by omega), hread _ (by omega)]

/-- The bytes of the key are those of the eight words, each in little-endian order. -/
theorem keyBytes_word (r : OperandRegs) (i : Fin 8) (j : Fin 4) :
    r.keyBytes[4 * i.val + j.val]? = some (r.keys[i].extractLsb' (8 * j.val) 8) := by
  have hdiv : (4 * i.val + j.val) / 4 = i.val := by omega
  have hmod : (4 * i.val + j.val) % 4 = j.val := by omega
  have hrange : 4 * i.val + j.val < 32 := by omega
  simp [OperandRegs.keyBytes, OperandRegs.keyByte, hdiv, hmod, hrange]

/-- AES_KEYEXP has no buffer to race on and no pre-check: it finishes with the expansion and no output. -/
theorem exec_aesKeyexp (s : State) :
    exec .aesKeyexp s = .next (s.finish { bytes := [], update := .roundKeys (keyExpansion s.ops.keyBytes) }) := rfl

/-- Writing the empty string changes no byte. -/
theorem memoryKept_of_wrote_nil {s t : State} {a : Nat} (h : s.Wrote t a []) : s.MemoryKept t := by
  obtain ⟨-, houtside⟩ := h
  refine fun x => houtside x ?_
  rw [covers_false_iff, List.length_nil, Nat.add_zero]
  exact Nat.lt_or_ge x a

/-- Settles O23: AES_KEYEXP completes with the expansion as its register update and the empty string as its output. -/
theorem aesKeyexpExpandsKey : Obligations.AesKeyexpExpandsKey := by
  refine ⟨fun r => ⟨by simp [OperandRegs.keyBytes], keyBytes_word r⟩, fun s ha => ⟨_, exec_aesKeyexp s, ?_⟩⟩
  have hacting := finish_acting s { bytes := [], update := .roundKeys (keyExpansion s.ops.keyBytes) } ha
  refine ⟨finish_posted s _ ha (Nat.two_pow_pos 64), ?_, finish_others s _,
    memoryKept_of_wrote_nil (finish_wrote s _), ?_, ?_⟩
  · rw [State.HeaderKept, hacting]
    exact ⟨rfl, rfl⟩
  · rw [hacting]
    rfl
  · rw [hacting]
    rfl

end Sys2Proof.Machine
end

section
/-! SUPPORT and PROOFS of the statements of 60_exceptions.md: how a command completes, where the code of an error comes from
and what an error leaves, each with its statement. -/

namespace Sys2Proof.Machine

/-! ## Completion (60_exceptions.md R366, R376) -/

/-- IRQ_EN survives every completion of the acting engine (60_exceptions.md R362). -/
theorem exec_irqEn {i : Instr} {s t : State} (h : exec i s = .next t) (ha : s.active < s.engines.length) :
    t.acting.irqEn = s.acting.irqEn := by
  rcases exec_acting h ha with ⟨-, -, u, err, n, hact, -⟩ | ⟨err, hact⟩ | ⟨o, -, hact⟩
  · rw [hact, complete_irqEn, update_irqEn]
  · rw [hact, complete_irqEn]
  · rw [hact, complete_irqEn, update_irqEn]

/-- With DONE set the interrupt output is IRQ_EN. -/
theorem irq_of_done {e : Engine} (h : e.done = true) : e.irq = e.irqEn := by
  rw [Engine.irq, h, Bool.true_and]

/-- Settles O5: running a command always answers a next state, and each of its ends is a completion of its engine. -/
theorem everyCommandCompletes : Obligations.EveryCommandCompletes := by
  intro i s ha
  obtain ⟨t, ht⟩ := exec_next i s
  obtain ⟨hphase, hdone⟩ := exec_completes ht ha
  have hirqEn := exec_irqEn ht ha
  exact ⟨t, ht, hphase, hdone, hirqEn, (irq_of_done hdone).trans hirqEn⟩

/-! ## Where an error comes from (60_exceptions.md R361, R363) -/

/-- A command that no agent races on and that ends with an error was stopped by a pre-check before any memory access, or it
was ready and its own pseudocode raised the error. -/
theorem exec_error_cases {i : Instr} {s t : State} (ha : s.active < s.engines.length) (hq : s.acting.raced = false)
    (hx : exec i s = .next t) (he : t.acting.err ≠ .ok) :
    (s.preCheck i = some t.acting.err ∧ s.FailsClean t t.acting.err) ∨
    (s.Ready i ∧ bodyOf i s = .error t.acting.err ∧ s.FailsInBody t t.acting.err) := by
  rw [exec_eq] at hx
  rcases runCommand_cases i (bodyOf i) s t hx with ⟨-, hr, -⟩ | ⟨err, hp, rfl⟩ | ⟨err, hp, hb, rfl⟩ | ⟨o, -, -, rfl⟩
  · simp [hq] at hr
  · rw [raise_acting s err ha, complete_err]
    exact .inl ⟨hp, raise_spec s err ha⟩
  · rw [raiseInBody_acting s err ha, complete_err]
    exact .inr ⟨(ready_iff s i).mpr ⟨ha, hq, hp⟩, hb, raiseInBody_spec s err ha⟩
  · rw [finish_acting s o ha, complete_err] at he
    exact absurd rfl he

/-- A command without a destination has no buffer at all and needs no key, so no pre-check stops it
(40_engine_common.md R160). -/
theorem preCheck_of_no_dest {i : Instr} {s : State} (h : usesDest i = false) : s.preCheck i = none := by
  cases i with
  | nop | aesKeyexp => rfl
  | _ => cases h

/-- The row of a command that needs a key has MissingKey (60_exceptions.md R361). -/
theorem missingKey_mem_causes {i : Instr} (h : needsKey i = true) : Status.missingKey ∈ causes i := by
  cases i with
  | aesEnc | aesDec | aesRawEnc | aesRawDec => decide
  | _ => cases h

/-- The row of a command with a destination has IoFailure (60_exceptions.md R361). -/
theorem ioFailure_mem_causes {i : Instr} (h : usesDest i = true) : Status.ioFailure ∈ causes i := by
  cases i with
  | nop | aesKeyexp => cases h
  | _ => decide

/-- A pre-check raises a code of its command's row: MissingKey where the key is missing, and IoFailure otherwise. -/
theorem preCheck_mem_causes {i : Instr} {s : State} {err : Status} (hp : s.preCheck i = some err) : err ∈ causes i := by
  by_cases hk : needsKey i = true → s.acting.keyValid = true
  · have hdest : usesDest i = true := by
      by_contra hd
      simp [preCheck_of_no_dest (eq_false_of_ne_true hd)] at hp
    rcases preCheck_ioFailure hk with hnone | hio
    · simp [hnone] at hp
    · obtain rfl : Status.ioFailure = err := Option.some.inj (hio.symm.trans hp)
      exact ioFailure_mem_causes hdest
  · obtain ⟨hneeds, hvalid⟩ := Classical.not_imp.mp hk
    have hmissing : s.preCheck i = some .missingKey := if_pos (by simp [hneeds, hvalid])
    obtain rfl : Status.missingKey = err := Option.some.inj (hmissing.symm.trans hp)
    exact missingKey_mem_causes hneeds

/-- Settles O32: the code is that of a pre-check or of the pseudocode, and both raise codes of the row. -/
theorem commandsRaiseOnlyTheirCodes : Obligations.CommandsRaiseOnlyTheirCodes := by
  intro i s t ha hq hx
  refine or_iff_not_imp_left.mpr fun he => ?_
  rcases exec_error_cases ha hq hx he with ⟨hp, -⟩ | ⟨-, hb, -⟩
  · exact preCheck_mem_causes hp
  · exact body_error_mem_causes hb

/-! ## What an error leaves (60_exceptions.md R364) -/

/-- An error that changes no memory changes none outside the destination. -/
theorem failsInBody_of_failsClean {s t : State} {err : Status} (h : s.FailsClean t err) : s.FailsInBody t err := by
  obtain ⟨hposted, hheader, hkey, hothers, hmem⟩ := h
  exact ⟨hposted, hheader, hkey, hothers, fun a _ => hmem a⟩

/-- Settles O33: an error of a pre-check comes before any memory access, and only a ready command comes to an error of its
own. -/
theorem errorsArePrecise : Obligations.ErrorsArePrecise := by
  intro i s t ha hq hx he
  rcases exec_error_cases ha hq hx he with ⟨-, hclean⟩ | ⟨hready, -, hbody⟩
  · have ⟨_, _, _, _, hmem⟩ := hclean
    exact ⟨failsInBody_of_failsClean hclean, fun _ => hmem⟩
  · exact ⟨hbody, fun hn => absurd hready hn⟩

end Sys2Proof.Machine
end

section
/-! SUPPORT and PROOF of the statement of 70_reset_and_hazards.md: what a reset of one engine answers, and what it leaves. -/

namespace Sys2Proof.Machine

/-! ## The event (70_reset_and_hazards.md R390, R391) -/

/-- The reset of an engine that the platform has is accepted, whatever the engine does. -/
theorem platformReset_next {s : State} {e : Nat} {f : Engine} (hf : s.engines[e]? = some f) :
    ∃ t, platformReset e s = .next t := by
  simp [platformReset, hf]

/-- A reset gives the engine the values of 10_state.md R53, with some round-key store, and changes no other engine, no
platform parameter and no pending event. -/
theorem platformReset_leaves {s t : State} {e : Nat} (h : platformReset e s = .next t) :
    (∃ rk, t.engines[e]? = some { Engine.reset with rk := rk }) ∧ (∀ k, k ≠ e → t.engines[k]? = s.engines[k]?) ∧
      t.platform = s.platform ∧ t.agenda = s.agenda := by
  obtain ⟨f, s1, hf, hs1, rfl⟩ := platformReset_cases e s t h
  obtain ⟨hplatform, hengines, -, hagenda, -⟩ := openRegions_fold f.abandoned s
  rw [← hs1] at hplatform hengines hagenda
  rw [← hengines] at hf ⊢
  exact ⟨⟨_, mapEngine_self s1 e _ hf⟩, fun k hk => mapEngine_other s1 e _ hk, hplatform, hagenda⟩

/-- A reset leaves every byte alone that the engine's running command, if any, could not write. -/
theorem platformReset_readByte {s t : State} {e a : Nat} {f : Engine} (h : platformReset e s = .next t)
    (hf : s.engines[e]? = some f) (hl : f.LeavesAlone a) : t.readByte a = s.readByte a := by
  by_contra hc
  obtain ⟨g, hg, hn⟩ := platformReset_memory h hc
  obtain rfl : f = g := Option.some.inj (hf.symm.trans hg)
  exact hn hl

/-! ## What a reset leaves (70_reset_and_hazards.md R390 to R392) -/

/-- Settles O39: no register shows the round-key store, the one field in which the engine differs from `Engine.reset`. -/
theorem resetOfAnEngine : Obligations.ResetOfAnEngine := by
  intro s e f rest hf ha
  obtain ⟨t, ht⟩ := platformReset_next (s := { s with agenda := rest }) hf
  obtain ⟨⟨rk, hself⟩, hothers, hplatform, hagenda⟩ := platformReset_leaves ht
  have hstep : step s = .next t := by rw [step_event ha, onEvent, ht]
  refine ⟨t, _, hstep, hself, rfl, fun off => ?reads, rfl, rfl, rfl, hothers, hplatform, hagenda, fun a hl => ?memory⟩
  case reads => exact readReg_reset (regAt off)
  case memory => exact platformReset_readByte (s := { s with agenda := rest }) ht hf hl

end Sys2Proof.Machine
end
